-- ==== Sys2Proof/Word.lean ====
section
/-! DEFINITION. The byte, the four-byte masking key, and the two kinds of item that travel towards the block
(a byte with its `last` mark on `d_in`, a command on `e_cmd`). -/

namespace Sys2Proof

/-- An 8-bit unsigned byte (R14). -/
abbrev Byte := BitVec 8

/-- A MaskingKey: exactly four bytes in wire order (R24); also the register files `DEC.key[0..3]` (R33) and
`ENC.key[0..3]` (R38). -/
structure Key where
  k0 : Byte
  k1 : Byte
  k2 : Byte
  k3 : Byte
  deriving DecidableEq, Repr

/-- One transfer of `d_in`: `d_in_data` and `d_in_last` (R41, R69). -/
structure Beat where
  data : Byte
  last : Bool
  deriving DecidableEq, Repr

/-- One item of `e_cmd`: `e_type`, `e_len`, `e_key` (R42). -/
structure Command where
  typ : Byte
  len : BitVec 32
  key : BitVec 32
  deriving DecidableEq, Repr

end Sys2Proof
end

