-- ==== Sys2Proof/Config.lean ====
section
/-! DEFINITION. The parameters of the block (R7 of 00_scope.md) and the one family of values the spec leaves
unspecified. `DEC_LEN_W`, `ENC_LEN_W` and `BEAT_BYTES` are the widths in the types of State; `KeySource` is open and
is the key of each command (notes/assumptions/15.md). -/

namespace Sys2Proof.Config

/-- `LEN7_INLINE_MAX`: the largest `len7` that is itself the payload length. -/
def len7InlineMax : Nat := 125

/-- `LEN7_EXT16`: the `len7` that announces a 2-byte extended length. -/
def len7Ext16 : BitVec 7 := 126#7

/-- `LEN7_EXT64`: the `len7` that announces an 8-byte extended length. -/
def len7Ext64 : BitVec 7 := 127#7

/-- `HIGH32_MAX`: the largest accepted value of the high 32 bits of a 64-bit length. -/
def high32Max : Nat := 2 ^ 21 - 1

/-- `DEC_LEN_MAX`: the largest payload length DEC accepts. -/
def decLenMax : Nat := 2 ^ 53 - 1

/-- `ENC_LEN_MAX`: the largest payload length ENC encodes. -/
def encLenMax : Nat := 2 ^ 32 - 1

/-- `ENC_EXT16_MAX`: the largest payload length ENC encodes with the 2-byte extension. -/
def encExt16Max : Nat := 65535

/-- `KEY_BYTES`: the size of a masking key. -/
def keyBytes : Nat := 4

/-- `CLOSE_TOO_BIG`: the close code of the oversize error. -/
def closeTooBig : BitVec 16 := 1009#16

/-- `CLOSE_PROTOCOL_ERROR`: the close code of the insufficient-input outcome. -/
def closeProtocolError : BitVec 16 := 1002#16

/-- `CLOSE_DEFAULT`: the default `code` of BUILD_CLOSE. -/
def closeDefault : BitVec 16 := 1000#16

/-- `REASON_MAX`: the largest close reason in bytes. -/
def reasonMax : Nat := 123

/-- `CONTROL_PAYLOAD_MAX`: stated by the source, enforced by neither unit (R226, R291). -/
def controlPayloadMax : Nat := 125

/-- What a reset event leaves in a datapath register: unspecified (R43, R280). `reg` numbers the register, `draw` the
reset event. No value of it can be proved. DESIGN CHOICE, safe: notes/assumptions/7.md. -/
opaque unspecified (reg draw : Nat) : BitVec 53

end Sys2Proof.Config
end

