-- ==== Sys2Proof/Syntax.lean ====
section
/-! DEFINITION. The instructions: one constructor for each of the 29 rows of spec/opcode_table.json. -/

namespace Sys2Proof

/-- The `F` and `R` bits of header byte 0: `fin`, `rsv1`, `rsv2`, `rsv3` (R91). -/
structure HeadFlags where
  fin : Bool
  rsv1 : Bool
  rsv2 : Bool
  rsv3 : Bool
  deriving DecidableEq, Repr

/-- The instructions (R13): the operations, the pseudo-operations, and the parts of a wire frame DEC decodes. In the
command rows `n` is `e_len` and `k` is `e_key`; the payload bytes are not part of the word. -/
inductive Instr where
  /-- DECODE (R158, R163): no command word. -/
  | decode
  /-- ENCODE (R197): `t` is `e_type`. -/
  | encode (t : Byte) (n k : BitVec 32)
  /-- BUILD_MESSAGE with `isBinary = false` (R221). -/
  | buildMessageText (n k : BitVec 32)
  /-- BUILD_MESSAGE with `isBinary = true` (R221). -/
  | buildMessageBinary (n k : BitVec 32)
  /-- BUILD_PING (R222). -/
  | buildPing (n k : BitVec 32)
  /-- BUILD_PONG (R223). -/
  | buildPong (n k : BitVec 32)
  /-- BUILD_CLOSE (R224); `n = 2 + |reason|`. -/
  | buildClose (n k : BitVec 32)
  /-- Form H7U (R100): unmasked, `len7 <= 125`. -/
  | h7u (f : HeadFlags) (op : BitVec 4) (len7 : BitVec 7)
  /-- Form H7M (R100): masked, `len7 <= 125`. -/
  | h7m (f : HeadFlags) (op : BitVec 4) (len7 : BitVec 7)
  /-- Form H16U (R100): byte 1 is 0x7E. -/
  | h16u (f : HeadFlags) (op : BitVec 4)
  /-- Form H16M (R100): byte 1 is 0xFE. -/
  | h16m (f : HeadFlags) (op : BitVec 4)
  /-- Form H64U (R100): byte 1 is 0x7F. -/
  | h64u (f : HeadFlags) (op : BitVec 4)
  /-- Form H64M (R100): byte 1 is 0xFF. -/
  | h64m (f : HeadFlags) (op : BitVec 4)
  /-- Opcode 0x0 (R131). -/
  | opContinuation (f : HeadFlags)
  /-- Opcode 0x1 (R132). -/
  | opText (f : HeadFlags)
  /-- Opcode 0x2 (R133). -/
  | opBinary (f : HeadFlags)
  /-- Reserved data opcode 0x3 (R134). -/
  | opReservedData3 (f : HeadFlags)
  /-- Reserved data opcode 0x4 (R134). -/
  | opReservedData4 (f : HeadFlags)
  /-- Reserved data opcode 0x5 (R134). -/
  | opReservedData5 (f : HeadFlags)
  /-- Reserved data opcode 0x6 (R134). -/
  | opReservedData6 (f : HeadFlags)
  /-- Reserved data opcode 0x7 (R134). -/
  | opReservedData7 (f : HeadFlags)
  /-- Opcode 0x8 (R135). -/
  | opClose (f : HeadFlags)
  /-- Opcode 0x9 (R136). -/
  | opPing (f : HeadFlags)
  /-- Opcode 0xA (R137). -/
  | opPong (f : HeadFlags)
  /-- Reserved control opcode 0xB (R138). -/
  | opReservedControlB (f : HeadFlags)
  /-- Reserved control opcode 0xC (R138). -/
  | opReservedControlC (f : HeadFlags)
  /-- Reserved control opcode 0xD (R138). -/
  | opReservedControlD (f : HeadFlags)
  /-- Reserved control opcode 0xE (R138). -/
  | opReservedControlE (f : HeadFlags)
  /-- Reserved control opcode 0xF (R138). -/
  | opReservedControlF (f : HeadFlags)
  deriving DecidableEq, Repr

/-- Where an instruction word is fetched from; it decides which rows the word can be (notes/assumptions/12.md). -/
inductive Slot where
  /-- A call of the driver: a BUILD_* row (R220). -/
  | call
  /-- A command on `e_cmd`, or the command ENC has latched: ENCODE (R204). -/
  | command
  /-- The byte offered to DEC in D_B0: an OP_* row (R164). -/
  | byteZero
  /-- Header bytes 0 and 1, the second offered to DEC in D_B1: a header form (R165). -/
  | header
  /-- DEC in D_EXT, D_KEY or D_PAY: the rest of the DECODE operation (R166, R167, R169). -/
  | rest
  deriving DecidableEq, Repr

/-- Why a word is no instruction. -/
inductive Reject where
  /-- The slot takes another number of bytes. -/
  | wrongWidth (bytes : Nat)
  /-- A driver's call whose type byte is that of no builder (R221 to R224). -/
  | noSuchBuilder (typ : Byte)
  deriving DecidableEq, Repr

end Sys2Proof
end

