-- ==== Sys2Proof/WellFormed.lean ====
section
/-! DEFINITION. The operand values an encoding admits. -/

namespace Sys2Proof

/-- The check on operands: the constraint `len7 in 0..125` of rows H7U and H7M (R100). Every other operand value is
legal (R91, R104, R107). -/
def wellFormed : Instr → Bool
  | .decode => true
  | .encode _ _ _ => true
  | .buildMessageText _ _ => true
  | .buildMessageBinary _ _ => true
  | .buildPing _ _ => true
  | .buildPong _ _ => true
  | .buildClose _ _ => true
  | .h7u _ _ len7 => len7.toNat ≤ Config.len7InlineMax
  | .h7m _ _ len7 => len7.toNat ≤ Config.len7InlineMax
  | .h16u _ _ => true
  | .h16m _ _ => true
  | .h64u _ _ => true
  | .h64m _ _ => true
  | .opContinuation _ => true
  | .opText _ => true
  | .opBinary _ => true
  | .opReservedData3 _ => true
  | .opReservedData4 _ => true
  | .opReservedData5 _ => true
  | .opReservedData6 _ => true
  | .opReservedData7 _ => true
  | .opClose _ => true
  | .opPing _ => true
  | .opPong _ => true
  | .opReservedControlB _ => true
  | .opReservedControlC _ => true
  | .opReservedControlD _ => true
  | .opReservedControlE _ => true
  | .opReservedControlF _ => true

/-- The instruction's operands are values its encoding admits. -/
abbrev WellFormed (i : Instr) : Prop := wellFormed i = true

end Sys2Proof
end

