-- ==== Sys2Proof/Decode.lean ====
section
/-! DEFINITION. The decoder, total on any bytes and rejecting by name, then the encoder; and the bit-field and
byte-order helpers both use. -/

namespace Sys2Proof

/-- `enc_be16` (R16). -/
def encBe16 (v : BitVec 16) : List Byte := [v.extractLsb' 8 8, v.extractLsb' 0 8]

/-- `enc_be32` (R16). -/
def encBe32 (v : BitVec 32) : List Byte :=
  [v.extractLsb' 24 8, v.extractLsb' 16 8, v.extractLsb' 8 8, v.extractLsb' 0 8]

/-- Two bytes, the more significant first (R16). -/
def ofBe16 (a b : Byte) : BitVec 16 := a ++ b

/-- Four bytes, the most significant first (R16). -/
def ofBe32 (a b c d : Byte) : BitVec 32 := a ++ b ++ c ++ d

/-- `fin`, `rsv1`, `rsv2`, `rsv3`: bits 7, 6, 5, 4 of header byte 0 (R91). -/
def flagsOf (b : Byte) : HeadFlags :=
  ⟨b.getLsbD 7, b.getLsbD 6, b.getLsbD 5, b.getLsbD 4⟩

/-- `opcode`: bits 3 to 0 of header byte 0 (R91). -/
def opcodeOf (b : Byte) : BitVec 4 := b.extractLsb' 0 4

/-- The mask flag: bit 7 of header byte 1 (R92). -/
def maskedOf (b : Byte) : Bool := b.getLsbD 7

/-- `len7`: bits 6 to 0 of header byte 1 (R92). -/
def len7Of (b : Byte) : BitVec 7 := b.extractLsb' 0 7

/-- Header byte 0 from its fields (R91, R104). -/
def byteZeroOf (f : HeadFlags) (op : BitVec 4) : Byte :=
  BitVec.ofBool f.fin ++ BitVec.ofBool f.rsv1 ++ BitVec.ofBool f.rsv2 ++ BitVec.ofBool f.rsv3 ++ op

/-- Header byte 1 from its fields (R92). -/
def byteOneOf (masked : Bool) (len7 : BitVec 7) : Byte := BitVec.ofBool masked ++ len7

/-- The OP_* row of an opcode value (R107); all sixteen are rows. -/
def opcodeInstr (f : HeadFlags) (op : BitVec 4) : Instr :=
  match op.toNat with
  | 0x0 => .opContinuation f
  | 0x1 => .opText f
  | 0x2 => .opBinary f
  | 0x3 => .opReservedData3 f
  | 0x4 => .opReservedData4 f
  | 0x5 => .opReservedData5 f
  | 0x6 => .opReservedData6 f
  | 0x7 => .opReservedData7 f
  | 0x8 => .opClose f
  | 0x9 => .opPing f
  | 0xA => .opPong f
  | 0xB => .opReservedControlB f
  | 0xC => .opReservedControlC f
  | 0xD => .opReservedControlD f
  | 0xE => .opReservedControlE f
  | _ => .opReservedControlF f

/-- The header form byte 1 selects (R100), with the fields of byte 0. -/
def headerInstr (f : HeadFlags) (op : BitVec 4) (masked : Bool) (len7 : BitVec 7) : Instr :=
  if len7.toNat ≤ Config.len7InlineMax then
    if masked then .h7m f op len7 else .h7u f op len7
  else if len7 = Config.len7Ext16 then
    if masked then .h16m f op else .h16u f op
  else
    if masked then .h64m f op else .h64u f op

/-- The BUILD_* row whose type byte a driver's call carries (R221 to R224). -/
def builderInstr (c : Command) : Except Reject Instr :=
  if c.typ = 0x81#8 then .ok (.buildMessageText c.len c.key)
  else if c.typ = 0x82#8 then .ok (.buildMessageBinary c.len c.key)
  else if c.typ = 0x89#8 then .ok (.buildPing c.len c.key)
  else if c.typ = 0x8A#8 then .ok (.buildPong c.len c.key)
  else if c.typ = 0x88#8 then .ok (.buildClose c.len c.key)
  else .error (.noSuchBuilder c.typ)

/-- The nine bytes of a command: `e_type`, `e_len`, `e_key`, each most significant byte first (R42, R63). -/
def commandBytes (c : Command) : List Byte := c.typ :: (encBe32 c.len ++ encBe32 c.key)

/-- The command nine bytes hold. -/
def commandOf : List Byte → Option Command
  | [t, n3, n2, n1, n0, k0, k1, k2, k3] => some ⟨t, ofBe32 n3 n2 n1 n0, ofBe32 k0 k1 k2 k3⟩
  | _ => none

/-- The decoder: the instruction the bytes of a slot are, total on any bytes, rejecting by name. -/
def decodeWord : Slot → List Byte → Except Reject Instr
  | .call, bs =>
    match commandOf bs with
    | some c => builderInstr c
    | none => .error (.wrongWidth bs.length)
  | .command, bs =>
    match commandOf bs with
    | some c => .ok (.encode c.typ c.len c.key)
    | none => .error (.wrongWidth bs.length)
  | .byteZero, [b] => .ok (opcodeInstr (flagsOf b) (opcodeOf b))
  | .byteZero, bs => .error (.wrongWidth bs.length)
  | .header, [b0, b1] => .ok (headerInstr (flagsOf b0) (opcodeOf b0) (maskedOf b1) (len7Of b1))
  | .header, bs => .error (.wrongWidth bs.length)
  | .rest, [] => .ok .decode
  | .rest, bs => .error (.wrongWidth bs.length)

/-- The slot an instruction is fetched from. -/
def slotOf : Instr → Slot
  | .decode => .rest
  | .encode _ _ _ => .command
  | .buildMessageText _ _ => .call
  | .buildMessageBinary _ _ => .call
  | .buildPing _ _ => .call
  | .buildPong _ _ => .call
  | .buildClose _ _ => .call
  | .h7u _ _ _ => .header
  | .h7m _ _ _ => .header
  | .h16u _ _ => .header
  | .h16m _ _ => .header
  | .h64u _ _ => .header
  | .h64m _ _ => .header
  | .opContinuation _ => .byteZero
  | .opText _ => .byteZero
  | .opBinary _ => .byteZero
  | .opReservedData3 _ => .byteZero
  | .opReservedData4 _ => .byteZero
  | .opReservedData5 _ => .byteZero
  | .opReservedData6 _ => .byteZero
  | .opReservedData7 _ => .byteZero
  | .opClose _ => .byteZero
  | .opPing _ => .byteZero
  | .opPong _ => .byteZero
  | .opReservedControlB _ => .byteZero
  | .opReservedControlC _ => .byteZero
  | .opReservedControlD _ => .byteZero
  | .opReservedControlE _ => .byteZero
  | .opReservedControlF _ => .byteZero

/-- How many bytes the word of a slot has. -/
def slotBytes : Slot → Nat
  | .call => 9
  | .command => 9
  | .byteZero => 1
  | .header => 2
  | .rest => 0

/-- The encoder: the bytes of an instruction's word, from the encoding column of spec/opcode_table.json (R91, R92,
R100 for frames; R42 and R221 to R224 for commands). -/
def encodeWord : Instr → List Byte
  | .decode => []
  | .encode t n k => commandBytes ⟨t, n, k⟩
  | .buildMessageText n k => commandBytes ⟨0x81#8, n, k⟩
  | .buildMessageBinary n k => commandBytes ⟨0x82#8, n, k⟩
  | .buildPing n k => commandBytes ⟨0x89#8, n, k⟩
  | .buildPong n k => commandBytes ⟨0x8A#8, n, k⟩
  | .buildClose n k => commandBytes ⟨0x88#8, n, k⟩
  | .h7u f op len7 => [byteZeroOf f op, byteOneOf false len7]
  | .h7m f op len7 => [byteZeroOf f op, byteOneOf true len7]
  | .h16u f op => [byteZeroOf f op, 0x7E#8]
  | .h16m f op => [byteZeroOf f op, 0xFE#8]
  | .h64u f op => [byteZeroOf f op, 0x7F#8]
  | .h64m f op => [byteZeroOf f op, 0xFF#8]
  | .opContinuation f => [byteZeroOf f 0x0#4]
  | .opText f => [byteZeroOf f 0x1#4]
  | .opBinary f => [byteZeroOf f 0x2#4]
  | .opReservedData3 f => [byteZeroOf f 0x3#4]
  | .opReservedData4 f => [byteZeroOf f 0x4#4]
  | .opReservedData5 f => [byteZeroOf f 0x5#4]
  | .opReservedData6 f => [byteZeroOf f 0x6#4]
  | .opReservedData7 f => [byteZeroOf f 0x7#4]
  | .opClose f => [byteZeroOf f 0x8#4]
  | .opPing f => [byteZeroOf f 0x9#4]
  | .opPong f => [byteZeroOf f 0xA#4]
  | .opReservedControlB f => [byteZeroOf f 0xB#4]
  | .opReservedControlC f => [byteZeroOf f 0xC#4]
  | .opReservedControlD f => [byteZeroOf f 0xD#4]
  | .opReservedControlE f => [byteZeroOf f 0xE#4]
  | .opReservedControlF f => [byteZeroOf f 0xF#4]

/-- The `nbytes` bytes of a word numbered as spec/opcode_table.json numbers it: bit 0 is the least significant bit,
byte 0 of the word is its most significant byte (the table: "byte 0 is bits 15:8"; the 72-bit command is
`e_type e_len e_key`, most significant first). -/
def tableBytes : (nbytes w : Nat) → List Byte
  | 0, _ => []
  | m + 1, w => BitVec.ofNat 8 (w / 2 ^ (8 * m)) :: tableBytes m w

/-- The command a 72-bit table word holds. -/
def tableCommand (w : Nat) : Command :=
  ⟨BitVec.ofNat 8 (w / 2 ^ 64), BitVec.ofNat 32 (w / 2 ^ 32), BitVec.ofNat 32 w⟩

/-- The slot a table word goes to: by its width, and for a 72-bit word the driver's where it is a builder's call
(notes/assumptions/12.md). -/
def tableSlot (nbits w : Nat) : Option Slot :=
  match nbits with
  | 0 => some .rest
  | 8 => some .byteZero
  | 16 => some .header
  | 72 =>
    match builderInstr (tableCommand w) with
    | .ok _ => some .call
    | .error _ => some .command
  | _ => none

/-- The instruction the decoder reads from a table word. -/
def decodeTableWord (nbits w : Nat) : Option Instr :=
  match tableSlot nbits w with
  | none => none
  | some slot => (decodeWord slot (tableBytes (nbits / 8) w)).toOption

end Sys2Proof
end

