-- ==== Sys2Proof/Machine/State.lean ====
section
/-! DEFINITION. The state of the block (the registers of its two units) and, beside it, its environment: the channels at
the ports, the traces, the driver in front of ENC, and the session script that says which agent moves next. -/

namespace Sys2Proof.Machine

/-- `DEC.phase` (R28). -/
inductive DecPhase where
  /-- D_B0: idle, awaiting header byte 0 of a new call. -/
  | b0
  /-- D_B1: awaiting header byte 1. -/
  | b1
  /-- D_EXT: awaiting an extended-length byte. -/
  | ext
  /-- D_KEY: awaiting a masking-key byte. -/
  | key
  /-- D_PAY: awaiting a payload byte. -/
  | pay
  deriving DecidableEq, Repr

/-- The registers of DEC (R28 to R34). -/
structure DecRegs where
  phase : DecPhase
  idx : BitVec 3
  fin : Bool
  rsv1 : Bool
  rsv2 : Bool
  rsv3 : Bool
  opcode : BitVec 4
  masked : Bool
  len7 : BitVec 7
  len : BitVec 53
  key : Key
  cnt : BitVec 53
  deriving DecidableEq, Repr

/-- `ENC.phase` (R38). -/
inductive EncPhase where
  /-- E_IDLE: awaiting a command. -/
  | idle
  /-- E_HDR: emitting header bytes. -/
  | hdr
  /-- E_PAY: consuming payload bytes and emitting masked bytes. -/
  | pay
  deriving DecidableEq, Repr

/-- The registers of ENC (R38). -/
structure EncRegs where
  phase : EncPhase
  typ : Byte
  n : BitVec 32
  key : Key
  hidx : BitVec 4
  cnt : BitVec 32
  deriving DecidableEq, Repr

/-- `d_status` (R240): three values and no fourth. -/
inductive Status where
  | ok
  | tooBig
  | short
  deriving DecidableEq, Repr

/-- The record on `d_hdr` (R12, R41). -/
structure Hdr where
  fin : Bool
  rsv1 : Bool
  rsv2 : Bool
  rsv3 : Bool
  opcode : BitVec 4
  masked : Bool
  len : BitVec 53
  deriving DecidableEq, Repr

/-- An event DEC emits (R12). -/
inductive DecEvent where
  /-- On `d_hdr`. -/
  | hdr (h : Hdr)
  /-- On `d_out`. -/
  | pay (data : Byte) (last : Bool)
  /-- On `d_done`. -/
  | done (status : Status) (closeCode : BitVec 16) (remPresent : Bool)
  deriving DecidableEq, Repr

/-- The event ENC emits, on `e_out` (R12). -/
structure OutEvent where
  data : Byte
  last : Bool
  deriving DecidableEq, Repr

/-- What one DEC step makes of DEC: the new registers and the events it emits, in order (R163). -/
structure DecResult where
  regs : DecRegs
  events : List DecEvent
  deriving DecidableEq, Repr

/-- What one emitting ENC step makes of ENC: the new registers and its `Out` event (R203). -/
structure EncResult where
  regs : EncRegs
  event : OutEvent
  deriving DecidableEq, Repr

/-- What became of a builder call (R220, R244). -/
inductive CallResult where
  | issued
  | refused
  deriving DecidableEq, Repr

/-- The operands of one ENCODE, as a builder's expansion gives them (R220). -/
structure EncodeArgs where
  typ : Byte
  payload : List Byte
  key : BitVec 32
  deriving DecidableEq, Repr

/-- The agents that run instructions: the two units and the driver in front of ENC (R10, R220). -/
inductive Agent where
  | dec
  | enc
  | drv
  deriving DecidableEq, Repr

/-- The channels whose producer may have to realign its stream (R281, R294): the three inputs of the block, and the
calls given to the driver. -/
inductive Inlet where
  | dIn
  | eCmd
  | eIn
  | calls
  deriving DecidableEq, Repr

/-- For each channel: the producer may withdraw what it has offered. Otherwise an offered item is held until its
transfer (R66, R286). -/
structure Withdrawals where
  dIn : Bool
  eCmd : Bool
  eIn : Bool
  calls : Bool
  deriving DecidableEq, Repr

/-- One item of a session script: the turn of an agent, or a move of the environment (host table, R294). -/
inductive Move where
  /-- The agent takes its step, if it has one. -/
  | turn (a : Agent)
  /-- The producer offers a byte on `d_in`. -/
  | offerByte (b : Beat)
  /-- The producer offers a command on `e_cmd`, with its key. -/
  | offerCommand (c : Command)
  /-- The producer offers a payload byte on `e_in`. -/
  | offerPayload (p : Byte)
  /-- A builder call is given to the driver, with its operand bytes (R220). -/
  | call (c : Command) (operands : List Byte)
  /-- The producer withdraws what is still offered, where it may: to realign its stream after a reset, or on `d_in`
  after TOO_BIG (R281, R288, R294; notes/assumptions/17.md). -/
  | withdraw (ch : Inlet)
  /-- The consumer sets `d_out_ready`. -/
  | dReady (v : Bool)
  /-- The consumer sets `e_out_ready`. -/
  | eReady (v : Bool)
  /-- The host asserts `rst` for one edge (R280). -/
  | rst
  deriving DecidableEq, Repr

/-- The state of the block: the registers of its two units and nothing else (R28 to R34, R38). No input, no key before
its command is accepted and no record of an earlier call is here (R46). -/
structure Block where
  /-- The registers of DEC. -/
  dec : DecRegs
  /-- The registers of ENC. -/
  enc : EncRegs
  deriving DecidableEq, Repr

/-- The environment of the block: what it offers, what it has observed, and what it does next. It is the source of the
inputs of `Block.step` (R46; notes/assumptions/3.md). -/
structure Environment where
  /-- Offered on `d_in`, not yet taken, oldest first (R69, R73). -/
  dIn : List Beat
  /-- Offered on `e_cmd`, not yet taken, oldest first. -/
  eCmd : List Command
  /-- Offered on `e_in`, not yet taken, oldest first. -/
  eIn : List Byte
  /-- Input port `d_out_ready`. -/
  dOutReady : Bool
  /-- Input port `e_out_ready`. -/
  eOutReady : Bool
  /-- The events of DEC, oldest first, one trace for its three channels (R74). -/
  dTrace : List DecEvent
  /-- The events of ENC, oldest first. -/
  eTrace : List OutEvent
  /-- Builder calls not yet performed, oldest first. -/
  calls : List Command
  /-- The operand bytes of those calls, in order. -/
  args : List Byte
  /-- What became of the calls performed, oldest first. -/
  callLog : List CallResult
  /-- Which producers may withdraw what they have offered. -/
  mayWithdraw : Withdrawals
  /-- The moves still to come. -/
  script : List Move
  /-- How many reset events have happened: the draw of the values they leave unspecified. -/
  resets : Nat
  deriving DecidableEq, Repr

/-- What the host's step runs on: the block and its environment. The host's step takes no argument, so the inputs of a
step come from the environment beside the block. -/
structure State extends Block, Environment
  deriving DecidableEq, Repr

/-- What makes the machine stop. No `ProtocolError` is one: the error outcomes of the spec are events (R240). -/
inductive Fault where
  /-- DECODE in D_KEY with `idx` above 3: there is no such key register (R33). Raised in no state a run reaches. Safe. -/
  | keyRegisterAbsent
  /-- ENCODE in E_HDR with `hidx` past the header: there is no such header byte (R205). Raised in no state a run
  reaches. Safe. -/
  | headerByteAbsent
  deriving DecidableEq, Repr

/-- What the machine gives no meaning. -/
inductive Refusal where
  /-- An instruction without a meaning yet, by its mnemonic. Raised by exec only. Safe. -/
  | notModelled (mnemonic : String)
  /-- A word that is no instruction of the slot it was fetched from. Raised by step. Safe. -/
  | undecodable (why : Reject)
  deriving DecidableEq, Repr

/-- What the script, or the default order when it is empty, makes the next step. -/
inductive Selection where
  /-- The agent has a step: run its instruction. -/
  | run (i : Instr)
  /-- It is the agent's turn and it has no step. -/
  | wait (a : Agent)
  /-- A move of the environment. -/
  | env (m : Move)
  /-- A word was fetched that is no instruction. -/
  | reject (why : Reject)
  /-- No agent has a step. -/
  | idle
  deriving DecidableEq, Repr

/-- DEC right after reset: D_B0 (R43). The datapath registers are unspecified; zero is a DESIGN CHOICE, unsafe
(notes/assumptions/6.md). -/
def DecRegs.reset : DecRegs :=
  { phase := .b0, idx := 0, fin := false, rsv1 := false, rsv2 := false, rsv3 := false, opcode := 0, masked := false,
    len7 := 0, len := 0, key := ⟨0, 0, 0, 0⟩, cnt := 0 }

/-- ENC right after reset: E_IDLE (R43). The other registers are unspecified; zero is a DESIGN CHOICE, unsafe
(notes/assumptions/6.md). -/
def EncRegs.reset : EncRegs :=
  { phase := .idle, typ := 0, n := 0, key := ⟨0, 0, 0, 0⟩, hidx := 0, cnt := 0 }

/-- The machine right after reset (R43): both units idle, no event presented, nothing offered. Both consumers ready is
a DESIGN CHOICE (notes/assumptions/8.md); so is that every producer may still realign (notes/assumptions/17.md). -/
def State.reset : State :=
  { dec := DecRegs.reset, enc := EncRegs.reset, dIn := [], eCmd := [], eIn := [], dOutReady := true, eOutReady := true,
    dTrace := [], eTrace := [], calls := [], args := [], callLog := [], mayWithdraw := ⟨true, true, true, true⟩,
    script := [], resets := 0 }

end Sys2Proof.Machine
end

