-- ==== Sys2Proof/Machine/Operands.lean ====
section
/-! DEFINITION. The operand forms: keys and their lanes, the header's length fields in both directions, the masking
transform, the positions in a frame. -/

namespace Sys2Proof.Machine

/-- The four key bytes of `e_key`, the first wire byte its most significant byte (R42, R63). -/
def keyOfWord (k : BitVec 32) : Key :=
  ⟨k.extractLsb' 24 8, k.extractLsb' 16 8, k.extractLsb' 8 8, k.extractLsb' 0 8⟩

/-- The `e_key` that carries a key (R42). -/
def wordOfKey (k : Key) : BitVec 32 := ofBe32 k.k0 k.k1 k.k2 k.k3

/-- The key bytes in wire order (R24). -/
def keyBytesOf (k : Key) : List Byte := [k.k0, k.k1, k.k2, k.k3]

/-- `K[i mod 4]`, the key lane of payload byte `i` (R98). -/
def keyLane (k : Key) (i : Nat) : Byte :=
  match i % 4 with
  | 0 => k.k0
  | 1 => k.k1
  | 2 => k.k2
  | _ => k.k3

/-- `key[idx] <- b` (R167). There are four key registers; an `idx` above 3 names none. -/
def keySet (k : Key) (idx : Nat) (b : Byte) : Key :=
  match idx with
  | 0 => { k with k0 := b }
  | 1 => { k with k1 := b }
  | 2 => { k with k2 := b }
  | 3 => { k with k3 := b }
  | _ => k

/-- The masking transform from payload index `i` on (R98). -/
def maskFrom (k : Key) : Nat → List Byte → List Byte
  | _, [] => []
  | i, x :: xs => (x ^^^ keyLane k i) :: maskFrom k (i + 1) xs

/-- `MaskXor(X, K)` (R98). -/
def maskXor (x : List Byte) (k : Key) : List Byte := maskFrom k 0 x

/-- `E`, the number of extended-length bytes `len7` announces (R97); `ext(len7)` of R35. -/
def extCount (len7 : BitVec 7) : Nat :=
  if len7.toNat ≤ Config.len7InlineMax then 0 else if len7 = Config.len7Ext16 then 2 else 8

/-- `E` as a DEC step in D_EXT takes it: 2 if `len7 = 126`, else 8 (R166). -/
def extTotal (len7 : BitVec 7) : Nat := if len7 = Config.len7Ext16 then 2 else 8

/-- `hlen = 2 + E + 4 * masked` (R97). -/
def frameHeaderLength (masked : Bool) (len7 : BitVec 7) : Nat :=
  2 + extCount len7 + (if masked then Config.keyBytes else 0)

/-- The `len7` ENC writes for a payload of `n` bytes (R102, R191). -/
def lengthField (n : BitVec 32) : BitVec 7 :=
  if n.toNat ≤ Config.len7InlineMax then n.setWidth 7
  else if n.toNat ≤ Config.encExt16Max then Config.len7Ext16
  else Config.len7Ext64

/-- The extension bytes ENC writes for a payload of `n` bytes (R102, R191). -/
def lengthExtension (n : BitVec 32) : List Byte :=
  if n.toNat ≤ Config.len7InlineMax then []
  else if n.toNat ≤ Config.encExt16Max then encBe16 (n.setWidth 16)
  else [0#8, 0#8, 0#8, 0#8] ++ encBe32 n

/-- The header `Hd` of an encoded frame (R103, R203). -/
def encodedHeader (t : Byte) (n : BitVec 32) (k : Key) : List Byte :=
  [t, 0x80#8 ||| (lengthField n).setWidth 8] ++ lengthExtension n ++ keyBytesOf k

/-- `hlen(n)`: 6, 8 or 14 (R192). -/
def encodedHeaderLength (n : BitVec 32) : Nat := 2 + (lengthExtension n).length + Config.keyBytes

/-- `DEC.pos`, the number of buffer bytes consumed so far in the call (R35). -/
def decPos (r : DecRegs) : Nat :=
  match r.phase with
  | .b0 => 0
  | .b1 => 1
  | .ext => 2 + r.idx.toNat
  | .key => 2 + extCount r.len7 + r.idx.toNat
  | .pay => frameHeaderLength r.masked r.len7 + r.cnt.toNat

/-- `ENC.pos`: `hidx` in E_HDR, `hlen(n) + cnt` in E_PAY (R38); 0 while no call is in progress. -/
def encPos (r : EncRegs) : Nat :=
  match r.phase with
  | .idle => 0
  | .hdr => r.hidx.toNat
  | .pay => encodedHeaderLength r.n + r.cnt.toNat

/-- The fields of header byte 0 as DEC holds them. -/
def decFlags (r : DecRegs) : HeadFlags := ⟨r.fin, r.rsv1, r.rsv2, r.rsv3⟩

end Sys2Proof.Machine
end

