-- ==== Sys2Proof/Machine/Flags.lean ====
section
/-! DEFINITION. The one-bit status values, produced fresh per call (R44), the close code of a status, and the class
predicates of an opcode. -/

namespace Sys2Proof.Machine

/-- `code(S)` (R240): 0 for OK, 1009 for TOO_BIG, 1002 for SHORT. -/
def closeCode : Status → BitVec 16
  | .ok => 0#16
  | .tooBig => Config.closeTooBig
  | .short => Config.closeProtocolError

/-- The 2-bit value of `d_status` (R240). -/
def statusBits : Status → BitVec 2
  | .ok => 0#2
  | .tooBig => 1#2
  | .short => 2#2

/-- The message string of an error (R245, U16). Nothing reads it: notes/assumptions/20.md. -/
def statusMessage : Status → Option String
  | .ok => none
  | .tooBig => some "payload length exceeds supported range"
  | .short => some "protocol error"

/-- `Done.rem_present` (R157, part 2 of 41_decoder.md): `not last` for OK, 0 otherwise. -/
def remPresent (st : Status) (last : Bool) : Bool :=
  match st with
  | .ok => !last
  | .tooBig => false
  | .short => false

/-- `Pay.last` (R169): the step consumes payload byte `L - 1`. -/
def payLast (r : DecRegs) : Bool := r.cnt + 1#53 == r.len

/-- `fin_hdr` (R205): the step emits the last header byte. -/
def headerLast (r : EncRegs) : Bool := r.hidx.toNat + 1 == encodedHeaderLength r.n

/-- `done` of an E_PAY step (R206): it consumes payload byte `n - 1`. -/
def encPayLast (r : EncRegs) : Bool := r.cnt + 1#32 == r.n

/-- The event goes to `d_hdr` (R12). -/
def isHdr : DecEvent → Bool
  | .hdr _ => true
  | .pay _ _ => false
  | .done _ _ _ => false

/-- The event goes to `d_out` (R12). -/
def isPay : DecEvent → Bool
  | .hdr _ => false
  | .pay _ _ => true
  | .done _ _ _ => false

/-- The event goes to `d_done` (R12): it ends a call. -/
def isDone : DecEvent → Bool
  | .hdr _ => false
  | .pay _ _ => false
  | .done _ _ _ => true

/-- `isControl` (R139): `opcode[3]`. The block evaluates it nowhere. -/
def isControl (op : BitVec 4) : Bool := op.getLsbD 3

/-- `isReserved` (R139). The block evaluates it nowhere. -/
def isReserved (op : BitVec 4) : Bool :=
  (3 ≤ op.toNat && op.toNat ≤ 7) || 11 ≤ op.toNat

end Sys2Proof.Machine
end

