-- ==== Sys2Proof/Machine/Ops.lean ====
section
/-! DEFINITION. The named operations: ending a DECODE call (the block's taking of an exception), the register steps of
DEC and ENC, and their commitment to the state. -/

namespace Sys2Proof.Machine

/-- "End the call with S" (part 2 of 41_decoder.md; R248 for the two errors): emit `Done`, go to D_B0, save nothing.
There is no return from it (R251): the next byte DEC consumes is byte 0 of a new call. -/
def endCall (r : DecRegs) (st : Status) (last : Bool) (before : List DecEvent) : DecResult :=
  { regs := { r with phase := .b0 }, events := before ++ [.done st (closeCode st) (remPresent st last)] }

/-- The `Hdr` event of the registers (R168). -/
def hdrOf (r : DecRegs) : Hdr :=
  { fin := r.fin, rsv1 := r.rsv1, rsv2 := r.rsv2, rsv3 := r.rsv3, opcode := r.opcode, masked := r.masked, len := r.len }

/-- The header-complete procedure (R168). -/
def headerComplete (r : DecRegs) (last : Bool) : DecResult :=
  if r.len = 0#53 then endCall r .ok last [.hdr (hdrOf r)]
  else if last then endCall r .short last [.hdr (hdrOf r)]
  else { regs := { r with cnt := 0#53, phase := .pay }, events := [.hdr (hdrOf r)] }

/-- The length is complete: on to the key if the frame is masked, else the header is complete (R165, R166). -/
def lengthComplete (r : DecRegs) (last : Bool) : DecResult :=
  if r.masked then
    if last then endCall r .short last [] else { regs := { r with idx := 0#3, phase := .key }, events := [] }
  else headerComplete r last

/-- Latch the fields of header byte 0 (R164). -/
def latchByteZero (r : DecRegs) (f : HeadFlags) (op : BitVec 4) : DecRegs :=
  { r with fin := f.fin, rsv1 := f.rsv1, rsv2 := f.rsv2, rsv3 := f.rsv3, opcode := op }

/-- The step in D_B0 (R164). -/
def byteZeroStep (r : DecRegs) (f : HeadFlags) (op : BitVec 4) (last : Bool) : DecResult :=
  if last then endCall (latchByteZero r f op) .short last []
  else { regs := { latchByteZero r f op with phase := .b1 }, events := [] }

/-- The step in D_B1 (R165). -/
def byteOneStep (r : DecRegs) (masked : Bool) (len7 : BitVec 7) (last : Bool) : DecResult :=
  if len7.toNat ≤ Config.len7InlineMax then
    lengthComplete { r with masked := masked, len7 := len7, len := len7.setWidth 53 } last
  else if last then endCall { r with masked := masked, len7 := len7, len := 0#53, idx := 0#3 } .short last []
  else { regs := { r with masked := masked, len7 := len7, len := 0#53, idx := 0#3, phase := .ext }, events := [] }

/-- `newlen = DEC.len * 256 + b`, 53 bits (R166). -/
def shiftInLength (len : BitVec 53) (b : Byte) : BitVec 53 := len * 256#53 + b.setWidth 53

/-- The step in D_EXT (R166); the oversize guard of R154 is its first test. -/
def extStep (r : DecRegs) (b : Byte) (last : Bool) : DecResult :=
  if r.len7 = Config.len7Ext64 ∧ r.idx = 3#3 ∧ Config.high32Max < (shiftInLength r.len b).toNat then
    endCall { r with len := shiftInLength r.len b } .tooBig last []
  else if r.idx.toNat + 1 = extTotal r.len7 then lengthComplete { r with len := shiftInLength r.len b } last
  else if last then endCall { r with len := shiftInLength r.len b } .short last []
  else { regs := { r with len := shiftInLength r.len b, idx := r.idx + 1#3 }, events := [] }

/-- The step in D_KEY (R167). -/
def keyStep (r : DecRegs) (b : Byte) (last : Bool) : DecResult :=
  if r.idx = 3#3 then headerComplete { r with key := keySet r.key r.idx.toNat b } last
  else if last then endCall { r with key := keySet r.key r.idx.toNat b } .short last []
  else { regs := { r with key := keySet r.key r.idx.toNat b, idx := r.idx + 1#3 }, events := [] }

/-- The XOR operand of a D_PAY step: the key lane of `cnt[1:0]`, 0 for an unmasked frame (R169). -/
def payMask (r : DecRegs) : Byte := if r.masked then keyLane r.key (r.cnt.extractLsb' 0 2).toNat else 0x00#8

/-- The step in D_PAY (R169). -/
def payStep (r : DecRegs) (b : Byte) (last : Bool) : DecResult :=
  if payLast r then endCall r .ok last [.pay (b ^^^ payMask r) true]
  else if last then endCall r .short last [.pay (b ^^^ payMask r) false]
  else { regs := { r with cnt := r.cnt + 1#53 }, events := [.pay (b ^^^ payMask r) false] }

/-- A DEC step on one transfer: which rule applies is decided by `DEC.phase` alone (R163). -/
def decStep (r : DecRegs) (b : Beat) : DecResult :=
  match r.phase with
  | .b0 => byteZeroStep r (flagsOf b.data) (opcodeOf b.data) b.last
  | .b1 => byteOneStep r (maskedOf b.data) (len7Of b.data) b.last
  | .ext => extStep r b.data b.last
  | .key => keyStep r b.data b.last
  | .pay => payStep r b.data b.last

/-- The step in E_IDLE: a command is accepted (R204). -/
def acceptCommand (r : EncRegs) (t : Byte) (n k : BitVec 32) : EncRegs :=
  { r with typ := t, n := n, key := keyOfWord k, hidx := 0#4, phase := .hdr }

/-- The step in E_HDR (R205); none where `hidx` is past the header. -/
def headerStep (r : EncRegs) : Option EncResult :=
  match (encodedHeader r.typ r.n r.key)[r.hidx.toNat]? with
  | none => none
  | some b =>
    if headerLast r then
      if r.n = 0#32 then some { regs := { r with phase := .idle }, event := ⟨b, true⟩ }
      else some { regs := { r with cnt := 0#32, phase := .pay }, event := ⟨b, false⟩ }
    else some { regs := { r with hidx := r.hidx + 1#4 }, event := ⟨b, false⟩ }

/-- The step in E_PAY (R206). -/
def encPayStep (r : EncRegs) (p : Byte) : EncResult :=
  if encPayLast r then
    { regs := { r with phase := .idle }, event := ⟨p ^^^ keyLane r.key (r.cnt.extractLsb' 0 2).toNat, true⟩ }
  else
    { regs := { r with cnt := r.cnt + 1#32 }, event := ⟨p ^^^ keyLane r.key (r.cnt.extractLsb' 0 2).toNat, false⟩ }

/-- A script after the turn of an agent: its move leaves the head, where it stands there. -/
def dropTurn (a : Agent) : List Move → List Move
  | [] => []
  | m :: rest => if m = .turn a then rest else m :: rest

/-- The agent has had its turn. -/
def State.endTurn (s : State) (a : Agent) : State := { s with script := dropTurn a s.script }

/-- The events hold a `Done TOO_BIG`: the producer must discard the rest of its buffer (R288). -/
def endsTooBig (events : List DecEvent) : Bool :=
  events.any fun e => match e with
    | .hdr _ => false
    | .pay _ _ => false
    | .done st _ _ => st == .tooBig

/-- DEC takes the oldest transfer of `d_in` and makes of it what `f` says; with none offered it waits (R67). After
TOO_BIG, and not after another step, the rest of the buffer may be withdrawn (R288). -/
def takeBeat (s : State) (f : DecRegs → Beat → DecResult) : Host.Outcome State Fault Refusal :=
  match s.dIn with
  | [] => .next (s.endTurn .dec)
  | b :: rest =>
    .next { s.endTurn .dec with
      dIn := rest, dec := (f s.dec b).regs, dTrace := s.dTrace ++ (f s.dec b).events
      mayWithdraw := { s.mayWithdraw with dIn := endsTooBig (f s.dec b).events } }

/-- Install the result of an emitting ENC step. -/
def State.emitOut (s : State) (o : EncResult) : State :=
  { s with enc := o.regs, eTrace := s.eTrace ++ [o.event] }

/-- The driver performs the call at the head of `calls`: it takes the call's `n` operand bytes, and offers the command
and the payload of its expansion on `e_cmd` and `e_in`, or refuses the call and offers nothing (R220, R225, R244). It
waits until all operand bytes are there (notes/assumptions/11.md). -/
def performCall (s : State) (n : BitVec 32) (expand : List Byte → Option EncodeArgs) :
    Host.Outcome State Fault Refusal :=
  if s.args.length < n.toNat then .next (s.endTurn .drv)
  else
    match expand (s.args.take n.toNat) with
    | some a =>
      .next { s.endTurn .drv with
        calls := s.calls.tail, args := s.args.drop n.toNat,
        eCmd := s.eCmd ++ [⟨a.typ, BitVec.ofNat 32 a.payload.length, a.key⟩], eIn := s.eIn ++ a.payload,
        callLog := s.callLog ++ [.issued]
        mayWithdraw := { s.mayWithdraw with eCmd := false, eIn := false, calls := false } }
    | none =>
      .next { s.endTurn .drv with
        calls := s.calls.tail, args := s.args.drop n.toNat, callLog := s.callLog ++ [.refused]
        mayWithdraw := { s.mayWithdraw with calls := false } }

/-- DEC after a reset event: D_B0, every other register unspecified (R43, R280; notes/assumptions/7.md). -/
def decAfterReset (draw : Nat) : DecRegs :=
  { phase := .b0
    idx := (Config.unspecified 0 draw).setWidth 3
    fin := (Config.unspecified 1 draw).getLsbD 0
    rsv1 := (Config.unspecified 2 draw).getLsbD 0
    rsv2 := (Config.unspecified 3 draw).getLsbD 0
    rsv3 := (Config.unspecified 4 draw).getLsbD 0
    opcode := (Config.unspecified 5 draw).setWidth 4
    masked := (Config.unspecified 6 draw).getLsbD 0
    len7 := (Config.unspecified 7 draw).setWidth 7
    len := Config.unspecified 8 draw
    key := keyOfWord ((Config.unspecified 9 draw).setWidth 32)
    cnt := Config.unspecified 10 draw }

/-- ENC after a reset event: E_IDLE, every other register unspecified (R43, R280; notes/assumptions/7.md). -/
def encAfterReset (draw : Nat) : EncRegs :=
  { phase := .idle
    typ := (Config.unspecified 11 draw).setWidth 8
    n := (Config.unspecified 12 draw).setWidth 32
    key := keyOfWord ((Config.unspecified 13 draw).setWidth 32)
    hidx := (Config.unspecified 14 draw).setWidth 4
    cnt := (Config.unspecified 15 draw).setWidth 32 }

/-- The reset event (R280, R281): both units at once; the traces and what is offered stand, and every producer may
realign its stream (R294). -/
def State.resetEvent (s : State) : State :=
  { s with
    dec := decAfterReset s.resets, enc := encAfterReset s.resets, resets := s.resets + 1
    mayWithdraw := ⟨true, true, true, true⟩ }

/-- A producer withdraws what it still offers, where it may; elsewhere the model has no such move and an offered item
stays as it is (R66, R286, R294; notes/assumptions/17.md). -/
def State.withdraw (s : State) : Inlet → State
  | .dIn => if s.mayWithdraw.dIn then { s with dIn := [] } else s
  | .eCmd => if s.mayWithdraw.eCmd then { s with eCmd := [] } else s
  | .eIn => if s.mayWithdraw.eIn then { s with eIn := [] } else s
  | .calls => if s.mayWithdraw.calls then { s with calls := [], args := [] } else s

/-- A move of the environment (host table, R294). An offer goes behind what is offered already (R73), and from then on
the channel's items are held until their transfer. The turn of an agent is none and changes nothing here. -/
def environmentMove (s : State) : Move → State
  | .turn _ => s
  | .offerByte b => { s with dIn := s.dIn ++ [b], mayWithdraw := { s.mayWithdraw with dIn := false } }
  | .offerCommand c => { s with eCmd := s.eCmd ++ [c], mayWithdraw := { s.mayWithdraw with eCmd := false } }
  | .offerPayload p => { s with eIn := s.eIn ++ [p], mayWithdraw := { s.mayWithdraw with eIn := false } }
  | .call c operands =>
    { s with
      calls := s.calls ++ [c], args := s.args ++ operands, mayWithdraw := { s.mayWithdraw with calls := false } }
  | .withdraw ch => s.withdraw ch
  | .dReady v => { s with dOutReady := v }
  | .eReady v => { s with eOutReady := v }
  | .rst => s.resetEvent

end Sys2Proof.Machine
end

