-- ==== Sys2Proof/Machine/Transaction.lean ====
section
/-! DEFINITION. The transaction level (R8): `Decode` and `Encode` as pure functions, and the builders as functions that
return the operands of one ENCODE. Where the two levels could be read to differ, this one wins. -/

namespace Sys2Proof.Machine

/-- A Frame (R21): `absent` is `none`. -/
structure Frame where
  fin : Bool
  rsv1 : Bool
  rsv2 : Bool
  rsv3 : Bool
  opcode : BitVec 4
  masked : Bool
  payload : Option (List Byte)
  remaining : Option (List Byte)
  deriving DecidableEq, Repr

/-- A DecodeResult (R27). -/
inductive DecodeOutcome where
  | ok (f : Frame)
  | tooBig
  | short
  deriving DecidableEq, Repr

/-- A frame header read whole: the fields of bytes 0 and 1, the declared length, the key if there is one, and the
header's length (R90 to R97). -/
structure HeaderInfo where
  flags : HeadFlags
  opcode : BitVec 4
  masked : Bool
  key : Key
  hlen : Nat
  len : Nat
  deriving DecidableEq, Repr

/-- What steps 1 to 4 of DECODE (R151 to R155) make of a buffer. -/
inductive HeaderOutcome where
  | found (h : HeaderInfo)
  | tooBig
  | short
  deriving DecidableEq, Repr

/-- `opt(S)` (R15): `absent` for the empty sequence. -/
def optBytes (x : List Byte) : Option (List Byte) := if x = [] then none else some x

/-- `bytes(S)` (R15). -/
def bytesOf (x : Option (List Byte)) : List Byte := x.getD []

/-- `MemRead(off, n)`: the big-endian value of `n` bytes of the buffer (R17). -/
def memRead (B : List Byte) (off n : Nat) : Nat :=
  ((B.drop off).take n).foldl (fun v b => v * 256 + b.toNat) 0

/-- The byte of the buffer at an offset; it is used at offsets the buffer has. -/
def byteAt (B : List Byte) (i : Nat) : Byte := B.getD i 0#8

/-- Step 4: the masking key (R155). Without the mask flag there is none and the key given is not used. -/
def readKey (B : List Byte) (off len : Nat) : HeaderOutcome :=
  if maskedOf (byteAt B 1) then
    if B.length < off + 4 then .short
    else
      .found ⟨flagsOf (byteAt B 0), opcodeOf (byteAt B 0), true,
        ⟨byteAt B off, byteAt B (off + 1), byteAt B (off + 2), byteAt B (off + 3)⟩, off + 4, len⟩
  else .found ⟨flagsOf (byteAt B 0), opcodeOf (byteAt B 0), false, ⟨0, 0, 0, 0⟩, off, len⟩

/-- Steps 1 to 4 of DECODE (R151 to R155), in the order of R158. -/
def readHeader (B : List Byte) : HeaderOutcome :=
  if B.length < 2 then .short
  else if (len7Of (byteAt B 1)).toNat ≤ Config.len7InlineMax then readKey B 2 (len7Of (byteAt B 1)).toNat
  else if len7Of (byteAt B 1) = Config.len7Ext16 then
    if B.length < 4 then .short else readKey B 4 (memRead B 2 2)
  else if B.length < 6 then .short
  else if Config.high32Max < memRead B 2 4 then .tooBig
  else if B.length < 10 then .short
  else readKey B 10 (memRead B 2 4 * 2 ^ 32 + memRead B 6 4)

/-- The payload as decoded: unmasked if the frame is masked (R99, R156). -/
def unmask (h : HeaderInfo) (wire : List Byte) : List Byte := if h.masked then maskXor wire h.key else wire

/-- `Decode(B)` (R158). -/
def decodeBuffer (B : List Byte) : DecodeOutcome :=
  match readHeader B with
  | .short => .short
  | .tooBig => .tooBig
  | .found h =>
    if B.length < h.hlen + h.len then .short
    else
      .ok { fin := h.flags.fin, rsv1 := h.flags.rsv1, rsv2 := h.flags.rsv2, rsv3 := h.flags.rsv3,
            opcode := h.opcode, masked := h.masked,
            payload := optBytes (unmask h ((B.drop h.hlen).take h.len)),
            remaining := optBytes (B.drop (h.hlen + h.len)) }

/-- `Encode(P, t, K)` (R197). A payload above `2^32 - 1` bytes has no meaning and is refused: none (R198). -/
def encodeFrame (payload : List Byte) (t : Byte) (k : Key) : Option (List Byte) :=
  if payload.length ≤ Config.encLenMax then
    some (encodedHeader t (BitVec.ofNat 32 payload.length) k ++ maskXor payload k)
  else none

/-- BUILD_MESSAGE (R221): the operands of its ENCODE. -/
def buildMessage (payload : List Byte) (isBinary : Bool) (k : BitVec 32) : EncodeArgs :=
  ⟨if isBinary then 0x82#8 else 0x81#8, payload, k⟩

/-- BUILD_PING (R222). -/
def buildPing (payload : List Byte := []) (k : BitVec 32) : EncodeArgs := ⟨0x89#8, payload, k⟩

/-- BUILD_PONG (R223). -/
def buildPong (payload : List Byte := []) (k : BitVec 32) : EncodeArgs := ⟨0x8A#8, payload, k⟩

/-- BUILD_CLOSE (R224), refused where the reason is over 123 bytes (R225). -/
def buildClose (code : BitVec 16 := Config.closeDefault) (reason : List Byte := []) (k : BitVec 32) :
    Option EncodeArgs :=
  if reason.length ≤ Config.reasonMax then some ⟨0x88#8, encBe16 code ++ reason, k⟩ else none

/-- A builder's frame: `Encode` of the operands its expansion gives (R220). -/
def encodeArgs (a : EncodeArgs) : Option (List Byte) := encodeFrame a.payload a.typ (keyOfWord a.key)

/-- A buffer as it is offered on `d_in`: the last byte marked, every other byte not (R69). -/
def offerBuffer : List Byte → List Beat
  | [] => []
  | [b] => [⟨b, true⟩]
  | b :: c :: rest => ⟨b, false⟩ :: offerBuffer (c :: rest)

/-- The `Pay` events of a sequence of decoded bytes, none of them the frame's last. -/
def openPays (x : List Byte) : List DecEvent := x.map fun b => .pay b false

/-- The `Pay` events of a whole payload: `last` on the final one (R169). -/
def closedPays : List Byte → List DecEvent
  | [] => []
  | [b] => [.pay b true]
  | b :: c :: rest => .pay b false :: closedPays (c :: rest)

/-- The `Hdr` event of a header (R168). -/
def hdrOfInfo (h : HeaderInfo) : Hdr :=
  ⟨h.flags.fin, h.flags.rsv1, h.flags.rsv2, h.flags.rsv3, h.opcode, h.masked, BitVec.ofNat 53 h.len⟩

/-- The `Out` events of a wire frame: `last` on the final one (R205, R206). -/
def outEvents : List Byte → List OutEvent
  | [] => []
  | [b] => [⟨b, true⟩]
  | b :: c :: rest => ⟨b, false⟩ :: outEvents (c :: rest)

end Sys2Proof.Machine
end

