-- ==== Sys2Proof/Machine/Builders.lean ====
section
/-! DEFINITION. The meanings of the BUILD_* rows: the driver performs the call at the head of `calls`, whose operand
bytes are the first `n` of `args` (R220). -/

namespace Sys2Proof.Machine

/-- The driver has a step: a call, and all its operand bytes (notes/assumptions/11.md). -/
def drvEnabled (s : State) : Bool :=
  match s.calls with
  | [] => false
  | c :: _ => c.len.toNat ≤ s.args.length

/-- BUILD_MESSAGE with `isBinary = false` (R221). -/
def execBuildMessageText (n k : BitVec 32) (s : State) : Host.Outcome State Fault Refusal :=
  performCall s n fun p => some (buildMessage p false k)

/-- BUILD_MESSAGE with `isBinary = true` (R221). -/
def execBuildMessageBinary (n k : BitVec 32) (s : State) : Host.Outcome State Fault Refusal :=
  performCall s n fun p => some (buildMessage p true k)

/-- BUILD_PING (R222). -/
def execBuildPing (n k : BitVec 32) (s : State) : Host.Outcome State Fault Refusal :=
  performCall s n fun p => some (buildPing p k)

/-- BUILD_PONG (R223). -/
def execBuildPong (n k : BitVec 32) (s : State) : Host.Outcome State Fault Refusal :=
  performCall s n fun p => some (buildPong p k)

/-- The expansion of BUILD_CLOSE on its operand bytes: the two code bytes, then the reason (R105, R224, R225). Fewer
than two bytes hold no code: such a call is refused too (notes/assumptions/13.md). -/
def closeOfOperands (k : BitVec 32) : List Byte → Option EncodeArgs
  | hi :: lo :: reason => buildClose (ofBe16 hi lo) reason k
  | _ => none

/-- BUILD_CLOSE (R224); with a reason over 123 bytes the call is refused and nothing is offered (R225, R244). -/
def execBuildClose (n k : BitVec 32) (s : State) : Host.Outcome State Fault Refusal :=
  performCall s n (closeOfOperands k)

end Sys2Proof.Machine
end

