-- ==== Sys2Proof/Machine/Decoder.lean ====
section
/-! DEFINITION. The meaning of DECODE: one step of the operation, on whatever phase DEC is in. -/

namespace Sys2Proof.Machine

/-- DEC has a step (R67): a byte is offered, and in D_PAY the `d_out` consumer is ready. -/
def decEnabled (s : State) : Bool := !s.dIn.isEmpty && (s.dec.phase != .pay || s.dOutReady)

/-- DECODE: one DEC step, by phase (R163 to R169). Without a step DEC waits (R67). -/
def execDecode (s : State) : Host.Outcome State Fault Refusal :=
  if decEnabled s then
    if s.dec.phase = .key ∧ 3 < s.dec.idx.toNat then .fault .keyRegisterAbsent
    else takeBeat s decStep
  else .next (s.endTurn .dec)

end Sys2Proof.Machine
end

