-- ==== Sys2Proof/Machine/Encoder.lean ====
section
/-! DEFINITION. The meaning of ENCODE: one step of the operation, on whatever phase ENC is in. -/

namespace Sys2Proof.Machine

/-- ENC has a step (R68). -/
def encEnabled (s : State) : Bool :=
  match s.enc.phase with
  | .idle => !s.eCmd.isEmpty
  | .hdr => s.eOutReady
  | .pay => !s.eIn.isEmpty && s.eOutReady

/-- ENCODE: one ENC step, by phase (R203 to R206). In E_IDLE the command is accepted and leaves `e_cmd`,
and what is offered on `e_in` is held from then on (R66); in the other
phases the step is one of the call in progress, whose operands are latched. Without a step ENC waits (R68). -/
def execEncode (t : Byte) (n k : BitVec 32) (s : State) : Host.Outcome State Fault Refusal :=
  match s.enc.phase with
  | .idle =>
    .next { s.endTurn .enc with
      eCmd := s.eCmd.tail, enc := acceptCommand s.enc t n k
      mayWithdraw := { s.mayWithdraw with eCmd := false, eIn := false } }
  | .hdr =>
    if s.eOutReady then
      match headerStep s.enc with
      | some o => .next ((s.endTurn .enc).emitOut o)
      | none => .fault .headerByteAbsent
    else .next (s.endTurn .enc)
  | .pay =>
    if s.eOutReady then
      match s.eIn with
      | [] => .next (s.endTurn .enc)
      | p :: rest =>
        .next { (s.endTurn .enc).emitOut (encPayStep s.enc p) with
          eIn := rest, mayWithdraw := { s.mayWithdraw with eIn := false } }
    else .next (s.endTurn .enc)

end Sys2Proof.Machine
end

