-- ==== Sys2Proof/Machine/Forms.lean ====
section
/-! DEFINITION. The meanings of the six header forms: byte 1 of a header whose byte 0 is the word's, the DEC step in
D_B1 (R165). -/

namespace Sys2Proof.Machine

/-- Byte 1 of a header is taken (R165). The word's byte 0 is the one DEC holds where step fetches the word, so latching
its fields changes nothing there (notes/assumptions/10.md). -/
def takeByteOne (f : HeadFlags) (op : BitVec 4) (masked : Bool) (len7 : BitVec 7) (s : State) :
    Host.Outcome State Fault Refusal :=
  takeBeat s fun r b => byteOneStep (latchByteZero r f op) masked len7 b.last

/-- H7U: unmasked, the length is `len7` (R100). -/
def execH7U (f : HeadFlags) (op : BitVec 4) (len7 : BitVec 7) (s : State) : Host.Outcome State Fault Refusal :=
  takeByteOne f op false len7 s

/-- H7M: masked, the length is `len7` (R100). -/
def execH7M (f : HeadFlags) (op : BitVec 4) (len7 : BitVec 7) (s : State) : Host.Outcome State Fault Refusal :=
  takeByteOne f op true len7 s

/-- H16U: unmasked, a 16-bit length follows (R100). -/
def execH16U (f : HeadFlags) (op : BitVec 4) (s : State) : Host.Outcome State Fault Refusal :=
  takeByteOne f op false Config.len7Ext16 s

/-- H16M: masked, a 16-bit length follows (R100). -/
def execH16M (f : HeadFlags) (op : BitVec 4) (s : State) : Host.Outcome State Fault Refusal :=
  takeByteOne f op true Config.len7Ext16 s

/-- H64U: unmasked, a 64-bit length follows (R100). -/
def execH64U (f : HeadFlags) (op : BitVec 4) (s : State) : Host.Outcome State Fault Refusal :=
  takeByteOne f op false Config.len7Ext64 s

/-- H64M: masked, a 64-bit length follows (R100). -/
def execH64M (f : HeadFlags) (op : BitVec 4) (s : State) : Host.Outcome State Fault Refusal :=
  takeByteOne f op true Config.len7Ext64 s

end Sys2Proof.Machine
end

