-- ==== Sys2Proof/Machine/Opcodes.lean ====
section
/-! DEFINITION. The meanings of the sixteen OP_* rows: header byte 0, the DEC step in D_B0 (R164). The opcode is a tag
DEC latches and reports; it changes nothing else (R130). -/

namespace Sys2Proof.Machine

/-- Header byte 0 with the given flags and opcode is taken (R164). -/
def takeByteZero (f : HeadFlags) (op : BitVec 4) (s : State) : Host.Outcome State Fault Refusal :=
  takeBeat s fun r b => byteZeroStep r f op b.last

/-- Opcode 0x0 (R131). -/
def execOpContinuation (f : HeadFlags) (s : State) : Host.Outcome State Fault Refusal := takeByteZero f 0x0#4 s

/-- Opcode 0x1 (R132). -/
def execOpText (f : HeadFlags) (s : State) : Host.Outcome State Fault Refusal := takeByteZero f 0x1#4 s

/-- Opcode 0x2 (R133). -/
def execOpBinary (f : HeadFlags) (s : State) : Host.Outcome State Fault Refusal := takeByteZero f 0x2#4 s

/-- Opcode 0x3 (R134). -/
def execOpReservedData3 (f : HeadFlags) (s : State) : Host.Outcome State Fault Refusal := takeByteZero f 0x3#4 s

/-- Opcode 0x4 (R134). -/
def execOpReservedData4 (f : HeadFlags) (s : State) : Host.Outcome State Fault Refusal := takeByteZero f 0x4#4 s

/-- Opcode 0x5 (R134). -/
def execOpReservedData5 (f : HeadFlags) (s : State) : Host.Outcome State Fault Refusal := takeByteZero f 0x5#4 s

/-- Opcode 0x6 (R134). -/
def execOpReservedData6 (f : HeadFlags) (s : State) : Host.Outcome State Fault Refusal := takeByteZero f 0x6#4 s

/-- Opcode 0x7 (R134). -/
def execOpReservedData7 (f : HeadFlags) (s : State) : Host.Outcome State Fault Refusal := takeByteZero f 0x7#4 s

/-- Opcode 0x8 (R135). -/
def execOpClose (f : HeadFlags) (s : State) : Host.Outcome State Fault Refusal := takeByteZero f 0x8#4 s

/-- Opcode 0x9 (R136). -/
def execOpPing (f : HeadFlags) (s : State) : Host.Outcome State Fault Refusal := takeByteZero f 0x9#4 s

/-- Opcode 0xA (R137). -/
def execOpPong (f : HeadFlags) (s : State) : Host.Outcome State Fault Refusal := takeByteZero f 0xA#4 s

/-- Opcode 0xB (R138). -/
def execOpReservedControlB (f : HeadFlags) (s : State) : Host.Outcome State Fault Refusal := takeByteZero f 0xB#4 s

/-- Opcode 0xC (R138). -/
def execOpReservedControlC (f : HeadFlags) (s : State) : Host.Outcome State Fault Refusal := takeByteZero f 0xC#4 s

/-- Opcode 0xD (R138). -/
def execOpReservedControlD (f : HeadFlags) (s : State) : Host.Outcome State Fault Refusal := takeByteZero f 0xD#4 s

/-- Opcode 0xE (R138). -/
def execOpReservedControlE (f : HeadFlags) (s : State) : Host.Outcome State Fault Refusal := takeByteZero f 0xE#4 s

/-- Opcode 0xF (R138). -/
def execOpReservedControlF (f : HeadFlags) (s : State) : Host.Outcome State Fault Refusal := takeByteZero f 0xF#4 s

end Sys2Proof.Machine
end

