-- ==== Sys2Proof/Machine/Dispatch.lean ====
section
/-! DEFINITION. One arm per instruction. -/

namespace Sys2Proof.Machine

def exec (i : Instr) (s : State) : Host.Outcome State Fault Refusal :=
  match i with
  | .decode => Sys2Proof.Machine.execDecode s
  | .encode t n k => Sys2Proof.Machine.execEncode t n k s
  | .buildMessageText n k => Sys2Proof.Machine.execBuildMessageText n k s
  | .buildMessageBinary n k => Sys2Proof.Machine.execBuildMessageBinary n k s
  | .buildPing n k => Sys2Proof.Machine.execBuildPing n k s
  | .buildPong n k => Sys2Proof.Machine.execBuildPong n k s
  | .buildClose n k => Sys2Proof.Machine.execBuildClose n k s
  | .h7u f op len7 => Sys2Proof.Machine.execH7U f op len7 s
  | .h7m f op len7 => Sys2Proof.Machine.execH7M f op len7 s
  | .h16u f op => Sys2Proof.Machine.execH16U f op s
  | .h16m f op => Sys2Proof.Machine.execH16M f op s
  | .h64u f op => Sys2Proof.Machine.execH64U f op s
  | .h64m f op => Sys2Proof.Machine.execH64M f op s
  | .opContinuation f => Sys2Proof.Machine.execOpContinuation f s
  | .opText f => Sys2Proof.Machine.execOpText f s
  | .opBinary f => Sys2Proof.Machine.execOpBinary f s
  | .opReservedData3 f => Sys2Proof.Machine.execOpReservedData3 f s
  | .opReservedData4 f => Sys2Proof.Machine.execOpReservedData4 f s
  | .opReservedData5 f => Sys2Proof.Machine.execOpReservedData5 f s
  | .opReservedData6 f => Sys2Proof.Machine.execOpReservedData6 f s
  | .opReservedData7 f => Sys2Proof.Machine.execOpReservedData7 f s
  | .opClose f => Sys2Proof.Machine.execOpClose f s
  | .opPing f => Sys2Proof.Machine.execOpPing f s
  | .opPong f => Sys2Proof.Machine.execOpPong f s
  | .opReservedControlB f => Sys2Proof.Machine.execOpReservedControlB f s
  | .opReservedControlC f => Sys2Proof.Machine.execOpReservedControlC f s
  | .opReservedControlD f => Sys2Proof.Machine.execOpReservedControlD f s
  | .opReservedControlE f => Sys2Proof.Machine.execOpReservedControlE f s
  | .opReservedControlF f => Sys2Proof.Machine.execOpReservedControlF f s

end Sys2Proof.Machine
end

