-- ==== Sys2Proof/Machine/Ports.lean ====
section
/-! DEFINITION. The handshake outputs as functions of the state (R41, R42, R67, R68). A data port has a value only in a
transfer (R47), and each transfer is an item of a trace (R66), so the data ports need no function. -/

namespace Sys2Proof.Machine

/-- `d_in_ready` (R67). -/
def dInReady (s : State) : Bool := s.dec.phase != .pay || s.dOutReady

/-- `e_cmd_ready` (R68). -/
def eCmdReady (s : State) : Bool := s.enc.phase == .idle

/-- `e_in_ready` (R68). -/
def eInReady (s : State) : Bool := s.enc.phase == .pay && s.eOutReady

/-- The events the DEC step enabled in this state presents. -/
def presented (s : State) : List DecEvent :=
  match s.dIn with
  | [] => []
  | b :: _ => if decEnabled s then (decStep s.dec b).events else []

/-- `d_hdr_valid`: a `Hdr` event is presented. -/
def dHdrValid (s : State) : Bool := (presented s).any isHdr

/-- `d_done_valid`: a `Done` event is presented. Right after a reset event that finds a byte marked last still offered
on `d_in` it is 1 at once, where the table of R43 has 0 and R66 with R163 has the enabled step's `Done` presented:
DESIGN CHOICE, unsafe (notes/assumptions/22.md). -/
def dDoneValid (s : State) : Bool := (presented s).any isDone

/-- `d_out_valid`: a `Pay` event is presented; it is held until `d_out` is ready (R66). -/
def dOutValid (s : State) : Bool := s.dec.phase == .pay && !s.dIn.isEmpty

/-- `e_out_valid`: an `Out` event is presented; it is held until `e_out` is ready (R66). -/
def eOutValid (s : State) : Bool := s.enc.phase == .hdr || (s.enc.phase == .pay && !s.eIn.isEmpty)

end Sys2Proof.Machine
end

