-- ==== Sys2Proof/Machine/Fetch.lean ====
section
/-! DEFINITION. Which instruction each agent fetches, which agent moves next, and where a word is placed so that it is
fetched next. -/

namespace Sys2Proof.Machine

/-- The word a turn of DEC fetches: the byte in D_B0, the header bytes 0 and 1 in D_B1 (byte 0 as it was latched), the
empty word of DECODE in the other phases. -/
def decWord (s : State) (b : Beat) : Slot × List Byte :=
  match s.dec.phase with
  | .b0 => (.byteZero, [b.data])
  | .b1 => (.header, [byteZeroOf (decFlags s.dec) s.dec.opcode, b.data])
  | .ext => (.rest, [])
  | .key => (.rest, [])
  | .pay => (.rest, [])

/-- The command ENC works on: the oldest offered in E_IDLE, the latched one in a call. -/
def currentCommand (s : State) : Command :=
  match s.enc.phase with
  | .idle => s.eCmd.headD ⟨0, 0, 0⟩
  | .hdr => ⟨s.enc.typ, s.enc.n, wordOfKey s.enc.key⟩
  | .pay => ⟨s.enc.typ, s.enc.n, wordOfKey s.enc.key⟩

/-- The word an agent fetches when it has its turn, and the slot it is a word of; none if the agent has no step. -/
def fetchedWord (s : State) : Agent → Option (Slot × List Byte)
  | .dec =>
    match s.dIn with
    | [] => none
    | b :: _ => if decEnabled s then some (decWord s b) else none
  | .enc => if encEnabled s then some (.command, commandBytes (currentCommand s)) else none
  | .drv =>
    match s.calls with
    | [] => none
    | c :: _ => if drvEnabled s then some (.call, commandBytes c) else none

/-- What the turn of an agent is. -/
def selectAgent (s : State) (a : Agent) : Selection :=
  match fetchedWord s a with
  | none => .wait a
  | some (slot, bs) =>
    match decodeWord slot bs with
    | .ok i => .run i
    | .error why => .reject why

/-- What the next step is: the head of the script; when the script is empty, the turn of the first of the driver, ENC
and DEC that has a step (notes/assumptions/4.md). -/
def select (s : State) : Selection :=
  match s.script with
  | .turn a :: _ => selectAgent s a
  | m :: _ => .env m
  | [] =>
    if drvEnabled s then selectAgent s .drv
    else if encEnabled s then selectAgent s .enc
    else if decEnabled s then selectAgent s .dec
    else .idle

/-- The script without its head. -/
def State.popMove (s : State) : State := { s with script := s.script.tail }

/-- The agent's turn stands next in the script. -/
def State.giveTurn (s : State) (a : Agent) : State := { s with script := .turn a :: s.script }

/-- A table word placed where the next step fetches it (notes/assumptions/2.md): on `d_in` with DEC in the phase that
reads it, on `e_cmd` with ENC idle, or with the driver; nothing else changes, but for the turn. A call's operand
bytes are zeros. -/
def placeWord (s : State) (nbits w : Nat) : State :=
  match tableSlot nbits w with
  | some .byteZero =>
    { s with dec := { s.dec with phase := .b0 }, dIn := ⟨BitVec.ofNat 8 w, false⟩ :: s.dIn }.giveTurn .dec
  | some .header =>
    { s with
      dec := { latchByteZero s.dec (flagsOf (BitVec.ofNat 8 (w / 2 ^ 8))) (opcodeOf (BitVec.ofNat 8 (w / 2 ^ 8))) with
        phase := .b1 }
      dIn := ⟨BitVec.ofNat 8 w, false⟩ :: s.dIn }.giveTurn .dec
  | some .rest =>
    { s with dec := { s.dec with phase := .key, idx := 0, masked := true }, dIn := ⟨0, false⟩ :: s.dIn }.giveTurn .dec
  | some .command =>
    { s with enc := { s.enc with phase := .idle }, eCmd := tableCommand w :: s.eCmd }.giveTurn .enc
  | some .call =>
    { s with
      calls := tableCommand w :: s.calls
      args := List.replicate (tableCommand w).len.toNat 0#8 ++ s.args }.giveTurn .drv
  | none => s

end Sys2Proof.Machine
end

