-- ==== Sys2Proof/Machine/Step.lean ====
section
/-! DEFINITION. One step of the machine: the instruction of the agent whose turn it is, or a move of the environment. -/

namespace Sys2Proof.Machine

/-- One step. An agent without a step waits: its turn passes and nothing else happens (notes/assumptions/5.md). -/
def step (s : State) : Host.Outcome State Fault Refusal :=
  match select s with
  | .run i => exec i s
  | .wait a => .next (s.endTurn a)
  | .env m => .next (environmentMove s.popMove m)
  | .reject why => .refused (.undecodable why)
  | .idle => .next s

/-- The state with the word of a table row stored where step fetches its next instruction. -/
def State.withFetchWord (s : State) (nbits w : Nat) : State := placeWord s nbits w

end Sys2Proof.Machine
end

