-- ==== Sys2Proof/Machine/Block.lean ====
section
/-! DEFINITION. The step relation of the block by itself: its registers and one input give its new registers and events
(R46, R77, R163, R203, R280). -/

namespace Sys2Proof.Machine

/-- What one step of the block takes from outside. -/
inductive Input where
  /-- A transfer on `d_in` (R163). -/
  | byte (b : Beat)
  /-- A command on `e_cmd`, with its key (R204). -/
  | command (c : Command)
  /-- The readiness of the `e_out` consumer alone, for a header byte (R205). -/
  | grant
  /-- A transfer on `e_in` (R206). -/
  | payload (p : Byte)
  /-- `rst`; `draw` stands for the values reset leaves unspecified (R280). -/
  | rst (draw : Nat)
  deriving DecidableEq, Repr

/-- What one step of the block makes of it. -/
structure BlockResult where
  block : Block
  decEvents : List DecEvent
  encEvents : List OutEvent
  deriving DecidableEq, Repr

/-- One step of the block on an input; none where it has no step on it. -/
def Block.step (k : Block) : Input → Option BlockResult
  | .byte b =>
    if k.dec.phase = .key ∧ 3 < k.dec.idx.toNat then none
    else some ⟨{ k with dec := (decStep k.dec b).regs }, (decStep k.dec b).events, []⟩
  | .command c =>
    match k.enc.phase with
    | .idle => some ⟨{ k with enc := acceptCommand k.enc c.typ c.len c.key }, [], []⟩
    | .hdr => none
    | .pay => none
  | .grant =>
    match k.enc.phase with
    | .idle => none
    | .hdr => (headerStep k.enc).map fun o => ⟨{ k with enc := o.regs }, [], [o.event]⟩
    | .pay => none
  | .payload p =>
    match k.enc.phase with
    | .idle => none
    | .hdr => none
    | .pay => some ⟨{ k with enc := (encPayStep k.enc p).regs }, [], [(encPayStep k.enc p).event]⟩
  | .rst draw => some ⟨⟨decAfterReset draw, encAfterReset draw⟩, [], []⟩

end Sys2Proof.Machine
end

