-- ==== Sys2Proof/Safety.lean ====
section
/-! DEFINITION. What a well-formed state is, what a trace may hold, and when a run is at its end: the terms the
statements use. -/

namespace Sys2Proof.Machine

/-- The declared length DEC holds is one its `len7` can announce (R93, R95). -/
def lengthFits (r : DecRegs) : Bool :=
  if r.len7.toNat ≤ Config.len7InlineMax then r.len.toNat == r.len7.toNat
  else if r.len7 = Config.len7Ext16 then r.len.toNat < 65536
  else true

/-- The part of an extended length DEC has shifted in: `idx` bytes of it, whose high word, if it is whole, passed the
guard (R32, R166). -/
def partialLengthFits (r : DecRegs) : Bool :=
  r.len.toNat < 256 ^ r.idx.toNat &&
    (r.idx.toNat < 4 || r.len.toNat / 256 ^ (r.idx.toNat - 4) ≤ Config.high32Max)

/-- The registers of DEC are those of a call in progress, or DEC is idle (R29, R32, R34, R37). -/
def decWellFormed (r : DecRegs) : Bool :=
  match r.phase with
  | .b0 => true
  | .b1 => true
  | .ext => Config.len7InlineMax < r.len7.toNat && r.idx.toNat < extTotal r.len7 && partialLengthFits r
  | .key => r.masked && r.idx.toNat < Config.keyBytes && lengthFits r
  | .pay => r.cnt.toNat < r.len.toNat && lengthFits r

/-- The registers of ENC are those of a call in progress, or ENC is idle (R38). -/
def encWellFormed (r : EncRegs) : Bool :=
  match r.phase with
  | .idle => true
  | .hdr => r.hidx.toNat < encodedHeaderLength r.n
  | .pay => r.cnt.toNat < r.n.toNat

/-- The state is one the units can be in. -/
abbrev State.WellFormed (s : State) : Prop := decWellFormed s.dec = true ∧ encWellFormed s.enc = true

/-- A `Done` carries the close code of its status, and `rem_present` only with OK (R240). -/
def doneRecordOk : DecEvent → Bool
  | .hdr _ => true
  | .pay _ _ => true
  | .done st code rem => code == closeCode st && (!rem || st == .ok)

/-- The order of the events of a call (R74): reading one more event of the trace of DEC, where `opened` says that the
call in progress has presented its `Hdr`. None where the event may not stand there. -/
def readEvent (opened : Bool) : DecEvent → Option Bool
  | .hdr _ => if opened then none else some true
  | .pay _ _ => if opened then some true else none
  | .done _ _ _ => some false

/-- Reading a trace of DEC from the start: none if its events are out of order, else whether a call has presented its
`Hdr` and not yet its `Done`. -/
def readTrace (tr : List DecEvent) : Option Bool := tr.foldlM readEvent false

/-- The trace is in order, and a `Hdr` stands without its `Done` exactly while DEC is in D_PAY (R74). -/
def traceInOrder (s : State) : Bool := readTrace s.dTrace == some (s.dec.phase == .pay)

/-- No call has ended in an error so far: a statement over the trace, not over a register (R252). -/
def noErrorSoFar (s : State) : Bool :=
  s.dTrace.all fun e => match e with | .done st _ _ => st == .ok | _ => true

/-- The run is quiescent (R295): both units idle and nothing offered. Every emitted event is in a trace, so it has been
accepted. A call the driver has not performed and a move not yet made are no offers. -/
def quiescent (s : State) : Bool :=
  s.dec.phase == .b0 && s.enc.phase == .idle && s.dIn.isEmpty && s.eCmd.isEmpty && s.eIn.isEmpty

/-- The next step is a reset event. -/
def resetNext (s : State) : Bool := s.script.head? == some .rst

/-- The registers of DEC read before they are written (R37): only the phase, while DEC is in D_B0. Two register files
that agree on what a later step may read. -/
def sameLiveRegs (r q : DecRegs) : Bool :=
  r.phase == q.phase &&
    match r.phase with
    | .b0 => true
    | .b1 => decFlags r == decFlags q && r.opcode == q.opcode
    | .ext =>
      decFlags r == decFlags q && r.opcode == q.opcode && r.masked == q.masked && r.len7 == q.len7 && r.idx == q.idx &&
        r.len == q.len
    | .key =>
      decFlags r == decFlags q && r.opcode == q.opcode && r.masked == q.masked && r.len7 == q.len7 && r.idx == q.idx &&
        r.len == q.len &&
        (List.range 4).all fun j => r.idx.toNat ≤ j || keyLane r.key j == keyLane q.key j
    | .pay =>
      r.masked == q.masked && r.len == q.len && r.cnt == q.cnt && (!r.masked || r.key == q.key)

/-- The registers of ENC read before they are written (R38): only the phase, while ENC is in E_IDLE. -/
def sameLiveEncRegs (r q : EncRegs) : Bool :=
  r.phase == q.phase &&
    match r.phase with
    | .idle => true
    | .hdr => r.typ == q.typ && r.n == q.n && r.key == q.key && r.hidx == q.hidx
    | .pay => r.n == q.n && r.key == q.key && r.cnt == q.cnt

/-- What a turn of ENC depends on besides its registers. -/
abbrev sameEncInputs (s u : State) : Prop :=
  s.eCmd = u.eCmd ∧ s.eIn = u.eIn ∧ s.eOutReady = u.eOutReady ∧ s.eTrace = u.eTrace

/-- The environment gives the block this input now: it offers the item, the consumer the step needs is ready, or it
asserts `rst` (R67, R68, R280). -/
def environmentGives (s : State) : Input → Prop
  | .byte b => s.dIn.head? = some b ∧ (s.dec.phase = .pay → s.dOutReady = true)
  | .command c => s.eCmd.head? = some c
  | .grant => s.eOutReady = true
  | .payload p => s.eIn.head? = some p ∧ s.eOutReady = true
  | .rst draw => resetNext s = true ∧ draw = s.resets

/-- The step from `s` to `t` is the block's own step on this input, which the environment gives: the input is
transferred, and the traces grow by its events. -/
def stepsOn (s t : State) (x : Input) : Prop :=
  environmentGives s x ∧ ∃ o, s.toBlock.step x = some o ∧ t.toBlock = o.block ∧
    t.dTrace = s.dTrace ++ o.decEvents ∧ t.eTrace = s.eTrace ++ o.encEvents

/-- What is offered changes from `old` to `new` as R66 and R73 allow: the oldest item alone leaves, transferred, or
further items (or none) are offered behind, or all is withdrawn. -/
def heldInOrder {α : Type} (transferred : α → Prop) (withdrawn : Prop) (old new : List α) : Prop :=
  (∃ x, old = x :: new ∧ transferred x) ∨ (∃ more, new = old ++ more) ∨ (withdrawn ∧ new = [])

/-- A producer of the block may withdraw only where the unit behind the channel is idle. -/
def withdrawalsIdle (s : State) : Prop :=
  (s.mayWithdraw.dIn = true → s.dec.phase = .b0) ∧
    (s.mayWithdraw.eCmd = true ∨ s.mayWithdraw.eIn = true → s.enc.phase = .idle)

/-- The trace of ENC stands between two frames: it is empty or its newest byte is the last of its frame. -/
def outTraceClosed (s : State) : Bool :=
  match s.eTrace.getLast? with
  | none => true
  | some o => o.last

/-- The trace of ENC stands between two frames exactly while ENC has emitted no byte of a call: in E_IDLE, or in E_HDR
with `hidx` 0. -/
def outTraceInOrder (s : State) : Bool :=
  outTraceClosed s == (s.enc.phase == .idle || (s.enc.phase == .hdr && s.enc.hidx == 0#4))

/-- The calls of DEC that have ended, and the one in progress. -/
def decCalls (s : State) : Nat :=
  s.dTrace.countP isDone + (if s.dec.phase = .b0 then 0 else 1)

/-- The calls of ENC that have produced their last `Out`, and the one in progress. -/
def encCalls (s : State) : Nat := s.eTrace.countP (fun o => o.last) + (if s.enc.phase = .idle then 0 else 1)

/-- What a turn of DEC depends on besides its registers. -/
abbrev sameDecInputs (s u : State) : Prop :=
  s.dIn = u.dIn ∧ s.dOutReady = u.dOutReady ∧ s.dTrace = u.dTrace

/-- The four header forms whose length follows byte 1, as byte 1 selects them (R100): form, mask flag, `len7`. -/
def extendedForms (f : HeadFlags) (op : BitVec 4) : List (Instr × Bool × BitVec 7) :=
  [(.h16u f op, false, 126#7), (.h16m f op, true, 126#7), (.h64u f op, false, 127#7), (.h64m f op, true, 127#7)]

/-- The sixteen OP_* rows with their opcode values (R131 to R138). -/
def opcodeRows (f : HeadFlags) : List (Instr × BitVec 4) :=
  [(.opContinuation f, 0x0#4), (.opText f, 0x1#4), (.opBinary f, 0x2#4), (.opReservedData3 f, 0x3#4),
   (.opReservedData4 f, 0x4#4), (.opReservedData5 f, 0x5#4), (.opReservedData6 f, 0x6#4),
   (.opReservedData7 f, 0x7#4), (.opClose f, 0x8#4), (.opPing f, 0x9#4), (.opPong f, 0xA#4),
   (.opReservedControlB f, 0xB#4), (.opReservedControlC f, 0xC#4), (.opReservedControlD f, 0xD#4),
   (.opReservedControlE f, 0xE#4), (.opReservedControlF f, 0xF#4)]

/-- The four BUILD_* rows that enforce no limit, with their type bytes (R221 to R223, R226). -/
def openBuilders (n k : BitVec 32) : List (Instr × Byte) :=
  [(.buildMessageText n k, 0x81#8), (.buildMessageBinary n k, 0x82#8), (.buildPing n k, 0x89#8),
   (.buildPong n k, 0x8A#8)]

end Sys2Proof.Machine
end

