-- ==== Sys2Proof/Certificates/Slice0/Obligations.lean ====
section
/-! DEFINITION. The statements about the machine, from the numbered rules of spec/. -/

open Sys2Proof Sys2Proof.Machine

/-! ### What each instruction does: its next state, whole -/

/-- R164 for the sixteen OP_* rows, as exec runs them: the next state on every state that is offered a byte.
`mayWithdraw` is the model's (DESIGN CHOICE, log 17). -/
def Obligations.OpcodeRowsTakeByteZero : Prop :=
  ∀ (s : State) (f : HeadFlags) (b : Beat) (rest : List Beat), s.dIn = b :: rest →
    ∀ row ∈ opcodeRows f,
      exec row.1 s = .next { s.endTurn .dec with
        dIn := rest
        mayWithdraw := { s.mayWithdraw with dIn := false }
        dec := { s.dec with
          fin := f.fin, rsv1 := f.rsv1, rsv2 := f.rsv2, rsv3 := f.rsv3, opcode := row.2
          phase := if b.last then .b0 else .b1 }
        dTrace := s.dTrace ++ if b.last then [.done .short 1002#16 false] else [] }

/-- R165 and R168 for form H7U: the header is complete with byte 1. `mayWithdraw` is the model's (DESIGN CHOICE, log
17). -/
def Obligations.FormH7UCompletesHeader : Prop :=
  ∀ (s : State) (f : HeadFlags) (op : BitVec 4) (len7 : BitVec 7) (b : Beat) (rest : List Beat),
    WellFormed (.h7u f op len7) → s.dIn = b :: rest →
      exec (.h7u f op len7) s = .next { s.endTurn .dec with
        dIn := rest
        mayWithdraw := { s.mayWithdraw with dIn := false }
        dec := { s.dec with
          fin := f.fin, rsv1 := f.rsv1, rsv2 := f.rsv2, rsv3 := f.rsv3, opcode := op
          masked := false, len7 := len7, len := len7.setWidth 53
          cnt := if len7 = 0#7 ∨ b.last then s.dec.cnt else 0#53
          phase := if len7 = 0#7 ∨ b.last then .b0 else .pay }
        dTrace := s.dTrace ++ [.hdr ⟨f.fin, f.rsv1, f.rsv2, f.rsv3, op, false, len7.setWidth 53⟩] ++
          if len7 = 0#7 then [.done .ok 0#16 (!b.last)] else if b.last then [.done .short 1002#16 false] else [] }

/-- R165 for form H7M: the key follows byte 1. `mayWithdraw` is the model's (DESIGN CHOICE, log 17). -/
def Obligations.FormH7MAwaitsKey : Prop :=
  ∀ (s : State) (f : HeadFlags) (op : BitVec 4) (len7 : BitVec 7) (b : Beat) (rest : List Beat),
    WellFormed (.h7m f op len7) → s.dIn = b :: rest →
      exec (.h7m f op len7) s = .next { s.endTurn .dec with
        dIn := rest
        mayWithdraw := { s.mayWithdraw with dIn := false }
        dec := { s.dec with
          fin := f.fin, rsv1 := f.rsv1, rsv2 := f.rsv2, rsv3 := f.rsv3, opcode := op
          masked := true, len7 := len7, len := len7.setWidth 53
          idx := if b.last then s.dec.idx else 0#3
          phase := if b.last then .b0 else .key }
        dTrace := s.dTrace ++ if b.last then [.done .short 1002#16 false] else [] }

/-- R165 for forms H16U, H16M, H64U, H64M: the extended length follows byte 1. `mayWithdraw` is the model's (DESIGN
CHOICE, log 17). -/
def Obligations.ExtendedFormsAwaitLength : Prop :=
  ∀ (s : State) (f : HeadFlags) (op : BitVec 4) (b : Beat) (rest : List Beat), s.dIn = b :: rest →
    ∀ row ∈ extendedForms f op,
      exec row.1 s = .next { s.endTurn .dec with
        dIn := rest
        mayWithdraw := { s.mayWithdraw with dIn := false }
        dec := { s.dec with
          fin := f.fin, rsv1 := f.rsv1, rsv2 := f.rsv2, rsv3 := f.rsv3, opcode := op
          masked := row.2.1, len7 := row.2.2, len := 0#53, idx := 0#3
          phase := if b.last then .b0 else .ext }
        dTrace := s.dTrace ++ if b.last then [.done .short 1002#16 false] else [] }

/-- R168, the header-complete procedure: its three exits. -/
def Obligations.HeaderCompleteProcedure : Prop :=
  ∀ (r : DecRegs) (last : Bool),
    headerComplete r last =
      if r.len = 0#53 then
        ⟨{ r with phase := .b0 },
          [.hdr ⟨r.fin, r.rsv1, r.rsv2, r.rsv3, r.opcode, r.masked, r.len⟩, .done .ok 0#16 (!last)]⟩
      else if last then
        ⟨{ r with phase := .b0 },
          [.hdr ⟨r.fin, r.rsv1, r.rsv2, r.rsv3, r.opcode, r.masked, r.len⟩, .done .short 1002#16 false]⟩
      else
        ⟨{ r with cnt := 0#53, phase := .pay },
          [.hdr ⟨r.fin, r.rsv1, r.rsv2, r.rsv3, r.opcode, r.masked, r.len⟩]⟩

/-- R166, the step in D_EXT, as DECODE takes it. `mayWithdraw` is the model's (DESIGN CHOICE, log 17). -/
def Obligations.DecodeTakesLengthByte : Prop :=
  ∀ (s : State) (b : Beat) (rest : List Beat), s.dec.phase = .ext → s.dIn = b :: rest →
    let newlen : BitVec 53 := s.dec.len * 256#53 + b.data.setWidth 53
    let E : Nat := if s.dec.len7 = 126#7 then 2 else 8
    let o : DecResult :=
      if s.dec.len7 = 127#7 ∧ s.dec.idx = 3#3 ∧ 2 ^ 21 - 1 < newlen.toNat then
        ⟨{ s.dec with len := newlen, phase := .b0 }, [.done .tooBig 1009#16 false]⟩
      else if s.dec.idx.toNat = E - 1 then
        if s.dec.masked then
          if b.last then ⟨{ s.dec with len := newlen, phase := .b0 }, [.done .short 1002#16 false]⟩
          else ⟨{ s.dec with len := newlen, idx := 0#3, phase := .key }, []⟩
        else headerComplete { s.dec with len := newlen } b.last
      else if b.last then ⟨{ s.dec with len := newlen, phase := .b0 }, [.done .short 1002#16 false]⟩
      else ⟨{ s.dec with len := newlen, idx := s.dec.idx + 1#3 }, []⟩
    exec .decode s = .next { s.endTurn .dec with
      dIn := rest, dec := o.regs, dTrace := s.dTrace ++ o.events
      mayWithdraw := { s.mayWithdraw with dIn := decide (DecEvent.done .tooBig 1009#16 false ∈ o.events) } }

/-- R167, the step in D_KEY, as DECODE takes it, for the four key registers there are; a well-formed DEC is in D_KEY
only with `masked` set. `mayWithdraw` is the model's (DESIGN CHOICE, log 17). -/
def Obligations.DecodeTakesKeyByte : Prop :=
  ∀ (s : State) (b : Beat) (rest : List Beat), s.dec.phase = .key → s.dec.idx.toNat ≤ 3 → s.dIn = b :: rest →
    let key : Key :=
      if s.dec.idx = 0#3 then { s.dec.key with k0 := b.data }
      else if s.dec.idx = 1#3 then { s.dec.key with k1 := b.data }
      else if s.dec.idx = 2#3 then { s.dec.key with k2 := b.data }
      else { s.dec.key with k3 := b.data }
    let o : DecResult :=
      if s.dec.idx = 3#3 then headerComplete { s.dec with key := key } b.last
      else if b.last then ⟨{ s.dec with key := key, phase := .b0 }, [.done .short 1002#16 false]⟩
      else ⟨{ s.dec with key := key, idx := s.dec.idx + 1#3 }, []⟩
    exec .decode s = .next { s.endTurn .dec with
      dIn := rest, dec := o.regs, dTrace := s.dTrace ++ o.events
      mayWithdraw := { s.mayWithdraw with dIn := false } } ∧
    (decWellFormed s.dec = true → s.dec.masked = true)

/-- R169, the step in D_PAY, as DECODE takes it when the consumer of `d_out` is ready; `cnt`, the key index, is 0
whenever D_PAY is entered. `mayWithdraw` is the model's (DESIGN CHOICE, log 17). -/
def Obligations.DecodeTakesPayloadByte : Prop :=
  ∀ (s : State) (b : Beat) (rest : List Beat), s.dec.phase = .pay → s.dOutReady = true → s.dIn = b :: rest →
    let lane : Byte :=
      if s.dec.cnt.toNat % 4 = 0 then s.dec.key.k0
      else if s.dec.cnt.toNat % 4 = 1 then s.dec.key.k1
      else if s.dec.cnt.toNat % 4 = 2 then s.dec.key.k2
      else s.dec.key.k3
    let data : Byte := b.data ^^^ (if s.dec.masked then lane else 0#8)
    let o : DecResult :=
      if s.dec.cnt + 1#53 = s.dec.len then
        ⟨{ s.dec with phase := .b0 }, [.pay data true, .done .ok 0#16 (!b.last)]⟩
      else if b.last then ⟨{ s.dec with phase := .b0 }, [.pay data false, .done .short 1002#16 false]⟩
      else ⟨{ s.dec with cnt := s.dec.cnt + 1#53 }, [.pay data false]⟩
    exec .decode s = .next { s.endTurn .dec with
      dIn := rest, dec := o.regs, dTrace := s.dTrace ++ o.events
      mayWithdraw := { s.mayWithdraw with dIn := false } } ∧
    ∀ (r : DecRegs) (last : Bool), (headerComplete r last).regs.phase = .pay → (headerComplete r last).regs.cnt = 0#53

/-- DECODE in D_B0 and D_B1 is the row the offered byte selects (R163, R164, R165; DESIGN CHOICE, log 1). -/
def Obligations.DecodeRunsTheRowItReads : Prop :=
  ∀ (s : State) (b : Beat) (rest : List Beat), s.dIn = b :: rest →
    (s.dec.phase = .b0 → exec .decode s = exec (opcodeInstr (flagsOf b.data) (opcodeOf b.data)) s) ∧
    (s.dec.phase = .b1 →
      exec .decode s =
        exec (headerInstr (decFlags s.dec) s.dec.opcode (maskedOf b.data) (len7Of b.data)) s)

/-- R204, the step in E_IDLE: ENCODE accepts the command. `mayWithdraw` is the model's (DESIGN CHOICE, log 17). -/
def Obligations.EncodeAcceptsCommand : Prop :=
  ∀ (s : State) (t : Byte) (n k : BitVec 32) (rest : List Command),
    s.enc.phase = .idle → s.eCmd = ⟨t, n, k⟩ :: rest →
      exec (.encode t n k) s = .next { s.endTurn .enc with
        eCmd := rest
        mayWithdraw := { s.mayWithdraw with eCmd := false, eIn := false }
        enc := { s.enc with
          typ := t, n := n, hidx := 0#4, phase := .hdr
          key := ⟨k.extractLsb' 24 8, k.extractLsb' 16 8, k.extractLsb' 8 8, k.extractLsb' 0 8⟩ } }

/-- R205, the step in E_HDR: ENCODE emits header byte `hidx`. -/
def Obligations.EncodeEmitsHeaderByte : Prop :=
  ∀ (s : State) (t : Byte) (n k : BitVec 32) (d : Byte),
    s.enc.phase = .hdr → s.eOutReady = true →
    (encodedHeader s.enc.typ s.enc.n s.enc.key)[s.enc.hidx.toNat]? = some d →
      let finHdr : Prop := s.enc.hidx.toNat = encodedHeaderLength s.enc.n - 1
      exec (.encode t n k) s = .next { s.endTurn .enc with
        enc :=
          if finHdr then
            if s.enc.n = 0#32 then { s.enc with phase := .idle } else { s.enc with cnt := 0#32, phase := .pay }
          else { s.enc with hidx := s.enc.hidx + 1#4 }
        eTrace := s.eTrace ++ [⟨d, decide (finHdr ∧ s.enc.n = 0#32)⟩] }

/-- R206, the step in E_PAY: ENCODE consumes a payload byte and emits it masked; in a well-formed ENC `cnt` never
wraps. `mayWithdraw` is the model's (DESIGN CHOICE, log 17). -/
def Obligations.EncodeEmitsPayloadByte : Prop :=
  ∀ (s : State) (t : Byte) (n k : BitVec 32) (p : Byte) (rest : List Byte),
    s.enc.phase = .pay → s.eOutReady = true → s.eIn = p :: rest →
      let lane : Byte :=
        if s.enc.cnt.toNat % 4 = 0 then s.enc.key.k0
        else if s.enc.cnt.toNat % 4 = 1 then s.enc.key.k1
        else if s.enc.cnt.toNat % 4 = 2 then s.enc.key.k2
        else s.enc.key.k3
      exec (.encode t n k) s = .next { s.endTurn .enc with
        eIn := rest
        mayWithdraw := { s.mayWithdraw with eIn := false }
        enc := if s.enc.cnt + 1#32 = s.enc.n then { s.enc with phase := .idle } else { s.enc with cnt := s.enc.cnt + 1#32 }
        eTrace := s.eTrace ++ [⟨p ^^^ lane, decide (s.enc.cnt + 1#32 = s.enc.n)⟩] } ∧
      (encWellFormed s.enc = true → s.enc.cnt + 1#32 ≠ s.enc.n →
        s.enc.cnt.toNat ≤ s.enc.n.toNat - 1 ∧ s.enc.n.toNat - 1 ≤ 2 ^ 32 - 2)

/-- R221, R222, R223, R226: BUILD_MESSAGE, BUILD_PING and BUILD_PONG offer one command and their payload, of any
length. `mayWithdraw` is the model's (DESIGN CHOICE, log 17). -/
def Obligations.OpenBuildersOfferOneCommand : Prop :=
  ∀ (s : State) (n k : BitVec 32) (payload rest : List Byte),
    s.args = payload ++ rest → payload.length = n.toNat →
      ∀ row ∈ openBuilders n k,
        exec row.1 s = .next { s.endTurn .drv with
          calls := s.calls.tail, args := rest
          eCmd := s.eCmd ++ [⟨row.2, n, k⟩], eIn := s.eIn ++ payload
          callLog := s.callLog ++ [.issued]
          mayWithdraw := { s.mayWithdraw with eCmd := false, eIn := false, calls := false } }

/-- R224, R225: BUILD_CLOSE offers one command and `enc_be16(code) ++ reason`, if the reason has at most 123 bytes.
`mayWithdraw` is the model's (DESIGN CHOICE, log 17). -/
def Obligations.BuildCloseOffersOneCommand : Prop :=
  ∀ (s : State) (n k : BitVec 32) (code : BitVec 16) (reason rest : List Byte),
    s.args = encBe16 code ++ reason ++ rest → n.toNat = 2 + reason.length → reason.length ≤ 123 →
      exec (.buildClose n k) s = .next { s.endTurn .drv with
        calls := s.calls.tail, args := rest
        eCmd := s.eCmd ++ [⟨0x88#8, n, k⟩], eIn := s.eIn ++ (encBe16 code ++ reason)
        callLog := s.callLog ++ [.issued]
        mayWithdraw := { s.mayWithdraw with eCmd := false, eIn := false, calls := false } }

/-- R225, R244: with a reason of 124 bytes or more BUILD_CLOSE is refused: no command is issued and no byte offered,
and both units are untouched. `mayWithdraw` is the model's (DESIGN CHOICE, log 17). -/
def Obligations.BuildCloseRefusesLongReason : Prop :=
  ∀ (s : State) (n k : BitVec 32) (code : BitVec 16) (reason rest : List Byte),
    s.args = encBe16 code ++ reason ++ rest → n.toNat = 2 + reason.length → 124 ≤ reason.length →
      exec (.buildClose n k) s = .next { s.endTurn .drv with
        calls := s.calls.tail, args := rest, callLog := s.callLog ++ [.refused]
        mayWithdraw := { s.mayWithdraw with calls := false } }

/-- A BUILD_CLOSE call of fewer than two operand bytes holds no code: it is refused like one with a long reason
(DESIGN CHOICE, log 13). `mayWithdraw` is the model's (DESIGN CHOICE, log 17). -/
def Obligations.BuildCloseRefusesMissingCode : Prop :=
  ∀ (s : State) (n k : BitVec 32) (operands rest : List Byte),
    s.args = operands ++ rest → operands.length = n.toNat → n.toNat < 2 →
      exec (.buildClose n k) s = .next { s.endTurn .drv with
        calls := s.calls.tail, args := rest, callLog := s.callLog ++ [.refused]
        mayWithdraw := { s.mayWithdraw with calls := false } }

/-- A builder call whose operand bytes have not all been given waits: its turn passes and nothing else changes (DESIGN
CHOICE, log 11). -/
def Obligations.BuildersAwaitOperands : Prop :=
  ∀ (s : State) (n k : BitVec 32), s.args.length < n.toNat →
    (∀ row ∈ openBuilders n k, exec row.1 s = .next (s.endTurn .drv)) ∧
    exec (.buildClose n k) s = .next (s.endTurn .drv)

/-- The only two faults of exec: DECODE in D_KEY with an `idx` that names no key register, ENCODE in E_HDR with a `hidx`
past the header (DESIGN CHOICE, log 9). No well-formed state is such a state. -/
def Obligations.FaultsOnlyOutsideWellFormedStates : Prop :=
  ∀ (i : Instr) (s : State) (f : Fault),
    (exec i s = .fault f ↔
      (i = .decode ∧ f = .keyRegisterAbsent ∧ s.dec.phase = .key ∧ 3 < s.dec.idx.toNat ∧ s.dIn ≠ []) ∨
      (∃ t n k, i = .encode t n k ∧ f = .headerByteAbsent ∧ s.enc.phase = .hdr ∧ s.eOutReady = true ∧
        encodedHeaderLength s.enc.n ≤ s.enc.hidx.toNat)) ∧
    (exec i s = .fault f → ¬ s.WellFormed)

/-! ### The step -/

/-- A turn runs the decoded instruction: step is exec of it, with nothing around it; with an empty script the turn is
that of the first of the driver, ENC and DEC that fetches a word (DESIGN CHOICE, log 4). -/
def Obligations.StepRunsDecodedInstruction : Prop :=
  ∀ (s : State) (slot : Slot) (bs : List Byte) (i : Instr), decodeWord slot bs = .ok i → WellFormed i →
    (∀ (a : Agent) (rest : List Move), s.script = .turn a :: rest → fetchedWord s a = some (slot, bs) →
      step s = exec i s) ∧
    (s.script = [] → fetchedWord s .drv = some (slot, bs) → step s = exec i s) ∧
    (s.script = [] → fetchedWord s .drv = none → fetchedWord s .enc = some (slot, bs) → step s = exec i s) ∧
    (s.script = [] → fetchedWord s .drv = none → fetchedWord s .enc = none →
      fetchedWord s .dec = some (slot, bs) → step s = exec i s)

/-- R164 at the machine: the step in D_B0 latches the fields of the byte. `mayWithdraw` is the model's (DESIGN CHOICE,
log 17). -/
def Obligations.StepInByteZeroPhase : Prop :=
  ∀ (s : State) (b : Beat) (rest : List Beat) (moves : List Move),
    s.script = .turn .dec :: moves → s.dec.phase = .b0 → s.dIn = b :: rest →
      step s = .next { s with
        script := moves, dIn := rest
        mayWithdraw := { s.mayWithdraw with dIn := false }
        dec := { s.dec with
          fin := b.data.getLsbD 7, rsv1 := b.data.getLsbD 6, rsv2 := b.data.getLsbD 5, rsv3 := b.data.getLsbD 4
          opcode := b.data.extractLsb' 0 4, phase := if b.last then .b0 else .b1 }
        dTrace := s.dTrace ++ if b.last then [.done .short 1002#16 false] else [] }

/-- R165 at the machine: the step in D_B1. `mayWithdraw` is the model's (DESIGN CHOICE, log 17). -/
def Obligations.StepInByteOnePhase : Prop :=
  ∀ (s : State) (b : Beat) (rest : List Beat) (moves : List Move),
    s.script = .turn .dec :: moves → s.dec.phase = .b1 → s.dIn = b :: rest →
      let masked : Bool := b.data.getLsbD 7
      let len7 : BitVec 7 := b.data.extractLsb' 0 7
      let r : DecRegs := { s.dec with masked := masked, len7 := len7 }
      let o : DecResult :=
        if len7.toNat ≤ 125 then
          if masked then
            if b.last then ⟨{ r with len := len7.setWidth 53, phase := .b0 }, [.done .short 1002#16 false]⟩
            else ⟨{ r with len := len7.setWidth 53, idx := 0#3, phase := .key }, []⟩
          else headerComplete { r with len := len7.setWidth 53 } b.last
        else if b.last then ⟨{ r with len := 0#53, idx := 0#3, phase := .b0 }, [.done .short 1002#16 false]⟩
        else ⟨{ r with len := 0#53, idx := 0#3, phase := .ext }, []⟩
      step s = .next { s with
        script := moves, dIn := rest, dec := o.regs, dTrace := s.dTrace ++ o.events
        mayWithdraw := { s.mayWithdraw with dIn := false } }

/-- R67: the turn of DEC without a byte offered, or in D_PAY without a ready consumer, changes nothing but the script
(that the turn passes is a DESIGN CHOICE, log 5). -/
def Obligations.DecWaitsWithoutTransfer : Prop :=
  ∀ (s : State) (moves : List Move), s.script = .turn .dec :: moves →
    s.dIn = [] ∨ (s.dec.phase = .pay ∧ s.dOutReady = false) → step s = .next { s with script := moves }

/-- R68: the turn of ENC without what its phase needs changes nothing but the script (that the turn passes is a DESIGN
CHOICE, log 5). -/
def Obligations.EncWaitsWithoutTransfer : Prop :=
  ∀ (s : State) (moves : List Move), s.script = .turn .enc :: moves →
    (s.enc.phase = .idle ∧ s.eCmd = []) ∨ (s.enc.phase = .hdr ∧ s.eOutReady = false) ∨
      (s.enc.phase = .pay ∧ (s.eIn = [] ∨ s.eOutReady = false)) →
    step s = .next { s with script := moves }

/-- R280, R281: a reset event puts both units in their idle phase whatever the state before it, and leaves the traces
and everything offered as they were. `mayWithdraw` is the model's (DESIGN CHOICE, log 17). -/
def Obligations.ResetEventIdlesBothUnits : Prop :=
  ∀ (s : State) (moves : List Move), s.script = .rst :: moves →
    ∃ (d : DecRegs) (e : EncRegs), d.phase = .b0 ∧ e.phase = .idle ∧
      step s = .next { s with
        script := moves, dec := d, enc := e, resets := s.resets + 1, mayWithdraw := ⟨true, true, true, true⟩ }

/-- R43: the phases, the traces and the handshake outputs after reset. -/
def Obligations.ResetLeavesUnitsIdle : Prop :=
  State.reset.dec.phase = .b0 ∧ State.reset.enc.phase = .idle ∧
    dHdrValid State.reset = false ∧ dOutValid State.reset = false ∧ dDoneValid State.reset = false ∧
    eOutValid State.reset = false ∧ dInReady State.reset = true ∧ eCmdReady State.reset = true ∧
    eInReady State.reset = false ∧ State.reset.dTrace = [] ∧ State.reset.eTrace = []

/-- R294, R73, R66: each move of the environment but `rst`, its whole next state. An offer goes behind what is offered;
a withdrawal happens only where it may (the form of the moves and the permissions are a DESIGN CHOICE, logs 4 and 17). -/
def Obligations.EnvironmentMovesOffer : Prop :=
  ∀ (s : State) (moves : List Move),
    (∀ b, s.script = .offerByte b :: moves → step s = .next { s with
      script := moves, dIn := s.dIn ++ [b], mayWithdraw := { s.mayWithdraw with dIn := false } }) ∧
    (∀ c, s.script = .offerCommand c :: moves → step s = .next { s with
      script := moves, eCmd := s.eCmd ++ [c], mayWithdraw := { s.mayWithdraw with eCmd := false } }) ∧
    (∀ p, s.script = .offerPayload p :: moves → step s = .next { s with
      script := moves, eIn := s.eIn ++ [p], mayWithdraw := { s.mayWithdraw with eIn := false } }) ∧
    (∀ c operands, s.script = .call c operands :: moves → step s = .next { s with
      script := moves, calls := s.calls ++ [c], args := s.args ++ operands
      mayWithdraw := { s.mayWithdraw with calls := false } }) ∧
    (s.script = .withdraw .dIn :: moves →
      step s = .next { s with script := moves, dIn := if s.mayWithdraw.dIn then [] else s.dIn }) ∧
    (s.script = .withdraw .eCmd :: moves →
      step s = .next { s with script := moves, eCmd := if s.mayWithdraw.eCmd then [] else s.eCmd }) ∧
    (s.script = .withdraw .eIn :: moves →
      step s = .next { s with script := moves, eIn := if s.mayWithdraw.eIn then [] else s.eIn }) ∧
    (s.script = .withdraw .calls :: moves → step s = .next { s with
      script := moves, calls := if s.mayWithdraw.calls then [] else s.calls
      args := if s.mayWithdraw.calls then [] else s.args }) ∧
    (∀ v, s.script = .dReady v :: moves → step s = .next { s with script := moves, dOutReady := v }) ∧
    (∀ v, s.script = .eReady v :: moves → step s = .next { s with script := moves, eOutReady := v })

/-- R66, R73, R286: at every step the items offered on a channel stay as they are and in their order, but that the
oldest leaves in the step that transfers it, and that offers come behind them. All of them go without a transfer only in
a withdrawal where it is permitted; the permission begins only with a reset event, or on `d_in` with a TOO_BIG (R281,
R288), and never outlasts the unit's idleness (the permissions and the driver's calls are a DESIGN CHOICE, logs 11
and 17). -/
def Obligations.OfferedItemsAreHeld : Prop :=
  ∀ s t : State, step s = .next t →
    heldInOrder (fun b => stepsOn s t (.byte b))
      (s.script.head? = some (.withdraw .dIn) ∧ s.mayWithdraw.dIn = true) s.dIn t.dIn ∧
    heldInOrder (fun c => stepsOn s t (.command c))
      (s.script.head? = some (.withdraw .eCmd) ∧ s.mayWithdraw.eCmd = true) s.eCmd t.eCmd ∧
    heldInOrder (fun p => stepsOn s t (.payload p))
      (s.script.head? = some (.withdraw .eIn) ∧ s.mayWithdraw.eIn = true) s.eIn t.eIn ∧
    heldInOrder (fun _ => ∃ r, t.callLog = s.callLog ++ [r])
      (s.script.head? = some (.withdraw .calls) ∧ s.mayWithdraw.calls = true) s.calls t.calls ∧
    (t.mayWithdraw.dIn = true → s.mayWithdraw.dIn = true ∨ resetNext s = true ∨
      t.dTrace = s.dTrace ++ [.done .tooBig 1009#16 false]) ∧
    (t.mayWithdraw.eCmd = true → s.mayWithdraw.eCmd = true ∨ resetNext s = true) ∧
    (t.mayWithdraw.eIn = true → s.mayWithdraw.eIn = true ∨ resetNext s = true) ∧
    (t.mayWithdraw.calls = true → s.mayWithdraw.calls = true ∨ resetNext s = true) ∧
    (withdrawalsIdle s → withdrawalsIdle t)

/-- R41, R42, R67, R68: in every state the ready outputs have the values of their phase, a unit has a step exactly when
what its phase needs is offered and ready, and its turn then emits exactly the events whose valid outputs are 1. So for `d_done_valid` right after a reset event that
finds a byte marked last on offer, where R43 has 0: DESIGN CHOICE, log 22. -/
def Obligations.HandshakeOutputsTellTheStep : Prop :=
  ∀ s : State,
    (dInReady s = if s.dec.phase = .pay then s.dOutReady else true) ∧
    (eCmdReady s = decide (s.enc.phase = .idle)) ∧
    (eInReady s = if s.enc.phase = .pay then s.eOutReady else false) ∧
    (fetchedWord s .dec ≠ none ↔ s.dIn ≠ [] ∧ dInReady s = true) ∧
    (fetchedWord s .enc ≠ none ↔
      (s.enc.phase = .idle ∧ s.eCmd ≠ []) ∨ (s.enc.phase = .hdr ∧ s.eOutReady = true) ∨
        (s.enc.phase = .pay ∧ s.eIn ≠ [] ∧ s.eOutReady = true)) ∧
    (∀ (t : State) (moves : List Move), s.script = .turn .dec :: moves → step s = .next t →
      ∃ ds, t.dTrace = s.dTrace ++ ds ∧ (dHdrValid s = true ↔ ∃ h, .hdr h ∈ ds) ∧
        (dDoneValid s = true ↔ ∃ st code rem, .done st code rem ∈ ds) ∧
        (dOutValid s = true ∧ s.dOutReady = true ↔ ∃ data last, .pay data last ∈ ds)) ∧
    (∀ (t : State) (moves : List Move), s.script = .turn .enc :: moves → step s = .next t →
      ∃ es, t.eTrace = s.eTrace ++ es ∧ (eOutValid s = true ∧ s.eOutReady = true ↔ es ≠ []))

/-- R46, R77, R280: the block takes its inputs from the environment as inputs of its step relation and holds none of
them: whatever the environment holds, a step leaves the registers of the block and the traces as they are, or is the
block's own step on one input the environment gives, and the traces grow by its events. -/
def Obligations.BlockStepsOnInputsAlone : Prop :=
  ∀ s t : State, step s = .next t →
    (t.toBlock = s.toBlock ∧ t.dTrace = s.dTrace ∧ t.eTrace = s.eTrace) ∨ ∃ x : Input, stepsOn s t x

/-- R295: a state is quiescent exactly when both units are idle and nothing is offered. Then neither unit has a step, no
output is valid, every `Hdr` has its `Done` and ENC's trace ends with a last `Out` (where the traces are in order), and
the calls counted are all ended. Every step but a reset event keeps ENC's trace in order and counts a call of a unit
exactly when the unit begins one, so that no call begun is without its `Done` or its last `Out`. -/
def Obligations.QuiescentRunsAreComplete : Prop :=
  (∀ s : State,
    (quiescent s = true ↔
      s.dec.phase = .b0 ∧ s.enc.phase = .idle ∧ s.dIn = [] ∧ s.eCmd = [] ∧ s.eIn = []) ∧
    (quiescent s = true →
      fetchedWord s .dec = none ∧ fetchedWord s .enc = none ∧ dHdrValid s = false ∧ dOutValid s = false ∧
        dDoneValid s = false ∧ eOutValid s = false ∧ (traceInOrder s = true → readTrace s.dTrace = some false) ∧
        (outTraceInOrder s = true → s.eTrace = [] ∨ ∃ d, s.eTrace.getLast? = some ⟨d, true⟩) ∧
        decCalls s = s.dTrace.countP isDone ∧
        encCalls s = s.eTrace.countP (fun o => o.last))) ∧
  ∀ s t : State, resetNext s = false → step s = .next t →
    (outTraceInOrder s = true → outTraceInOrder t = true) ∧
    (s.dec.phase = .b0 ∧ (∃ b, stepsOn s t (.byte b)) → decCalls t = decCalls s + 1) ∧
    (¬(s.dec.phase = .b0 ∧ ∃ b, stepsOn s t (.byte b)) → decCalls t = decCalls s) ∧
    (s.enc.phase = .idle ∧ (∃ c, stepsOn s t (.command c)) → encCalls t = encCalls s + 1) ∧
    (¬(s.enc.phase = .idle ∧ ∃ c, stepsOn s t (.command c)) → encCalls t = encCalls s)

/-- R20 and the driver's place in front of ENC (R220): what the turn of each agent leaves alone. `mayWithdraw` is the
model's (DESIGN CHOICE, log 17). -/
def Obligations.AgentsTouchTheirOwnState : Prop :=
  ∀ (s t : State) (moves : List Move),
    (s.script = .turn .dec :: moves → step s = .next t →
      t = { s with
        script := moves, dec := t.dec, dIn := t.dIn, dTrace := t.dTrace
        mayWithdraw := { s.mayWithdraw with dIn := t.mayWithdraw.dIn } }) ∧
    (s.script = .turn .enc :: moves → step s = .next t →
      t = { s with
        script := moves, enc := t.enc, eCmd := t.eCmd, eIn := t.eIn, eTrace := t.eTrace
        mayWithdraw := { s.mayWithdraw with eCmd := t.mayWithdraw.eCmd, eIn := t.mayWithdraw.eIn } }) ∧
    (s.script = .turn .drv :: moves → step s = .next t →
      t = { s with
        script := moves, calls := t.calls, args := t.args, eCmd := t.eCmd, eIn := t.eIn, callLog := t.callLog
        mayWithdraw := { t.mayWithdraw with dIn := s.mayWithdraw.dIn } })

/-- A step of a well-formed state completes, unless the driver holds a call that is no builder's. -/
def Obligations.WellFormedStatesStep : Prop :=
  ∀ s : State, s.WellFormed → (∀ c ∈ s.calls, ∃ i, builderInstr c = .ok i) → ∃ t, step s = .next t

/-! ### Encodings -/

/-- The decoder reads back every well-formed instruction from its encoding, with every operand. -/
def Obligations.DecodeOfEncodeIsIdentity : Prop :=
  ∀ i : Instr, WellFormed i → decodeWord (slotOf i) (encodeWord i) = .ok i

/-- Every word the decoder accepts is the encoding of the instruction it gives, which is well formed. -/
def Obligations.EncodeOfDecodeIsIdentity : Prop :=
  ∀ (slot : Slot) (bs : List Byte) (i : Instr), decodeWord slot bs = .ok i →
    slotOf i = slot ∧ encodeWord i = bs ∧ WellFormed i

/-- Words written out from the encodings of spec/opcode_table.json (R91, R92, R100, R131 to R138, R221 to R224). For the
three 72-bit words the order of the ports in the word and the slot by the type byte, and for the empty word of DECODE
its slot, are the model's choice (DESIGN CHOICE, log 12). -/
def Obligations.TableWordsDecode : Prop :=
  decodeTableWord 8 0b10000001 = some (.opText ⟨true, false, false, false⟩) ∧
  decodeTableWord 8 0b01111011 = some (.opReservedControlB ⟨false, true, true, true⟩) ∧
  decodeTableWord 16 0b1000000110000101 = some (.h7m ⟨true, false, false, false⟩ 0x1#4 5#7) ∧
  decodeTableWord 16 0b0010100101111101 = some (.h7u ⟨false, false, true, false⟩ 0x9#4 125#7) ∧
  decodeTableWord 16 0b1000001001111110 = some (.h16u ⟨true, false, false, false⟩ 0x2#4) ∧
  decodeTableWord 16 0b1000001011111111 = some (.h64m ⟨true, false, false, false⟩ 0x2#4) ∧
  decodeTableWord 72 0x880000000537FA213D = some (.buildClose 5#32 0x37FA213D#32) ∧
  decodeTableWord 72 0x820000000137FA213D = some (.buildMessageBinary 1#32 0x37FA213D#32) ∧
  decodeTableWord 72 0x700000000637FA213D = some (.encode 0x70#8 6#32 0x37FA213D#32) ∧
  decodeTableWord 0 0 = some .decode

/-! ### Invariants -/

/-- Every step of a well-formed state leaves a well-formed state: `idx`, `len`, `cnt`, `hidx` stay in the ranges
R29, R32, R34 and R38 give them. -/
def Obligations.StepKeepsWellFormed : Prop :=
  ∀ s t : State, s.WellFormed → step s = .next t → t.WellFormed

/-- The state after reset is well formed. -/
def Obligations.ResetIsWellFormed : Prop := State.reset.WellFormed

/-- R74: every step but a reset event keeps the events of DEC in order: `Hdr`, then `Pay`s, then `Done`. -/
def Obligations.StepKeepsEventOrder : Prop :=
  ∀ s t : State, traceInOrder s = true → resetNext s = false → step s = .next t → traceInOrder t = true

/-- The trace is in order after reset. -/
def Obligations.ResetTraceInOrder : Prop := traceInOrder State.reset = true

/-- R240: every `Done` of the trace carries the close code of its status, and `rem_present` only with OK. -/
def Obligations.StepKeepsDoneRecords : Prop :=
  ∀ s t : State, (∀ e ∈ s.dTrace, doneRecordOk e = true) → step s = .next t → ∀ e ∈ t.dTrace, doneRecordOk e = true

/-- R12, R66, R163: the traces only grow, by at most one event on each channel a step. -/
def Obligations.TracesOnlyGrow : Prop :=
  ∀ s t : State, step s = .next t →
    ∃ (ds : List DecEvent) (es : List OutEvent), t.dTrace = s.dTrace ++ ds ∧ t.eTrace = s.eTrace ++ es ∧
      es.length ≤ 1 ∧
      (ds.filter isHdr).length ≤ 1 ∧
      (ds.filter isPay).length ≤ 1 ∧
      (ds.filter isDone).length ≤ 1

/-- R35: a DEC step advances `DEC.pos` by exactly 1, or ends the call and leaves it 0. -/
def Obligations.DecStepAdvancesPosition : Prop :=
  ∀ (s : State) (b : Beat) (rest : List Beat),
    decWellFormed s.dec = true → s.dIn = b :: rest → (s.dec.phase = .pay → s.dOutReady = true) →
      ∃ (t : State) (es : List DecEvent), exec .decode s = .next t ∧ t.dTrace = s.dTrace ++ es ∧ t.dIn = rest ∧
        decPos t.dec =
          if es.any isDone then 0 else decPos s.dec + 1

/-! ### Refinement of the transaction level -/

/-- R171: on a buffer offered whole, with the consumer ready, DEC takes its turns to exactly the outcome of `Decode`:
the bytes it consumes, the events it emits, and D_B0 afterwards, in each of the three cases. `mayWithdraw` is the
model's (DESIGN CHOICE, log 17). -/
def Obligations.DecoderRefinesDecode : Prop :=
  ∀ (s : State) (B : List Byte) (more : List Beat) (moves : List Move),
    B ≠ [] → s.dec.phase = .b0 → s.dOutReady = true → s.dIn = offerBuffer B ++ more →
      match decodeBuffer B with
      | .ok f =>
        ∃ h, readHeader B = .found h ∧ h.hlen = frameHeaderLength f.masked (len7Of (byteAt B 1)) ∧
          bytesOf f.remaining = B.drop (h.hlen + h.len) ∧
          (s.script = List.replicate (h.hlen + h.len) (.turn .dec) ++ moves →
            ∃ d : DecRegs, d.phase = .b0 ∧
              Sys2Proof.core.run (h.hlen + h.len) s = .next { s with
                dec := d, script := moves, dIn := (offerBuffer B).drop (h.hlen + h.len) ++ more
                mayWithdraw := { s.mayWithdraw with dIn := false }
                dTrace := s.dTrace ++
                  [.hdr ⟨f.fin, f.rsv1, f.rsv2, f.rsv3, f.opcode, f.masked, BitVec.ofNat 53 h.len⟩] ++
                  closedPays (bytesOf f.payload) ++ [.done .ok 0#16 f.remaining.isSome] })
      | .tooBig =>
        s.script = List.replicate 6 (.turn .dec) ++ moves →
          ∃ d : DecRegs, d.phase = .b0 ∧
            Sys2Proof.core.run 6 s = .next { s with
              dec := d, script := moves, dIn := (offerBuffer B).drop 6 ++ more
              mayWithdraw := { s.mayWithdraw with dIn := true }
              dTrace := s.dTrace ++ [.done .tooBig 1009#16 false] }
      | .short =>
        s.script = List.replicate B.length (.turn .dec) ++ moves →
          ∃ d : DecRegs, d.phase = .b0 ∧
            Sys2Proof.core.run B.length s = .next { s with
              dec := d, script := moves, dIn := more
              mayWithdraw := { s.mayWithdraw with dIn := false }
              dTrace := s.dTrace ++
                (match readHeader B with
                  | .found h => .hdr (hdrOfInfo h) :: openPays (unmask h (B.drop h.hlen))
                  | .tooBig => []
                  | .short => []) ++ [.done .short 1002#16 false] }

/-- R208: with its payload offered and the consumer ready, ENC takes its turns to exactly the bytes of `Encode`,
`last` on the final one, and E_IDLE afterwards. `mayWithdraw` is the model's (DESIGN CHOICE, log 17). -/
def Obligations.EncoderRefinesEncode : Prop :=
  ∀ (s : State) (t : Byte) (n k : BitVec 32) (cmds : List Command) (P more W : List Byte) (moves : List Move),
    s.enc.phase = .idle → s.eOutReady = true → s.eCmd = ⟨t, n, k⟩ :: cmds → s.eIn = P ++ more →
    P.length = n.toNat → encodeFrame P t (keyOfWord k) = some W →
    s.script = List.replicate (1 + W.length) (.turn .enc) ++ moves →
      W.length = 6 + (lengthExtension n).length + n.toNat ∧
      ∃ e : EncRegs, e.phase = .idle ∧
        Sys2Proof.core.run (1 + W.length) s = .next { s with
          enc := e, script := moves, eCmd := cmds, eIn := more, eTrace := s.eTrace ++ outEvents W
          mayWithdraw := { s.mayWithdraw with eCmd := false, eIn := false } }

/-- R37, R77, R251: from D_B0, what DEC emits, consumes and awaits depends on nothing its registers held before, and on
nothing of ENC. -/
def Obligations.DecoderReadsNothingStale : Prop :=
  ∀ (k : Nat) (s u : State), s.dec.phase = .b0 → u.dec.phase = .b0 → sameDecInputs s u →
    s.script = List.replicate k (.turn .dec) → u.script = List.replicate k (.turn .dec) →
      ∃ t v : State, Sys2Proof.core.run k s = .next t ∧ Sys2Proof.core.run k u = .next v ∧
        sameDecInputs t v ∧ sameLiveRegs t.dec v.dec = true

/-- R38, R202: from E_IDLE, what ENC emits and consumes depends on nothing its registers held before, and on nothing
of DEC. -/
def Obligations.EncoderReadsNothingStale : Prop :=
  ∀ (k : Nat) (s u : State), s.enc.phase = .idle → u.enc.phase = .idle →
    s.eCmd = u.eCmd → s.eIn = u.eIn → s.eOutReady = u.eOutReady → s.eTrace = u.eTrace →
    s.script = List.replicate k (.turn .enc) → u.script = List.replicate k (.turn .enc) →
      ∃ t v : State, Sys2Proof.core.run k s = .next t ∧ Sys2Proof.core.run k u = .next v ∧
        t.eCmd = v.eCmd ∧ t.eIn = v.eIn ∧ t.eTrace = v.eTrace ∧ t.enc.phase = v.enc.phase

/-- R37, R77: one turn of DEC keeps agreement on its inputs, its trace and its live registers, for any two well-formed
states that agree on these. -/
def Obligations.DecTurnKeepsLiveRegisters : Prop :=
  ∀ (s u : State) (p q : List Move), decWellFormed s.dec = true → decWellFormed u.dec = true →
    sameDecInputs s u → sameLiveRegs s.dec u.dec = true → s.script = .turn .dec :: p → u.script = .turn .dec :: q →
      ∃ t v : State, step s = .next t ∧ step u = .next v ∧ sameDecInputs t v ∧ sameLiveRegs t.dec v.dec = true

/-- R38, R77: one turn of ENC keeps agreement on its inputs, its trace and its live registers, for any two well-formed
states that agree on these. -/
def Obligations.EncTurnKeepsLiveRegisters : Prop :=
  ∀ (s u : State) (p q : List Move), encWellFormed s.enc = true → encWellFormed u.enc = true →
    sameEncInputs s u → sameLiveEncRegs s.enc u.enc = true → s.script = .turn .enc :: p → u.script = .turn .enc :: q →
      ∃ t v : State, step s = .next t ∧ step u = .next v ∧ sameEncInputs t v ∧ sameLiveEncRegs t.enc v.enc = true

/-- R76: the turns of DEC and ENC commute: no state tells which of the two came first. -/
def Obligations.TurnsOfUnitsCommute : Prop :=
  ∀ (s : State) (moves : List Move), s.WellFormed →
    ∃ t, Sys2Proof.core.run 2 { s with script := .turn .dec :: .turn .enc :: moves } = .next t ∧
      Sys2Proof.core.run 2 { s with script := .turn .enc :: .turn .dec :: moves } = .next t

/-! ### Laws of the transaction level -/

/-- R209: what ENC encodes, DEC decodes to the same bytes and fields. -/
def Obligations.DecodeOfEncodedFrame : Prop :=
  ∀ (P : List Byte) (t : Byte) (K : Key), P.length ≤ 2 ^ 32 - 1 →
    ∃ W, encodeFrame P t K = some W ∧
      decodeBuffer W = .ok {
        fin := t.getLsbD 7, rsv1 := t.getLsbD 6, rsv2 := t.getLsbD 5, rsv3 := t.getLsbD 4
        opcode := t.extractLsb' 0 4, masked := true
        payload := if P = [] then none else some P, remaining := none }

/-- R227: what a builder makes decodes to its opcode and its payload. -/
def Obligations.DecodeOfBuiltFrame : Prop :=
  (∀ (P : List Byte) (k : BitVec 32), P.length ≤ 2 ^ 32 - 1 →
    (∀ isBinary : Bool, ∃ W, encodeArgs (buildMessage P isBinary k) = some W ∧
      decodeBuffer W = .ok ⟨true, false, false, false, if isBinary then 0x2#4 else 0x1#4, true, optBytes P, none⟩) ∧
    (∃ W, encodeArgs (buildPing P k) = some W ∧
      decodeBuffer W = .ok ⟨true, false, false, false, 0x9#4, true, optBytes P, none⟩) ∧
    (∃ W, encodeArgs (buildPong P k) = some W ∧
      decodeBuffer W = .ok ⟨true, false, false, false, 0xA#4, true, optBytes P, none⟩)) ∧
  ∀ (code : BitVec 16) (reason : List Byte) (k : BitVec 32), reason.length ≤ 123 →
    ∃ a W, buildClose code reason k = some a ∧ encodeArgs a = some W ∧
      decodeBuffer W =
        .ok ⟨true, false, false, false, 0x8#4, true, some (encBe16 code ++ reason), none⟩

/-- R210: masking is an involution, a zero key changes nothing, and the length stays. -/
def Obligations.MaskingIsInvolution : Prop :=
  ∀ (X : List Byte) (K : Key),
    maskXor (maskXor X K) K = X ∧ maskXor X ⟨0, 0, 0, 0⟩ = X ∧ (maskXor X K).length = X.length

/-- R98: byte `i` is masked with key byte `i mod 4`, every byte, and the length stays. -/
def Obligations.MaskingUsesKeyCyclically : Prop :=
  ∀ (X : List Byte) (K : Key), (maskXor X K).length = X.length ∧
    ∀ (i : Nat) (x : Byte), X[i]? = some x →
      ∃ kb, [K.k0, K.k1, K.k2, K.k3][i % 4]? = some kb ∧ (maskXor X K)[i]? = some (x ^^^ kb)

/-- R22: the payload of a Frame has exactly the declared length, and is absent exactly when that is 0. -/
def Obligations.PayloadHasDeclaredLength : Prop :=
  ∀ (B : List Byte) (f : Frame), decodeBuffer B = .ok f →
    ∃ h, readHeader B = .found h ∧ h.hlen + h.len ≤ B.length ∧ (f.payload = none ↔ h.len = 0) ∧
      ∀ p, f.payload = some p → p.length = h.len ∧ p ≠ []

/-- R162: of two frames in one buffer the first is decoded, and `remaining` is the rest of the buffer; a part of a frame
decodes to SHORT. -/
def Obligations.DecodeTakesFirstFrame : Prop :=
  ∀ (F G : List Byte) (f : Frame), decodeBuffer F = .ok f → f.remaining = none →
    decodeBuffer (F ++ G) = .ok { f with remaining := if G = [] then none else some G } ∧
      ∀ k : Nat, k < F.length → decodeBuffer (F.take k) = .short

/-- R154, R241, R247: the outcome is TOO_BIG exactly when the 64-bit form's high word is present and above `2^21 - 1`. -/
def Obligations.TooBigExactlyByGuard : Prop :=
  ∀ B : List Byte, decodeBuffer B = .tooBig ↔
    6 ≤ B.length ∧ (byteAt B 1).extractLsb' 0 7 = 127#7 ∧ 2 ^ 21 - 1 < memRead B 2 4

/-- R95, R154: in the 64-bit form the guard passes exactly when the top 11 bits of the length are zero, that is when
byte 2 is 0 and byte 3 at most 0x1F; and so say the four bytes it compares. -/
def Obligations.GuardReadsTopElevenBits : Prop :=
  ∀ B : List Byte, 6 ≤ B.length →
    ((byteAt B 1).extractLsb' 0 7 = 127#7 →
      (decodeBuffer B ≠ .tooBig ↔ byteAt B 2 = 0#8 ∧ (byteAt B 3).toNat ≤ 0x1F)) ∧
    (memRead B 2 4 ≤ 2 ^ 21 - 1 ↔ byteAt B 2 = 0#8 ∧ (byteAt B 3).toNat ≤ 0x1F)

/-- R130, R151, R160: byte 0 changes nothing but the five fields it holds: not the outcome, the payload or the rest. -/
def Obligations.ByteZeroIsOnlyReported : Prop :=
  ∀ (b c : Byte) (rest : List Byte),
    decodeBuffer (c :: rest) =
      match decodeBuffer (b :: rest) with
      | .ok f =>
        .ok { f with fin := c.getLsbD 7, rsv1 := c.getLsbD 6, rsv2 := c.getLsbD 5, rsv3 := c.getLsbD 4
                     opcode := c.extractLsb' 0 4 }
      | .tooBig => .tooBig
      | .short => .short

/-- R192, R193, R199: an encoded frame starts with the type byte, has the mask bit set, and has `6 + E + n` bytes. -/
def Obligations.EncodedFrameShape : Prop :=
  ∀ (P : List Byte) (t : Byte) (K : Key) (W : List Byte), encodeFrame P t K = some W →
    W[0]? = some t ∧ (∃ b, W[1]? = some b ∧ b.getLsbD 7 = true) ∧
      W.length = 6 + (if P.length ≤ 125 then 0 else if P.length ≤ 65535 then 2 else 8) + P.length

/-- R211: the length boundaries of the encoder's strategies: second byte and extension. -/
def Obligations.LengthStrategyBoundaries : Prop :=
  ∀ (t : Byte) (K : Key),
    (encodedHeader t 0 K).take 2 = [t, 0x80#8] ∧ lengthExtension 0 = [] ∧
    (encodedHeader t 125 K).take 2 = [t, 0xFD#8] ∧ lengthExtension 125 = [] ∧
    (encodedHeader t 126 K).take 2 = [t, 0xFE#8] ∧ lengthExtension 126 = [0x00#8, 0x7E#8] ∧
    (encodedHeader t 65535 K).take 2 = [t, 0xFE#8] ∧ lengthExtension 65535 = [0xFF#8, 0xFF#8] ∧
    (encodedHeader t 65536 K).take 2 = [t, 0xFF#8] ∧ lengthExtension 65536 = [0#8, 0#8, 0#8, 0#8, 0#8, 1#8, 0#8, 0#8] ∧
    lengthExtension (BitVec.ofNat 32 (2 ^ 32 - 1)) = [0#8, 0#8, 0#8, 0#8, 0xFF#8, 0xFF#8, 0xFF#8, 0xFF#8]
end

