-- ==== Sys2Proof/Laws/State.lean ====
section
/-! SUPPORT. One lemma per field per update of the state, so that no proof unfolds an update. -/

namespace Sys2Proof.Machine

@[simp] theorem endTurn_dec (s : State) (a : Agent) : (s.endTurn a).dec = s.dec := rfl
@[simp] theorem endTurn_enc (s : State) (a : Agent) : (s.endTurn a).enc = s.enc := rfl
@[simp] theorem endTurn_dIn (s : State) (a : Agent) : (s.endTurn a).dIn = s.dIn := rfl
@[simp] theorem endTurn_eCmd (s : State) (a : Agent) : (s.endTurn a).eCmd = s.eCmd := rfl
@[simp] theorem endTurn_eIn (s : State) (a : Agent) : (s.endTurn a).eIn = s.eIn := rfl
@[simp] theorem endTurn_dOutReady (s : State) (a : Agent) : (s.endTurn a).dOutReady = s.dOutReady := rfl
@[simp] theorem endTurn_eOutReady (s : State) (a : Agent) : (s.endTurn a).eOutReady = s.eOutReady := rfl
@[simp] theorem endTurn_dTrace (s : State) (a : Agent) : (s.endTurn a).dTrace = s.dTrace := rfl
@[simp] theorem endTurn_eTrace (s : State) (a : Agent) : (s.endTurn a).eTrace = s.eTrace := rfl
@[simp] theorem endTurn_calls (s : State) (a : Agent) : (s.endTurn a).calls = s.calls := rfl
@[simp] theorem endTurn_args (s : State) (a : Agent) : (s.endTurn a).args = s.args := rfl
@[simp] theorem endTurn_callLog (s : State) (a : Agent) : (s.endTurn a).callLog = s.callLog := rfl
@[simp] theorem endTurn_script (s : State) (a : Agent) : (s.endTurn a).script = dropTurn a s.script := rfl
@[simp] theorem endTurn_mayWithdraw (s : State) (a : Agent) : (s.endTurn a).mayWithdraw = s.mayWithdraw := rfl
@[simp] theorem endTurn_resets (s : State) (a : Agent) : (s.endTurn a).resets = s.resets := rfl

@[simp] theorem emitOut_dec (s : State) (o : EncResult) : (s.emitOut o).dec = s.dec := rfl
@[simp] theorem emitOut_enc (s : State) (o : EncResult) : (s.emitOut o).enc = o.regs := rfl
@[simp] theorem emitOut_dIn (s : State) (o : EncResult) : (s.emitOut o).dIn = s.dIn := rfl
@[simp] theorem emitOut_eCmd (s : State) (o : EncResult) : (s.emitOut o).eCmd = s.eCmd := rfl
@[simp] theorem emitOut_eIn (s : State) (o : EncResult) : (s.emitOut o).eIn = s.eIn := rfl
@[simp] theorem emitOut_dOutReady (s : State) (o : EncResult) : (s.emitOut o).dOutReady = s.dOutReady := rfl
@[simp] theorem emitOut_eOutReady (s : State) (o : EncResult) : (s.emitOut o).eOutReady = s.eOutReady := rfl
@[simp] theorem emitOut_dTrace (s : State) (o : EncResult) : (s.emitOut o).dTrace = s.dTrace := rfl
@[simp] theorem emitOut_eTrace (s : State) (o : EncResult) : (s.emitOut o).eTrace = s.eTrace ++ [o.event] := rfl
@[simp] theorem emitOut_calls (s : State) (o : EncResult) : (s.emitOut o).calls = s.calls := rfl
@[simp] theorem emitOut_args (s : State) (o : EncResult) : (s.emitOut o).args = s.args := rfl
@[simp] theorem emitOut_callLog (s : State) (o : EncResult) : (s.emitOut o).callLog = s.callLog := rfl
@[simp] theorem emitOut_script (s : State) (o : EncResult) : (s.emitOut o).script = s.script := rfl
@[simp] theorem emitOut_mayWithdraw (s : State) (o : EncResult) : (s.emitOut o).mayWithdraw = s.mayWithdraw := rfl
@[simp] theorem emitOut_resets (s : State) (o : EncResult) : (s.emitOut o).resets = s.resets := rfl

@[simp] theorem popMove_dec (s : State) : (s.popMove).dec = s.dec := rfl
@[simp] theorem popMove_enc (s : State) : (s.popMove).enc = s.enc := rfl
@[simp] theorem popMove_dIn (s : State) : (s.popMove).dIn = s.dIn := rfl
@[simp] theorem popMove_eCmd (s : State) : (s.popMove).eCmd = s.eCmd := rfl
@[simp] theorem popMove_eIn (s : State) : (s.popMove).eIn = s.eIn := rfl
@[simp] theorem popMove_dOutReady (s : State) : (s.popMove).dOutReady = s.dOutReady := rfl
@[simp] theorem popMove_eOutReady (s : State) : (s.popMove).eOutReady = s.eOutReady := rfl
@[simp] theorem popMove_dTrace (s : State) : (s.popMove).dTrace = s.dTrace := rfl
@[simp] theorem popMove_eTrace (s : State) : (s.popMove).eTrace = s.eTrace := rfl
@[simp] theorem popMove_calls (s : State) : (s.popMove).calls = s.calls := rfl
@[simp] theorem popMove_args (s : State) : (s.popMove).args = s.args := rfl
@[simp] theorem popMove_callLog (s : State) : (s.popMove).callLog = s.callLog := rfl
@[simp] theorem popMove_script (s : State) : (s.popMove).script = s.script.tail := rfl
@[simp] theorem popMove_mayWithdraw (s : State) : (s.popMove).mayWithdraw = s.mayWithdraw := rfl
@[simp] theorem popMove_resets (s : State) : (s.popMove).resets = s.resets := rfl

@[simp] theorem giveTurn_dec (s : State) (a : Agent) : (s.giveTurn a).dec = s.dec := rfl
@[simp] theorem giveTurn_enc (s : State) (a : Agent) : (s.giveTurn a).enc = s.enc := rfl
@[simp] theorem giveTurn_dIn (s : State) (a : Agent) : (s.giveTurn a).dIn = s.dIn := rfl
@[simp] theorem giveTurn_eCmd (s : State) (a : Agent) : (s.giveTurn a).eCmd = s.eCmd := rfl
@[simp] theorem giveTurn_eIn (s : State) (a : Agent) : (s.giveTurn a).eIn = s.eIn := rfl
@[simp] theorem giveTurn_dOutReady (s : State) (a : Agent) : (s.giveTurn a).dOutReady = s.dOutReady := rfl
@[simp] theorem giveTurn_eOutReady (s : State) (a : Agent) : (s.giveTurn a).eOutReady = s.eOutReady := rfl
@[simp] theorem giveTurn_dTrace (s : State) (a : Agent) : (s.giveTurn a).dTrace = s.dTrace := rfl
@[simp] theorem giveTurn_eTrace (s : State) (a : Agent) : (s.giveTurn a).eTrace = s.eTrace := rfl
@[simp] theorem giveTurn_calls (s : State) (a : Agent) : (s.giveTurn a).calls = s.calls := rfl
@[simp] theorem giveTurn_args (s : State) (a : Agent) : (s.giveTurn a).args = s.args := rfl
@[simp] theorem giveTurn_callLog (s : State) (a : Agent) : (s.giveTurn a).callLog = s.callLog := rfl
@[simp] theorem giveTurn_script (s : State) (a : Agent) : (s.giveTurn a).script = .turn a :: s.script := rfl
@[simp] theorem giveTurn_mayWithdraw (s : State) (a : Agent) : (s.giveTurn a).mayWithdraw = s.mayWithdraw := rfl
@[simp] theorem giveTurn_resets (s : State) (a : Agent) : (s.giveTurn a).resets = s.resets := rfl

@[simp] theorem resetEvent_dec (s : State) : (s.resetEvent).dec = decAfterReset s.resets := rfl
@[simp] theorem resetEvent_enc (s : State) : (s.resetEvent).enc = encAfterReset s.resets := rfl
@[simp] theorem resetEvent_dIn (s : State) : (s.resetEvent).dIn = s.dIn := rfl
@[simp] theorem resetEvent_eCmd (s : State) : (s.resetEvent).eCmd = s.eCmd := rfl
@[simp] theorem resetEvent_eIn (s : State) : (s.resetEvent).eIn = s.eIn := rfl
@[simp] theorem resetEvent_dOutReady (s : State) : (s.resetEvent).dOutReady = s.dOutReady := rfl
@[simp] theorem resetEvent_eOutReady (s : State) : (s.resetEvent).eOutReady = s.eOutReady := rfl
@[simp] theorem resetEvent_dTrace (s : State) : (s.resetEvent).dTrace = s.dTrace := rfl
@[simp] theorem resetEvent_eTrace (s : State) : (s.resetEvent).eTrace = s.eTrace := rfl
@[simp] theorem resetEvent_calls (s : State) : (s.resetEvent).calls = s.calls := rfl
@[simp] theorem resetEvent_args (s : State) : (s.resetEvent).args = s.args := rfl
@[simp] theorem resetEvent_callLog (s : State) : (s.resetEvent).callLog = s.callLog := rfl
@[simp] theorem resetEvent_script (s : State) : (s.resetEvent).script = s.script := rfl
@[simp] theorem resetEvent_mayWithdraw (s : State) : (s.resetEvent).mayWithdraw = ⟨true, true, true, true⟩ := rfl
@[simp] theorem resetEvent_resets (s : State) : (s.resetEvent).resets = s.resets + 1 := rfl

/-! A withdrawal changes the offers of one inlet and nothing else. -/

@[simp] theorem withdraw_dec (s : State) (ch : Inlet) : (s.withdraw ch).dec = s.dec := by
  cases ch <;> simp only [State.withdraw] <;> split <;> rfl
@[simp] theorem withdraw_enc (s : State) (ch : Inlet) : (s.withdraw ch).enc = s.enc := by
  cases ch <;> simp only [State.withdraw] <;> split <;> rfl
@[simp] theorem withdraw_dOutReady (s : State) (ch : Inlet) : (s.withdraw ch).dOutReady = s.dOutReady := by
  cases ch <;> simp only [State.withdraw] <;> split <;> rfl
@[simp] theorem withdraw_eOutReady (s : State) (ch : Inlet) : (s.withdraw ch).eOutReady = s.eOutReady := by
  cases ch <;> simp only [State.withdraw] <;> split <;> rfl
@[simp] theorem withdraw_dTrace (s : State) (ch : Inlet) : (s.withdraw ch).dTrace = s.dTrace := by
  cases ch <;> simp only [State.withdraw] <;> split <;> rfl
@[simp] theorem withdraw_eTrace (s : State) (ch : Inlet) : (s.withdraw ch).eTrace = s.eTrace := by
  cases ch <;> simp only [State.withdraw] <;> split <;> rfl
@[simp] theorem withdraw_callLog (s : State) (ch : Inlet) : (s.withdraw ch).callLog = s.callLog := by
  cases ch <;> simp only [State.withdraw] <;> split <;> rfl
@[simp] theorem withdraw_mayWithdraw (s : State) (ch : Inlet) : (s.withdraw ch).mayWithdraw = s.mayWithdraw := by
  cases ch <;> simp only [State.withdraw] <;> split <;> rfl
@[simp] theorem withdraw_script (s : State) (ch : Inlet) : (s.withdraw ch).script = s.script := by
  cases ch <;> simp only [State.withdraw] <;> split <;> rfl
@[simp] theorem withdraw_resets (s : State) (ch : Inlet) : (s.withdraw ch).resets = s.resets := by
  cases ch <;> simp only [State.withdraw] <;> split <;> rfl

/-- What a withdrawal makes of each inlet: nothing offered where it may, else nothing changed. -/
theorem withdraw_cases (s : State) (ch : Inlet) :
    s.withdraw ch = s ∨
    (ch = .dIn ∧ s.mayWithdraw.dIn = true ∧ s.withdraw ch = { s with dIn := [] }) ∨
    (ch = .eCmd ∧ s.mayWithdraw.eCmd = true ∧ s.withdraw ch = { s with eCmd := [] }) ∨
    (ch = .eIn ∧ s.mayWithdraw.eIn = true ∧ s.withdraw ch = { s with eIn := [] }) ∨
    (ch = .calls ∧ s.mayWithdraw.calls = true ∧ s.withdraw ch = { s with calls := [], args := [] }) := by
  cases ch <;> simp only [State.withdraw] <;> split <;> simp_all

@[simp] theorem dropTurn_nil (a : Agent) : dropTurn a [] = [] := rfl

@[simp] theorem dropTurn_own (a : Agent) (rest : List Move) : dropTurn a (.turn a :: rest) = rest := by
  simp [dropTurn]

/-- A script whose head is another move stays as it is. -/
theorem dropTurn_other (a : Agent) (m : Move) (rest : List Move) (h : m ≠ .turn a) :
    dropTurn a (m :: rest) = m :: rest := by
  simp [dropTurn, h]

@[simp] theorem decAfterReset_phase (n : Nat) : (decAfterReset n).phase = .b0 := rfl
@[simp] theorem encAfterReset_phase (n : Nat) : (encAfterReset n).phase = .idle := rfl

end Sys2Proof.Machine
end

