-- ==== Sys2Proof/Laws/Ops.lean ====
section
/-! SUPPORT. For each shared operation, one lemma that says once everything it can do. -/

namespace Sys2Proof.Machine

/-! ### Ending a call and completing a header -/

@[simp] theorem endCall_regs (r : DecRegs) (st : Status) (l : Bool) (ev : List DecEvent) :
    (endCall r st l ev).regs = { r with phase := .b0 } := rfl

@[simp] theorem endCall_events (r : DecRegs) (st : Status) (l : Bool) (ev : List DecEvent) :
    (endCall r st l ev).events = ev ++ [.done st (closeCode st) (remPresent st l)] := rfl

/-- The header-complete procedure ends the call (no payload, or none in the buffer) or enters D_PAY. -/
theorem headerComplete_cases (r : DecRegs) (l : Bool) :
    (r.len = 0#53 ∧ headerComplete r l = endCall r .ok l [.hdr (hdrOf r)]) ∨
    (r.len ≠ 0#53 ∧ l = true ∧ headerComplete r l = endCall r .short l [.hdr (hdrOf r)]) ∨
    (r.len ≠ 0#53 ∧ l = false ∧
      headerComplete r l = ⟨{ r with cnt := 0#53, phase := .pay }, [.hdr (hdrOf r)]⟩) := by
  unfold headerComplete
  by_cases h : r.len = 0#53
  · simp [h]
  · cases l <;> simp [h]

/-- With the length complete: the key of a masked frame is next, or the header is complete. -/
theorem lengthComplete_cases (r : DecRegs) (l : Bool) :
    (r.masked = true ∧ l = true ∧ lengthComplete r l = endCall r .short l []) ∨
    (r.masked = true ∧ l = false ∧ lengthComplete r l = ⟨{ r with idx := 0#3, phase := .key }, []⟩) ∨
    (r.masked = false ∧ lengthComplete r l = headerComplete r l) := by
  unfold lengthComplete
  cases r.masked <;> cases l <;> simp

@[simp] theorem endsTooBig_nil : endsTooBig [] = false := rfl

@[simp] theorem endsTooBig_hdr (h : Hdr) (ev : List DecEvent) : endsTooBig (.hdr h :: ev) = endsTooBig ev := rfl

@[simp] theorem endsTooBig_pay (d : Byte) (l : Bool) (ev : List DecEvent) :
    endsTooBig (.pay d l :: ev) = endsTooBig ev := rfl

@[simp] theorem endsTooBig_done (st : Status) (c : BitVec 16) (m : Bool) (ev : List DecEvent) :
    endsTooBig (.done st c m :: ev) = (st == .tooBig || endsTooBig ev) := rfl

@[simp] theorem endsTooBig_append (x y : List DecEvent) : endsTooBig (x ++ y) = (endsTooBig x || endsTooBig y) := by
  simp [endsTooBig, List.any_append]

/-- Neither a header's completion nor a payload byte is an oversize error. -/
@[simp] theorem headerComplete_endsTooBig (r : DecRegs) (l : Bool) :
    endsTooBig (headerComplete r l).events = false := by
  unfold headerComplete endCall
  split
  · rfl
  · split <;> rfl

/-! ### The steps of DEC -/

/-- The step in D_B0 ends a one-byte buffer or goes to D_B1. -/
theorem byteZeroStep_cases (r : DecRegs) (f : HeadFlags) (op : BitVec 4) (l : Bool) :
    (l = true ∧ byteZeroStep r f op l = endCall (latchByteZero r f op) .short l []) ∨
    (l = false ∧ byteZeroStep r f op l = ⟨{ latchByteZero r f op with phase := .b1 }, []⟩) := by
  cases l <;> simp [byteZeroStep]

/-- The step in D_B1 has the whole length, or ends a cut buffer, or goes to D_EXT. -/
theorem byteOneStep_cases (r : DecRegs) (m : Bool) (n : BitVec 7) (l : Bool) :
    (n.toNat ≤ 125 ∧
      byteOneStep r m n l = lengthComplete { r with masked := m, len7 := n, len := n.setWidth 53 } l) ∨
    (125 < n.toNat ∧ l = true ∧
      byteOneStep r m n l = endCall { r with masked := m, len7 := n, len := 0#53, idx := 0#3 } .short l []) ∨
    (125 < n.toNat ∧ l = false ∧
      byteOneStep r m n l = ⟨{ r with masked := m, len7 := n, len := 0#53, idx := 0#3, phase := .ext }, []⟩) := by
  unfold byteOneStep Config.len7InlineMax
  by_cases h : n.toNat ≤ 125
  · simp [h]
  · have h' : 125 < n.toNat := by omega
    cases l <;> simp [h, h']

/-- The step in D_EXT fails the guard, completes the length, ends a cut buffer, or stays. -/
theorem extStep_cases (r : DecRegs) (b : Byte) (l : Bool) :
    ((r.len7 = 127#7 ∧ r.idx = 3#3 ∧ 2 ^ 21 - 1 < (shiftInLength r.len b).toNat) ∧
      extStep r b l = endCall { r with len := shiftInLength r.len b } .tooBig l []) ∨
    (¬(r.len7 = 127#7 ∧ r.idx = 3#3 ∧ 2 ^ 21 - 1 < (shiftInLength r.len b).toNat) ∧
      r.idx.toNat + 1 = extTotal r.len7 ∧
      extStep r b l = lengthComplete { r with len := shiftInLength r.len b } l) ∨
    (¬(r.len7 = 127#7 ∧ r.idx = 3#3 ∧ 2 ^ 21 - 1 < (shiftInLength r.len b).toNat) ∧
      r.idx.toNat + 1 ≠ extTotal r.len7 ∧ l = true ∧
      extStep r b l = endCall { r with len := shiftInLength r.len b } .short l []) ∨
    (¬(r.len7 = 127#7 ∧ r.idx = 3#3 ∧ 2 ^ 21 - 1 < (shiftInLength r.len b).toNat) ∧
      r.idx.toNat + 1 ≠ extTotal r.len7 ∧ l = false ∧
      extStep r b l = ⟨{ r with len := shiftInLength r.len b, idx := r.idx + 1#3 }, []⟩) := by
  unfold extStep Config.high32Max Config.len7Ext64
  by_cases h : r.len7 = 127#7 ∧ r.idx = 3#3 ∧ 2 ^ 21 - 1 < (shiftInLength r.len b).toNat
  · exact .inl ⟨h, if_pos h⟩
  · by_cases h' : r.idx.toNat + 1 = extTotal r.len7
    · exact .inr (.inl ⟨h, h', by rw [if_neg h, if_pos h']⟩)
    · cases l
      · exact .inr (.inr (.inr ⟨h, h', rfl, by rw [if_neg h, if_neg h']; rfl⟩))
      · exact .inr (.inr (.inl ⟨h, h', rfl, by rw [if_neg h, if_neg h']; rfl⟩))

/-- The step in D_KEY completes the header, ends a cut buffer, or stays. -/
theorem keyStep_cases (r : DecRegs) (b : Byte) (l : Bool) :
    (r.idx = 3#3 ∧ keyStep r b l = headerComplete { r with key := keySet r.key r.idx.toNat b } l) ∨
    (r.idx ≠ 3#3 ∧ l = true ∧ keyStep r b l = endCall { r with key := keySet r.key r.idx.toNat b } .short l []) ∨
    (r.idx ≠ 3#3 ∧ l = false ∧
      keyStep r b l = ⟨{ r with key := keySet r.key r.idx.toNat b, idx := r.idx + 1#3 }, []⟩) := by
  unfold keyStep
  by_cases h : r.idx = 3#3
  · simp [h]
  · cases l <;> simp [h]

/-- The step in D_PAY delivers the last byte of the frame, ends a cut buffer, or stays. -/
theorem payStep_cases (r : DecRegs) (b : Byte) (l : Bool) :
    (r.cnt + 1#53 = r.len ∧ payStep r b l = endCall r .ok l [.pay (b ^^^ payMask r) true]) ∨
    (r.cnt + 1#53 ≠ r.len ∧ l = true ∧ payStep r b l = endCall r .short l [.pay (b ^^^ payMask r) false]) ∨
    (r.cnt + 1#53 ≠ r.len ∧ l = false ∧
      payStep r b l = ⟨{ r with cnt := r.cnt + 1#53 }, [.pay (b ^^^ payMask r) false]⟩) := by
  by_cases h : r.cnt + 1#53 = r.len
  · simp [payStep, payLast, h]
  · cases l <;> simp [payStep, payLast, h]

/-- DEC waits without a byte; with one it commits the register step. -/
theorem takeBeat_cases (s : State) (f : DecRegs → Beat → DecResult) :
    (s.dIn = [] ∧ takeBeat s f = .next (s.endTurn .dec)) ∨
    (∃ b rest, s.dIn = b :: rest ∧ takeBeat s f = .next { s.endTurn .dec with
      dIn := rest, dec := (f s.dec b).regs, dTrace := s.dTrace ++ (f s.dec b).events
      mayWithdraw := { s.mayWithdraw with dIn := endsTooBig (f s.dec b).events } }) := by
  unfold takeBeat
  cases h : s.dIn with
  | nil => exact .inl ⟨rfl, rfl⟩
  | cons b rest => exact .inr ⟨b, rest, rfl, rfl⟩

/-! ### The steps of ENC -/

/-- The step in E_HDR emits the header byte of `hidx`, and goes on, to the payload, or to E_IDLE. -/
theorem headerStep_cases (r : EncRegs) :
    ((encodedHeader r.typ r.n r.key)[r.hidx.toNat]? = none ∧ headerStep r = none) ∨
    ∃ b, (encodedHeader r.typ r.n r.key)[r.hidx.toNat]? = some b ∧
      ((r.hidx.toNat + 1 = encodedHeaderLength r.n ∧ r.n = 0#32 ∧
          headerStep r = some ⟨{ r with phase := .idle }, ⟨b, true⟩⟩) ∨
       (r.hidx.toNat + 1 = encodedHeaderLength r.n ∧ r.n ≠ 0#32 ∧
          headerStep r = some ⟨{ r with cnt := 0#32, phase := .pay }, ⟨b, false⟩⟩) ∨
       (r.hidx.toNat + 1 ≠ encodedHeaderLength r.n ∧
          headerStep r = some ⟨{ r with hidx := r.hidx + 1#4 }, ⟨b, false⟩⟩)) := by
  unfold headerStep headerLast
  cases h : (encodedHeader r.typ r.n r.key)[r.hidx.toNat]? with
  | none => exact .inl ⟨rfl, rfl⟩
  | some b =>
    refine .inr ⟨b, rfl, ?_⟩
    by_cases h1 : r.hidx.toNat + 1 = encodedHeaderLength r.n
    · by_cases h2 : r.n = 0#32
      · exact .inl ⟨h1, h2, by simp [h1, h2]⟩
      · exact .inr (.inl ⟨h1, h2, by simp [h1, h2]⟩)
    · exact .inr (.inr ⟨h1, by simp [h1]⟩)

/-- The step in E_PAY emits the masked byte, and goes on or to E_IDLE. -/
theorem encPayStep_cases (r : EncRegs) (p : Byte) :
    (r.cnt + 1#32 = r.n ∧ encPayStep r p =
      ⟨{ r with phase := .idle }, ⟨p ^^^ keyLane r.key (r.cnt.extractLsb' 0 2).toNat, true⟩⟩) ∨
    (r.cnt + 1#32 ≠ r.n ∧ encPayStep r p =
      ⟨{ r with cnt := r.cnt + 1#32 }, ⟨p ^^^ keyLane r.key (r.cnt.extractLsb' 0 2).toNat, false⟩⟩) := by
  by_cases h : r.cnt + 1#32 = r.n <;> simp [encPayStep, encPayLast, h]

/-! ### The driver -/

/-- The driver waits for operand bytes, issues the call, or refuses it. -/
theorem performCall_cases (s : State) (n : BitVec 32) (expand : List Byte → Option EncodeArgs) :
    (s.args.length < n.toNat ∧ performCall s n expand = .next (s.endTurn .drv)) ∨
    (n.toNat ≤ s.args.length ∧ ∃ a, expand (s.args.take n.toNat) = some a ∧
      performCall s n expand = .next { s.endTurn .drv with
        calls := s.calls.tail, args := s.args.drop n.toNat,
        eCmd := s.eCmd ++ [⟨a.typ, BitVec.ofNat 32 a.payload.length, a.key⟩], eIn := s.eIn ++ a.payload,
        callLog := s.callLog ++ [.issued]
        mayWithdraw := { s.mayWithdraw with eCmd := false, eIn := false, calls := false } }) ∨
    (n.toNat ≤ s.args.length ∧ expand (s.args.take n.toNat) = none ∧
      performCall s n expand = .next { s.endTurn .drv with
        calls := s.calls.tail, args := s.args.drop n.toNat, callLog := s.callLog ++ [.refused]
        mayWithdraw := { s.mayWithdraw with calls := false } }) := by
  unfold performCall
  by_cases h : s.args.length < n.toNat
  · exact .inl ⟨h, if_pos h⟩
  · rw [if_neg h]
    cases he : expand (s.args.take n.toNat) with
    | none => exact .inr (.inr ⟨by omega, rfl, rfl⟩)
    | some a => exact .inr (.inl ⟨by omega, a, rfl, rfl⟩)

/-! ### The meanings and the step -/

/-- DECODE without a step waits. -/
theorem execDecode_waits (s : State) (h : decEnabled s = false) : execDecode s = .next (s.endTurn .dec) := by
  simp [execDecode, h]

/-- DECODE with a step commits the register step of DEC's phase, or finds no key register. -/
theorem execDecode_steps (s : State) (h : decEnabled s = true) :
    (s.dec.phase = .key ∧ 3 < s.dec.idx.toNat ∧ execDecode s = .fault .keyRegisterAbsent) ∨
    (¬(s.dec.phase = .key ∧ 3 < s.dec.idx.toNat) ∧ execDecode s = takeBeat s decStep) := by
  by_cases hk : s.dec.phase = .key ∧ 3 < s.dec.idx.toNat
  · exact .inl ⟨hk.1, hk.2, by simp [execDecode, h, hk]⟩
  · exact .inr ⟨hk, by rw [execDecode, if_pos h, if_neg hk]⟩

/-- Each OP_* row takes header byte 0 with its own opcode. -/
theorem exec_opcodeInstr (f : HeadFlags) (op : BitVec 4) (s : State) :
    exec (opcodeInstr f op) s = takeByteZero f op s := by
  have h : ∀ v : BitVec 4, exec (opcodeInstr f v) s = takeByteZero f v s := by
    intro v
    obtain ⟨v⟩ := v
    have : ∀ w : Fin 16, exec (opcodeInstr f (BitVec.ofFin w)) s = takeByteZero f (BitVec.ofFin w) s := by
      intro w
      fin_cases w <;> rfl
    exact this v
  exact h op

/-- Each header form takes byte 1 with its own mask flag and `len7`. -/
theorem exec_headerInstr (f : HeadFlags) (op : BitVec 4) (m : Bool) (n : BitVec 7) (s : State) :
    exec (headerInstr f op m n) s = takeByteOne f op m n s := by
  unfold headerInstr Config.len7InlineMax Config.len7Ext16
  by_cases h : n.toNat ≤ 125
  · cases m <;> simp only [h, if_true] <;> rfl
  · by_cases h6 : n = 126#7
    · subst h6
      cases m <;> rfl
    · have h7 : n = 127#7 := by
        have := n.isLt
        have : n.toNat ≠ 126 := fun e => h6 (BitVec.eq_of_toNat_eq (by simpa using e))
        exact BitVec.eq_of_toNat_eq (by simp; omega)
      subst h7
      cases m <;> rfl

end Sys2Proof.Machine
end

