-- ==== Sys2Proof/Laws/Step.lean ====
section
/-! SUPPORT. What one step can do, said once. -/

namespace Sys2Proof.Machine

/-- The fields of header byte 0 survive the byte they are packed into. -/
theorem byteZeroOf_fields (f : HeadFlags) (op : BitVec 4) :
    flagsOf (byteZeroOf f op) = f ∧ opcodeOf (byteZeroOf f op) = op := by
  obtain ⟨a, b, c, d⟩ := f
  revert a b c d op
  decide

/-- Four bytes of a word, put together again, are the word. -/
theorem ofBe32_extract (v : BitVec 32) :
    ofBe32 (v.extractLsb' 24 8) (v.extractLsb' 16 8) (v.extractLsb' 8 8) (v.extractLsb' 0 8) = v := by
  unfold ofBe32
  ext i hi
  simp only [BitVec.getElem_append, BitVec.getElem_extractLsb']
  split
  · simp [BitVec.getLsbD_eq_getElem hi]
  · split
    · simp [show 8 + (i - 8) = i by omega, BitVec.getLsbD_eq_getElem hi]
    · split
      · simp [show 16 + (i - 8 - 8) = i by omega, BitVec.getLsbD_eq_getElem hi]
      · simp [show 24 + (i - 8 - 8 - 8) = i by omega, BitVec.getLsbD_eq_getElem hi]

/-- The nine bytes of a command hold the command. -/
theorem commandOf_commandBytes (c : Command) : commandOf (commandBytes c) = some c := by
  simp [commandBytes, encBe32, commandOf, ofBe32_extract]

theorem fetchedWord_drv (s : State) : fetchedWord s .drv = none ↔ drvEnabled s = false := by
  cases h : s.calls <;> simp [fetchedWord, drvEnabled, h]

theorem fetchedWord_enc (s : State) :
    fetchedWord s .enc = if encEnabled s then some (.command, commandBytes (currentCommand s)) else none := rfl

theorem fetchedWord_dec (s : State) (b : Beat) (rest : List Beat) (h : s.dIn = b :: rest) :
    fetchedWord s .dec = if decEnabled s then some (decWord s b) else none := by
  simp [fetchedWord, h]

/-- What an agent without a step makes of its turn. -/
theorem selectAgent_waits (s : State) (a : Agent) (h : fetchedWord s a = none) : selectAgent s a = .wait a := by
  simp [selectAgent, h]

/-- The turn of DEC with a step is DECODE. -/
theorem run_dec (s : State) (b : Beat) (rest : List Beat) (h : s.dIn = b :: rest) (he : decEnabled s = true) :
    ∃ i, selectAgent s .dec = .run i ∧ exec i s = exec .decode s := by
  have hw : fetchedWord s .dec = some (decWord s b) := by simp [fetchedWord_dec s b rest h, he]
  have ht : s.dec.phase = .b0 ∨ s.dec.phase = .b1 → execDecode s = takeBeat s decStep := by
    rintro (hp | hp) <;> simp [execDecode, he, hp]
  cases hp : s.dec.phase with
  | b0 =>
    refine ⟨opcodeInstr (flagsOf b.data) (opcodeOf b.data), by simp [selectAgent, hw, decWord, hp, decodeWord], ?_⟩
    rw [exec_opcodeInstr]
    show _ = execDecode s
    rw [ht (.inl hp)]
    simp [takeBeat, takeByteZero, h, decStep, hp]
  | b1 =>
    refine ⟨headerInstr (decFlags s.dec) s.dec.opcode (maskedOf b.data) (len7Of b.data),
      by simp [selectAgent, hw, decWord, hp, decodeWord, byteZeroOf_fields], ?_⟩
    rw [exec_headerInstr]
    show _ = execDecode s
    rw [ht (.inr hp)]
    have e : latchByteZero s.dec (decFlags s.dec) s.dec.opcode = s.dec := rfl
    simp [takeBeat, takeByteOne, h, decStep, hp, e]
  | ext => exact ⟨_, by simp [selectAgent, hw, decWord, hp, decodeWord], rfl⟩
  | key => exact ⟨_, by simp [selectAgent, hw, decWord, hp, decodeWord], rfl⟩
  | pay => exact ⟨_, by simp [selectAgent, hw, decWord, hp, decodeWord], rfl⟩

/-- The turn of ENC with a step is ENCODE of its command. -/
theorem run_enc (s : State) (he : encEnabled s = true) :
    selectAgent s .enc =
      .run (.encode (currentCommand s).typ (currentCommand s).len (currentCommand s).key) := by
  simp [selectAgent, fetchedWord_enc, he, decodeWord, commandOf_commandBytes]

/-- The turn of the driver with a step is its oldest call's row, or a refusal. -/
theorem run_drv (s : State) (c : Command) (rest : List Command) (h : s.calls = c :: rest)
    (he : drvEnabled s = true) :
    selectAgent s .drv = match builderInstr c with | .ok i => .run i | .error w => .reject w := by
  cases hb : builderInstr c <;> simp [selectAgent, fetchedWord, h, he, decodeWord, commandOf_commandBytes, hb]

/-- A step of DEC: it has taken the oldest transfer of `d_in`. -/
def DecMoves (s t : State) : Prop :=
  ∃ b rest, s.dIn = b :: rest ∧ decEnabled s = true ∧ ¬(s.dec.phase = .key ∧ 3 < s.dec.idx.toNat) ∧
    t = { s.endTurn .dec with
      dIn := rest, dec := (decStep s.dec b).regs, dTrace := s.dTrace ++ (decStep s.dec b).events
      mayWithdraw := { s.mayWithdraw with dIn := endsTooBig (decStep s.dec b).events } }

/-- A step of ENC: it has accepted a command, emitted a header byte, or emitted a payload byte. -/
def EncMoves (s t : State) : Prop :=
  (∃ c rest, s.enc.phase = .idle ∧ s.eCmd = c :: rest ∧
    t = { s.endTurn .enc with
      eCmd := rest, enc := acceptCommand s.enc c.typ c.len c.key
      mayWithdraw := { s.mayWithdraw with eCmd := false, eIn := false } }) ∨
  (∃ o, s.enc.phase = .hdr ∧ s.eOutReady = true ∧ headerStep s.enc = some o ∧ t = (s.endTurn .enc).emitOut o) ∨
  (∃ p rest, s.enc.phase = .pay ∧ s.eOutReady = true ∧ s.eIn = p :: rest ∧
    t = { (s.endTurn .enc).emitOut (encPayStep s.enc p) with
      eIn := rest, mayWithdraw := { s.mayWithdraw with eIn := false } })

/-- A step of the driver: it has issued or refused its oldest call. -/
def DrvMoves (s t : State) : Prop :=
  ∃ (c : Command) (rest : List Command) (expand : List Byte → Option EncodeArgs), s.calls = c :: rest ∧
    c.len.toNat ≤ s.args.length ∧ performCall s c.len expand = .next t

theorem decode_moves (s t : State) (h : exec .decode s = .next t) (he : decEnabled s = true) : DecMoves s t := by
  rcases execDecode_steps s he with ⟨-, -, hf⟩ | ⟨hk, hn⟩
  · rw [show exec .decode s = execDecode s from rfl, hf] at h
    cases h
  · rw [show exec .decode s = execDecode s from rfl, hn] at h
    rcases takeBeat_cases s decStep with ⟨hd, -⟩ | ⟨b, rest, hd, ht⟩
    · simp [decEnabled, hd] at he
    · rw [ht] at h
      exact ⟨b, rest, hd, he, hk, by simpa using h.symm⟩

theorem encode_moves (s t : State) (he : encEnabled s = true)
    (h : exec (.encode (currentCommand s).typ (currentCommand s).len (currentCommand s).key) s = .next t) :
    EncMoves s t := by
  change execEncode _ _ _ s = .next t at h
  cases hp : s.enc.phase with
  | idle =>
    cases hc : s.eCmd with
    | nil => simp [encEnabled, hp, hc] at he
    | cons c rest =>
      refine .inl ⟨c, rest, hp, hc, ?_⟩
      simpa [execEncode, currentCommand, hp, hc, eq_comm] using h
  | hdr =>
    have hr : s.eOutReady = true := by simpa [encEnabled, hp] using he
    cases ho : headerStep s.enc with
    | none => simp [execEncode, hp, hr, ho] at h
    | some o => exact .inr (.inl ⟨o, hp, hr, ho, by simpa [execEncode, hp, hr, ho, eq_comm] using h⟩)
  | pay =>
    have hr : s.eIn ≠ [] ∧ s.eOutReady = true := by simpa [encEnabled, hp] using he
    cases hi : s.eIn with
    | nil => exact absurd hi hr.1
    | cons p rest =>
      exact .inr (.inr ⟨p, rest, hp, hr.2, hi, by simpa [execEncode, hp, hr.2, hi, eq_comm] using h⟩)

theorem call_moves (s t : State) (c : Command) (rest : List Command) (hc : s.calls = c :: rest) (i : Instr)
    (he : drvEnabled s = true) (hi : builderInstr c = .ok i) (h : exec i s = .next t) : DrvMoves s t := by
  have hn : c.len.toNat ≤ s.args.length := by simpa [drvEnabled, hc] using he
  unfold builderInstr at hi
  split at hi
  · cases hi
    exact ⟨c, rest, fun p => some (buildMessage p false c.key), hc, hn, h⟩
  · split at hi
    · cases hi
      exact ⟨c, rest, fun p => some (buildMessage p true c.key), hc, hn, h⟩
    · split at hi
      · cases hi
        exact ⟨c, rest, fun p => some (buildPing p c.key), hc, hn, h⟩
      · split at hi
        · cases hi
          exact ⟨c, rest, fun p => some (buildPong p c.key), hc, hn, h⟩
        · split at hi
          · cases hi
            exact ⟨c, rest, closeOfOperands c.key, hc, hn, h⟩
          · cases hi

/-- What the turn of an agent can do. -/
theorem selectAgent_cases (s t : State) (a : Agent) (h : (match selectAgent s a with
      | .run i => exec i s
      | .wait a => .next (s.endTurn a)
      | .env m => .next (environmentMove s.popMove m)
      | .reject why => .refused (.undecodable why)
      | .idle => .next s : Host.Outcome State Fault Refusal) = .next t) :
    t = s.endTurn a ∨ (a = .dec ∧ DecMoves s t) ∨ (a = .enc ∧ EncMoves s t) ∨ (a = .drv ∧ DrvMoves s t) := by
  cases hw : fetchedWord s a with
  | none =>
    rw [selectAgent_waits s a hw] at h
    exact .inl (by simpa [eq_comm] using h)
  | some w =>
    cases a with
    | dec =>
      cases hd : s.dIn with
      | nil => simp [fetchedWord, hd] at hw
      | cons b rest =>
        have he : decEnabled s = true := by
          rw [fetchedWord_dec s b rest hd] at hw
          by_contra hn
          simp [hn] at hw
        obtain ⟨i, hi, hx⟩ := run_dec s b rest hd he
        rw [hi] at h
        exact .inr (.inl ⟨rfl, decode_moves s t (hx ▸ h) he⟩)
    | enc =>
      have he : encEnabled s = true := by
        rw [fetchedWord_enc] at hw
        by_contra hn
        simp [hn] at hw
      rw [run_enc s he] at h
      exact .inr (.inr (.inl ⟨rfl, encode_moves s t he h⟩))
    | drv =>
      cases hc : s.calls with
      | nil => simp [fetchedWord, hc] at hw
      | cons c rest =>
        have he : drvEnabled s = true := by
          by_contra hn
          have := (fetchedWord_drv s).2 (by simpa using hn)
          rw [this] at hw
          cases hw
        rw [run_drv s c rest hc he] at h
        cases hb : builderInstr c with
        | error w => simp [hb] at h
        | ok i =>
          rw [hb] at h
          exact .inr (.inr (.inr ⟨rfl, call_moves s t c rest hc i he hb h⟩))

/-- Everything a step that answers a next state can have done: nothing, a turn passed, a step of one agent, or a move
of the environment. -/
theorem step_cases (s t : State) (h : step s = .next t) :
    t = s ∨ (∃ a, t = s.endTurn a) ∨ DecMoves s t ∨ EncMoves s t ∨ DrvMoves s t ∨
      (∃ m rest, s.script = m :: rest ∧ (∀ a, m ≠ .turn a) ∧ t = environmentMove s.popMove m) := by
  have agent : ∀ a, select s = selectAgent s a →
      t = s ∨ (∃ a, t = s.endTurn a) ∨ DecMoves s t ∨ EncMoves s t ∨ DrvMoves s t ∨
        (∃ m rest, s.script = m :: rest ∧ (∀ a, m ≠ .turn a) ∧ t = environmentMove s.popMove m) := by
    intro a hs
    rw [step, hs] at h
    rcases selectAgent_cases s t a h with h | ⟨-, h⟩ | ⟨-, h⟩ | ⟨-, h⟩
    · exact .inr (.inl ⟨a, h⟩)
    · exact .inr (.inr (.inl h))
    · exact .inr (.inr (.inr (.inl h)))
    · exact .inr (.inr (.inr (.inr (.inl h))))
  cases hs : s.script with
  | nil =>
    by_cases h1 : drvEnabled s = true
    · simpa [hs] using agent .drv (by simp [select, hs, h1])
    · by_cases h2 : encEnabled s = true
      · simpa [hs] using agent .enc (by simp [select, hs, h1, h2])
      · by_cases h3 : decEnabled s = true
        · simpa [hs] using agent .dec (by simp [select, hs, h1, h2, h3])
        · left
          simpa [step, select, hs, h1, h2, h3, eq_comm] using h
  | cons m rest =>
    cases m with
    | turn a => simpa [hs] using agent a (by simp [select, hs])
    | _ =>
      refine .inr (.inr (.inr (.inr (.inr ⟨_, rest, rfl, by simp, ?_⟩))))
      simpa [step, select, hs, eq_comm] using h

end Sys2Proof.Machine
end

