-- ==== Sys2Proof/Laws/Block.lean ====
section
/-! SUPPORT. The moves of the two units are steps of the block on an input the environment gives. -/

namespace Sys2Proof.Machine

/-- A step of DEC is the block's step on the oldest byte of `d_in`, which leaves the channel. -/
theorem DecMoves.stepsOn_byte {s t : State} (h : DecMoves s t) :
    ∃ b, s.dIn = b :: t.dIn ∧ stepsOn s t (.byte b) := by
  obtain ⟨b, rest, hd, he, hk, rfl⟩ := h
  refine ⟨b, hd, ⟨by simp [hd], fun hp => ?_⟩, _, if_neg hk, rfl, rfl, by simp⟩
  simpa [decEnabled, hd, hp] using he

/-- A step of ENC is the block's step on the oldest command, on a grant, or on the oldest byte of `e_in`; what is taken
leaves its channel and no other. -/
theorem EncMoves.stepsOn_input {s t : State} (h : EncMoves s t) :
    (∃ c, s.eCmd = c :: t.eCmd ∧ t.eIn = s.eIn ∧ stepsOn s t (.command c)) ∨
    (t.eCmd = s.eCmd ∧ t.eIn = s.eIn ∧ stepsOn s t .grant) ∨
    (∃ p, t.eCmd = s.eCmd ∧ s.eIn = p :: t.eIn ∧ stepsOn s t (.payload p)) := by
  rcases h with ⟨c, rest, hp, hc, rfl⟩ | ⟨o, hp, hr, ho, rfl⟩ | ⟨p, rest, hp, hr, hi, rfl⟩
  · exact .inl ⟨c, hc, rfl, by simp [environmentGives, hc], ⟨_, [], []⟩, by simp only [Block.step, hp]; rfl, rfl,
      by simp, by simp⟩
  · exact .inr (.inl ⟨rfl, rfl, by simp [environmentGives, hr], ⟨_, [], [o.event]⟩,
      by simp only [Block.step, hp, ho]; rfl, rfl, by simp, by simp⟩)
  · exact .inr (.inr ⟨p, rfl, hi, by simp [environmentGives, hr, hi], ⟨_, [], [_]⟩,
      by simp only [Block.step, hp]; rfl, rfl, by simp, by simp⟩)

/-- A step of the driver leaves the block and the traces as they are and takes its oldest call. -/
theorem DrvMoves.takes_call {s t : State} (h : DrvMoves s t) :
    t.toBlock = s.toBlock ∧ t.dTrace = s.dTrace ∧ t.eTrace = s.eTrace ∧ (∃ c, s.calls = c :: t.calls) ∧
      ∃ r, t.callLog = s.callLog ++ [r] := by
  obtain ⟨c, rest, expand, hc, hn, hp⟩ := h
  rcases performCall_cases s c.len expand with ⟨hl, -⟩ | ⟨-, a, -, hh⟩ | ⟨-, -, hh⟩
  · omega
  · rw [hh] at hp
    cases hp
    exact ⟨rfl, rfl, rfl, ⟨c, by simp [hc]⟩, _, rfl⟩
  · rw [hh] at hp
    cases hp
    exact ⟨rfl, rfl, rfl, ⟨c, by simp [hc]⟩, _, rfl⟩

end Sys2Proof.Machine
end

