-- ==== Sys2Proof/Laws/PerInstr.lean ====
section
/-! SUPPORT. Families of statements made once per instruction. -/

namespace Sys2Proof.Laws

/-- The encoding of an instruction has the width of its slot: 9 bytes for a command, 2 for a header form, 1 for an
opcode, none for DECODE. -/
def EncodedWidth.Statement (i : Instr) : Prop := (encodeWord i).length = slotBytes (slotOf i)

theorem EncodedWidth.decode : EncodedWidth.Statement .decode := rfl
theorem EncodedWidth.encode (t : Byte) (n k : BitVec 32) : EncodedWidth.Statement (.encode t n k) := rfl
theorem EncodedWidth.buildMessageText (n k : BitVec 32) : EncodedWidth.Statement (.buildMessageText n k) := rfl
theorem EncodedWidth.buildMessageBinary (n k : BitVec 32) : EncodedWidth.Statement (.buildMessageBinary n k) := rfl
theorem EncodedWidth.buildPing (n k : BitVec 32) : EncodedWidth.Statement (.buildPing n k) := rfl
theorem EncodedWidth.buildPong (n k : BitVec 32) : EncodedWidth.Statement (.buildPong n k) := rfl
theorem EncodedWidth.buildClose (n k : BitVec 32) : EncodedWidth.Statement (.buildClose n k) := rfl
theorem EncodedWidth.h7u (f : HeadFlags) (op : BitVec 4) (len7 : BitVec 7) : EncodedWidth.Statement (.h7u f op len7) := rfl
theorem EncodedWidth.h7m (f : HeadFlags) (op : BitVec 4) (len7 : BitVec 7) : EncodedWidth.Statement (.h7m f op len7) := rfl
theorem EncodedWidth.h16u (f : HeadFlags) (op : BitVec 4) : EncodedWidth.Statement (.h16u f op) := rfl
theorem EncodedWidth.h16m (f : HeadFlags) (op : BitVec 4) : EncodedWidth.Statement (.h16m f op) := rfl
theorem EncodedWidth.h64u (f : HeadFlags) (op : BitVec 4) : EncodedWidth.Statement (.h64u f op) := rfl
theorem EncodedWidth.h64m (f : HeadFlags) (op : BitVec 4) : EncodedWidth.Statement (.h64m f op) := rfl
theorem EncodedWidth.opContinuation (f : HeadFlags) : EncodedWidth.Statement (.opContinuation f) := rfl
theorem EncodedWidth.opText (f : HeadFlags) : EncodedWidth.Statement (.opText f) := rfl
theorem EncodedWidth.opBinary (f : HeadFlags) : EncodedWidth.Statement (.opBinary f) := rfl
theorem EncodedWidth.opReservedData3 (f : HeadFlags) : EncodedWidth.Statement (.opReservedData3 f) := rfl
theorem EncodedWidth.opReservedData4 (f : HeadFlags) : EncodedWidth.Statement (.opReservedData4 f) := rfl
theorem EncodedWidth.opReservedData5 (f : HeadFlags) : EncodedWidth.Statement (.opReservedData5 f) := rfl
theorem EncodedWidth.opReservedData6 (f : HeadFlags) : EncodedWidth.Statement (.opReservedData6 f) := rfl
theorem EncodedWidth.opReservedData7 (f : HeadFlags) : EncodedWidth.Statement (.opReservedData7 f) := rfl
theorem EncodedWidth.opClose (f : HeadFlags) : EncodedWidth.Statement (.opClose f) := rfl
theorem EncodedWidth.opPing (f : HeadFlags) : EncodedWidth.Statement (.opPing f) := rfl
theorem EncodedWidth.opPong (f : HeadFlags) : EncodedWidth.Statement (.opPong f) := rfl
theorem EncodedWidth.opReservedControlB (f : HeadFlags) : EncodedWidth.Statement (.opReservedControlB f) := rfl
theorem EncodedWidth.opReservedControlC (f : HeadFlags) : EncodedWidth.Statement (.opReservedControlC f) := rfl
theorem EncodedWidth.opReservedControlD (f : HeadFlags) : EncodedWidth.Statement (.opReservedControlD f) := rfl
theorem EncodedWidth.opReservedControlE (f : HeadFlags) : EncodedWidth.Statement (.opReservedControlE f) := rfl
theorem EncodedWidth.opReservedControlF (f : HeadFlags) : EncodedWidth.Statement (.opReservedControlF f) := rfl

end Sys2Proof.Laws
end

