-- ==== Sys2Proof/Tests/Slice0.lean ====
section
/-! SUPPORT. Tests: ill-formed terms refused, words written out from the encodings, vectors of spec/95_test_vectors.md,
one step per instruction, and a witness for the hypotheses of every statement. -/

namespace Sys2Proof.Tests

open Sys2Proof Sys2Proof.Machine

/-! ### Well-formedness -/

/-- H7U and H7M hold `len7` up to 125 (R100, column constraint); 126 and 127 are other forms. -/
theorem test_h7u_len7_126_refused : wellFormed (.h7u ⟨true, false, false, false⟩ 1#4 126#7) = false := by decide
theorem test_h7m_len7_127_refused : wellFormed (.h7m ⟨true, false, false, false⟩ 1#4 127#7) = false := by decide
theorem test_h7u_len7_125_accepted : wellFormed (.h7u ⟨true, false, false, false⟩ 1#4 125#7) = true := by decide
theorem test_h7m_len7_125_accepted : wellFormed (.h7m ⟨true, false, false, false⟩ 1#4 125#7) = true := by decide

/-! ### Decoding: every constructor's word, bit by bit from the encoding column of the opcode table -/

/-- `FRRRoooo` with `F R R R` = 1 0 1 0 (R91, R131 to R138). -/
theorem test_opcode_words_decode :
    decodeTableWord 8 0b10100000 = some (.opContinuation ⟨true, false, true, false⟩) ∧
    decodeTableWord 8 0b10100001 = some (.opText ⟨true, false, true, false⟩) ∧
    decodeTableWord 8 0b10100010 = some (.opBinary ⟨true, false, true, false⟩) ∧
    decodeTableWord 8 0b10100011 = some (.opReservedData3 ⟨true, false, true, false⟩) ∧
    decodeTableWord 8 0b10100100 = some (.opReservedData4 ⟨true, false, true, false⟩) ∧
    decodeTableWord 8 0b10100101 = some (.opReservedData5 ⟨true, false, true, false⟩) ∧
    decodeTableWord 8 0b10100110 = some (.opReservedData6 ⟨true, false, true, false⟩) ∧
    decodeTableWord 8 0b10100111 = some (.opReservedData7 ⟨true, false, true, false⟩) ∧
    decodeTableWord 8 0b10101000 = some (.opClose ⟨true, false, true, false⟩) ∧
    decodeTableWord 8 0b10101001 = some (.opPing ⟨true, false, true, false⟩) ∧
    decodeTableWord 8 0b10101010 = some (.opPong ⟨true, false, true, false⟩) ∧
    decodeTableWord 8 0b10101011 = some (.opReservedControlB ⟨true, false, true, false⟩) ∧
    decodeTableWord 8 0b10101100 = some (.opReservedControlC ⟨true, false, true, false⟩) ∧
    decodeTableWord 8 0b10101101 = some (.opReservedControlD ⟨true, false, true, false⟩) ∧
    decodeTableWord 8 0b10101110 = some (.opReservedControlE ⟨true, false, true, false⟩) ∧
    decodeTableWord 8 0b10101111 = some (.opReservedControlF ⟨true, false, true, false⟩) := by decide

/-- `FRRRoooo` then byte 1 (R92, R100), with `F R R R` = 0 1 0 1, opcode 2. -/
theorem test_header_words_decode :
    decodeTableWord 16 0b0101001001111101 = some (.h7u ⟨false, true, false, true⟩ 2#4 125#7) ∧
    decodeTableWord 16 0b0101001010000101 = some (.h7m ⟨false, true, false, true⟩ 2#4 5#7) ∧
    decodeTableWord 16 0b0101001001111110 = some (.h16u ⟨false, true, false, true⟩ 2#4) ∧
    decodeTableWord 16 0b0101001011111110 = some (.h16m ⟨false, true, false, true⟩ 2#4) ∧
    decodeTableWord 16 0b0101001001111111 = some (.h64u ⟨false, true, false, true⟩ 2#4) ∧
    decodeTableWord 16 0b0101001011111111 = some (.h64m ⟨false, true, false, true⟩ 2#4) := by decide

/-- The type byte, then `e_len`, then `e_key` (R42, R221 to R224; E2, E9, E11, E13, E15 of the vectors). -/
theorem test_command_words_decode :
    decodeTableWord 72 0x810000000537FA213D = some (.buildMessageText 5#32 0x37FA213D#32) ∧
    decodeTableWord 72 0x820000000937FA213D = some (.buildMessageBinary 9#32 0x37FA213D#32) ∧
    decodeTableWord 72 0x890000000037FA213D = some (.buildPing 0#32 0x37FA213D#32) ∧
    decodeTableWord 72 0x8A0000000237FA213D = some (.buildPong 2#32 0x37FA213D#32) ∧
    decodeTableWord 72 0x880000000537FA213D = some (.buildClose 5#32 0x37FA213D#32) ∧
    decodeTableWord 72 0x7000000006FF00FF00 = some (.encode 0x70#8 6#32 0xFF00FF00#32) ∧
    decodeTableWord 0 0 = some .decode := by decide

/-- A command on `e_cmd` is ENCODE whatever its type byte (R201). -/
theorem test_command_slot_is_encode :
    decodeWord .command [0x88, 0, 0, 0, 5, 0x37, 0xFA, 0x21, 0x3D] = .ok (.encode 0x88#8 5#32 0x37FA213D#32) := by decide

/-- Words of the wrong width and calls of no builder are refused by name. -/
theorem test_rejects :
    decodeWord .header [0x81] = .error (.wrongWidth 1) ∧ decodeWord .rest [0x81] = .error (.wrongWidth 1) ∧
    decodeWord .call [0x70, 0, 0, 0, 6, 0xFF, 0, 0xFF, 0] = .error (.noSuchBuilder 0x70#8) ∧
    decodeTableWord 24 0 = none := by decide

/-! ### Vectors of the transaction level -/

/-- D1. -/
theorem test_vector_D1 :
    decodeBuffer [0x81, 0x85, 0x37, 0xFA, 0x21, 0x3D, 0x7F, 0x9F, 0x4D, 0x51, 0x58] =
      .ok ⟨true, false, false, false, 1, true, some [0x48, 0x65, 0x6C, 0x6C, 0x6F], none⟩ := by decide

/-- D6 and D7: rsv bits and reserved opcodes pass. -/
theorem test_vectors_D6_D7 :
    decodeBuffer [0xF3, 0x02, 0x41, 0x42] = .ok ⟨true, true, true, true, 3, false, some [0x41, 0x42], none⟩ ∧
    decodeBuffer [0x4B, 0x00] = .ok ⟨false, true, false, false, 0xB, false, none, none⟩ := by decide

/-- D8 and D9: non-minimal lengths pass. -/
theorem test_vectors_D8_D9 :
    decodeBuffer [0x81, 0x7E, 0x00, 0x03, 0x41, 0x42, 0x43] =
      .ok ⟨true, false, false, false, 1, false, some [0x41, 0x42, 0x43], none⟩ ∧
    decodeBuffer [0x81, 0x7F, 0, 0, 0, 0, 0, 0, 0, 0x02, 0x41, 0x42] =
      .ok ⟨true, false, false, false, 1, false, some [0x41, 0x42], none⟩ := by decide

/-- D10 and D19: what follows the frame is `remaining`. -/
theorem test_vectors_D10_D19 :
    decodeBuffer [0x81, 0x05, 0x48, 0x65, 0x6C, 0x6C, 0x6F, 0xFF] =
      .ok ⟨true, false, false, false, 1, false, some [0x48, 0x65, 0x6C, 0x6C, 0x6F], some [0xFF]⟩ ∧
    decodeBuffer [0x89, 0x83, 0xA1, 0xB2, 0xC3, 0xD4, 0xC0, 0xD0, 0xA0, 0x88] =
      .ok ⟨true, false, false, false, 9, true, some [0x61, 0x62, 0x63], some [0x88]⟩ := by decide

/-- D20, D21, D24: the guard; D22: SHORT wins; D23: the guard passes. -/
theorem test_vectors_guard :
    decodeBuffer [0x82, 0x7F, 0, 0x20, 0, 0, 0, 0, 0, 0] = .tooBig ∧
    decodeBuffer [0x82, 0x7F, 0, 0x20, 0, 0] = .tooBig ∧
    decodeBuffer [0x82, 0x7F, 0x80, 0, 0, 0, 0, 0, 0, 1] = .tooBig ∧
    decodeBuffer [0x82, 0x7F, 0, 0x20, 0] = .short ∧
    decodeBuffer [0x82, 0x7F, 0, 0x1F, 0xFF, 0xFF, 0xFF, 0xFF, 0xFF, 0xFF] = .short ∧
    decodeBuffer [] = .short := by decide

/-- E1, E3, E15. -/
theorem test_vectors_encode :
    encodeFrame [0x48, 0x65, 0x6C, 0x6C, 0x6F] 0x81 ⟨0x37, 0xFA, 0x21, 0x3D⟩ =
      some [0x81, 0x85, 0x37, 0xFA, 0x21, 0x3D, 0x7F, 0x9F, 0x4D, 0x51, 0x58] ∧
    encodeFrame [] 0x82 ⟨0x37, 0xFA, 0x21, 0x3D⟩ = some [0x82, 0x80, 0x37, 0xFA, 0x21, 0x3D] ∧
    encodeFrame [1, 2, 3, 4, 5, 6] 0x70 ⟨0xFF, 0, 0xFF, 0⟩ =
      some [0x70, 0x86, 0xFF, 0, 0xFF, 0, 0xFE, 2, 0xFC, 4, 0xFA, 6] := by decide

/-- E8, the header at the top of the domain. -/
theorem test_vector_E8 :
    encodedHeader 0x82 0xFFFFFFFF#32 ⟨1, 2, 3, 4⟩ =
      [0x82, 0xFF, 0, 0, 0, 0, 0xFF, 0xFF, 0xFF, 0xFF, 1, 2, 3, 4] := by decide

/-- E2 in part, E9, E10, E11, E13. -/
theorem test_vectors_builders :
    encodeArgs (buildMessage [0, 1] true 0x37FA213D#32) = some [0x82, 0x82, 0x37, 0xFA, 0x21, 0x3D, 0x37, 0xFB] ∧
    (buildClose 1001#16 [0x62, 0x79, 0x65] 0x37FA213D#32).bind encodeArgs =
      some [0x88, 0x85, 0x37, 0xFA, 0x21, 0x3D, 0x34, 0x13, 0x43, 0x44, 0x52] ∧
    (buildClose (k := 0x37FA213D#32)).bind encodeArgs = some [0x88, 0x82, 0x37, 0xFA, 0x21, 0x3D, 0x34, 0x12] ∧
    encodeArgs (buildPing (k := 0x37FA213D#32)) = some [0x89, 0x80, 0x37, 0xFA, 0x21, 0x3D] ∧
    encodeArgs (buildPong [0x68, 0x69] 0x37FA213D#32) = some [0x8A, 0x82, 0x37, 0xFA, 0x21, 0x3D, 0x5F, 0x93] := by decide

/-- The reason limit of R225: 123 accepted, 124 refused. -/
theorem test_reason_limit :
    (buildClose 1000#16 (List.replicate 123 0x41) 0#32).isSome = true ∧
    buildClose 1000#16 (List.replicate 124 0x41) 0#32 = none := by
  simp [buildClose, Config.reasonMax]

/-- S8: masking zeros shows the key cycle. -/
theorem test_masked_zeros_show_the_key :
    maskXor [0, 0, 0, 0, 0, 0, 0] ⟨0xA1, 0xB2, 0xC3, 0xD4⟩ = [0xA1, 0xB2, 0xC3, 0xD4, 0xA1, 0xB2, 0xC3] := by decide

/-! ### One step of each instruction -/

/-- DEC in a phase, a byte offered, its turn. -/
def atDec (p : DecPhase) (b : Byte) (last : Bool) : State :=
  { State.reset with dec := { State.reset.dec with phase := p }, dIn := [⟨b, last⟩], script := [.turn .dec] }

/-- DEC with the given registers, a byte offered, its turn. -/
def withDec (r : DecRegs) (b : Byte) (last : Bool) : State :=
  { State.reset with dec := r, dIn := [⟨b, last⟩], script := [.turn .dec] }

/-- ENC with the given registers, a payload byte offered, its turn. -/
def withEnc (r : EncRegs) (p : Byte) : State := { State.reset with enc := r, eIn := [p], script := [.turn .enc] }

/-- A call of the driver with its operands, and its turn. -/
def withCall (c : Command) (operands : List Byte) : State :=
  { State.reset with calls := [c], args := operands, script := [.turn .drv] }

/-- A property of the state a step leads to. -/
def after (s : State) (p : State → Bool) : Bool :=
  match step s with
  | .next t => p t
  | .fault _ => false
  | .refused _ => false

/-- R164: byte 0 of D1 is latched; as the last byte of a buffer it is D26. -/
theorem test_step_byte_zero :
    after (atDec .b0 0x81 false) (fun t =>
      t.dec.phase == .b1 && decFlags t.dec == ⟨true, false, false, false⟩ && t.dec.opcode == 1 && t.dIn == []) = true ∧
    after (atDec .b0 0x81 true) (fun t => t.dec.phase == .b0 && t.dTrace == [.done .short 1002 false]) = true := by decide

/-- R164 for each opcode value: the row's step latches it (R130). -/
theorem test_step_each_opcode :
    (List.range 16).all (fun v =>
      after (atDec .b0 (BitVec.ofNat 8 v) false) fun t => t.dec.opcode == BitVec.ofNat 4 v) = true := by decide

/-- H7U on D3: `Hdr`, then `Done OK`. -/
theorem test_step_h7u :
    after (withDec { DecRegs.reset with phase := .b1, fin := true, opcode := 9 } 0x00 true) (fun t =>
      t.dTrace == [.hdr ⟨true, false, false, false, 9, false, 0⟩, .done .ok 0 false] && t.dec.phase == .b0) = true := by
  decide

/-- H7M, H16U, H16M, H64U, H64M: what DEC awaits next. -/
theorem test_step_forms :
    after (atDec .b1 0x85 false) (fun t => t.dec.phase == .key && t.dec.len == 5 && t.dec.idx == 0) = true ∧
    after (atDec .b1 0x7E false) (fun t => t.dec.phase == .ext && !t.dec.masked) = true ∧
    after (atDec .b1 0xFE false) (fun t => t.dec.phase == .ext && t.dec.masked) = true ∧
    after (atDec .b1 0x7F false) (fun t => t.dec.phase == .ext && t.dec.len7 == 127) = true ∧
    after (atDec .b1 0xFF true) (fun t => t.dTrace == [.done .short 1002 false]) = true := by decide

/-- DECODE in D_EXT on the fourth length byte of D20 and of D23. -/
theorem test_step_decode_guard :
    after (withDec { DecRegs.reset with phase := .ext, len7 := 127, idx := 3, len := 0x2000 } 0x00 false) (fun t =>
      t.dTrace == [.done .tooBig 1009 false] && t.dec.phase == .b0) = true ∧
    after (withDec { DecRegs.reset with phase := .ext, len7 := 127, idx := 3, len := 0x1FFF } 0xFF false) (fun t =>
      t.dTrace == [] && t.dec.idx == 4 && t.dec.len == 0x1FFFFF) = true := by decide

/-- DECODE in D_PAY on the first payload byte of D1: `7F ^ 37 = 48` (S5). -/
theorem test_step_decode_payload :
    after (withDec { DecRegs.reset with phase := .pay, masked := true, len := 5, key := ⟨0x37, 0xFA, 0x21, 0x3D⟩ }
      0x7F false) (fun t => t.dTrace == [.pay 0x48 false] && t.dec.cnt == 1) = true := by decide

/-- ENCODE accepts the command of E1 (R204). -/
theorem test_step_encode_accepts :
    after { State.reset with eCmd := [⟨0x81, 5, 0x37FA213D⟩], script := [.turn .enc] } (fun t =>
      t.enc.phase == .hdr && t.enc.typ == 0x81 && t.enc.n == 5 && t.enc.key == ⟨0x37, 0xFA, 0x21, 0x3D⟩ &&
        t.eCmd == []) = true := by decide

/-- ENCODE emits the last header byte of E3 with `last`, and the last byte of E13: `69 ^ FA = 93`. -/
theorem test_step_encode_emits :
    after (withEnc { EncRegs.reset with phase := .hdr, typ := 0x82, hidx := 5, key := ⟨0x37, 0xFA, 0x21, 0x3D⟩ } 0) (fun t =>
      t.eTrace == [⟨0x3D, true⟩] && t.enc.phase == .idle) = true ∧
    after (withEnc { EncRegs.reset with phase := .pay, n := 2, cnt := 1, key := ⟨0x37, 0xFA, 0x21, 0x3D⟩ } 0x69) (fun t =>
      t.eTrace == [⟨0x93, true⟩] && t.enc.phase == .idle && t.eIn == []) = true := by decide

/-- BUILD_MESSAGE, BUILD_PING and BUILD_PONG offer what P1, E11 and E13 say. -/
theorem test_step_builders :
    after (withCall ⟨0x81, 2, 7⟩ [0x41, 0x42]) (fun t =>
      t.eCmd == [⟨0x81, 2, 7⟩] && t.eIn == [0x41, 0x42] && t.calls == []) = true ∧
    after (withCall ⟨0x82, 1, 7⟩ [0x41, 0x42]) (fun t => t.eCmd == [⟨0x82, 1, 7⟩] && t.args == [0x42]) = true ∧
    after (withCall ⟨0x89, 0, 7⟩ []) (fun t => t.eCmd == [⟨0x89, 0, 7⟩] && t.eIn == []) = true ∧
    after (withCall ⟨0x8A, 1, 7⟩ [0x68]) (fun t => t.eCmd == [⟨0x8A, 1, 7⟩] && t.eIn == [0x68]) = true := by decide

/-- BUILD_CLOSE: E10 issued; a reason of 124 bytes refused and nothing offered (R225, R244). -/
theorem test_step_build_close :
    after (withCall ⟨0x88, 2, 7⟩ [3, 0xE8]) (fun t =>
      t.eCmd == [⟨0x88, 2, 7⟩] && t.eIn == [3, 0xE8] && t.callLog == [.issued]) = true ∧
    closeOfOperands 7 (3 :: 0xE8 :: List.replicate 124 0x41) = none ∧
    after (withCall ⟨0x88, 1, 7⟩ [3]) (fun t =>
      t.eCmd == [] && t.eIn == [] && t.args == [] && t.callLog == [.refused]) = true := by
  refine ⟨by decide, by simp [closeOfOperands, buildClose, Config.reasonMax], by decide⟩

/-- P4: after the TOO_BIG of `82 7F 00 20 00 00` the rest of the buffer may be withdrawn; mid-call a byte is held (R66). -/
theorem test_withdraw_only_where_permitted :
    after (withDec { DecRegs.reset with phase := .ext, len7 := 127, idx := 3, len := 0x2000 } 0x00 false) (fun t =>
      t.mayWithdraw.dIn) = true ∧
    after { atDec .key 9 false with script := [.withdraw .dIn], mayWithdraw := ⟨false, true, true, true⟩ } (fun t =>
      t.dIn == [⟨9, false⟩]) = true ∧
    after { atDec .b0 9 false with script := [.withdraw .dIn] } (fun t => t.dIn == []) = true := by decide

/-- A further byte goes behind the one offered (R73). -/
theorem test_offers_queue :
    after { atDec .b0 9 false with script := [.offerByte ⟨7, true⟩] } (fun t =>
      t.dIn == [⟨9, false⟩, ⟨7, true⟩] && !t.mayWithdraw.dIn) = true := by decide

/-- A word placed by withFetchWord is the one the next step runs. -/
theorem test_placed_words_run :
    after (State.reset.withFetchWord 8 0x89) (fun t => t.dec.opcode == 9 && t.dec.phase == .b1) = true ∧
    after (State.reset.withFetchWord 16 0x81FE) (fun t => t.dec.opcode == 1 && t.dec.phase == .ext) = true ∧
    after (State.reset.withFetchWord 0 0) (fun t => t.dec.phase == .key && t.dec.idx == 1) = true ∧
    after (State.reset.withFetchWord 72 0x890000000037FA213D) (fun t => t.eCmd == [⟨0x89, 0, 0x37FA213D⟩]) = true ∧
    after (State.reset.withFetchWord 72 0x010000000037FA213D) (fun t => t.enc.phase == .hdr && t.enc.typ == 1) = true := by
  decide

/-! ### Witnesses: for each statement with hypotheses, a state and operands that meet them -/

/-- A buffer offered whole, and turns of DEC. -/
def offered (B : List Byte) (turns : Nat) : State :=
  { State.reset with dIn := offerBuffer B, script := List.replicate turns (.turn .dec) }

/-- The command and payload of E13 offered, and the turns ENC needs. -/
def commanded : State :=
  { State.reset with eCmd := [⟨0x8A, 2, 0x37FA213D⟩], eIn := [0x68, 0x69], script := List.replicate 9 (.turn .enc) }

/-- After a reset, `e_in` may be withdrawn until ENC accepts a command, and not in the call (R66). -/
theorem test_accepted_command_holds_payload :
    after { commanded with script := [.withdraw .eIn] } (fun t => t.eIn == []) = true ∧
    after commanded (fun t => !t.mayWithdraw.eIn && (t.withdraw .eIn).eIn == [0x68, 0x69]) = true := by decide

theorem witness_OpcodeRowsTakeByteZero :
    (atDec .b0 0x81 false).dIn = ⟨0x81, false⟩ :: [] ∧
      (Instr.opText ⟨true, false, false, false⟩, 1#4) ∈ opcodeRows ⟨true, false, false, false⟩ := by decide

theorem witness_FormH7UCompletesHeader :
    WellFormed (.h7u ⟨true, false, false, false⟩ 1#4 125#7) ∧ (atDec .b1 0x7D false).dIn = ⟨0x7D, false⟩ :: [] := by decide

theorem witness_FormH7MAwaitsKey :
    WellFormed (.h7m ⟨true, false, false, false⟩ 1#4 125#7) ∧ (atDec .b1 0xFD false).dIn = ⟨0xFD, false⟩ :: [] := by decide

theorem witness_ExtendedFormsAwaitLength :
    (atDec .b1 0xFE false).dIn = ⟨0xFE, false⟩ :: [] ∧
      (Instr.h16m ⟨true, false, false, false⟩ 1#4, true, 126#7) ∈ extendedForms ⟨true, false, false, false⟩ 1#4 := by
  decide

theorem witness_DecodeTakesLengthByte :
    (atDec .ext 0 false).dec.phase = .ext ∧ (atDec .ext 0 false).dIn = ⟨0, false⟩ :: [] := by decide

theorem witness_DecodeTakesKeyByte :
    (withDec { DecRegs.reset with phase := .key, idx := 3 } 9 true).dec.phase = .key ∧
      (withDec { DecRegs.reset with phase := .key, idx := 3 } 9 true).dec.idx.toNat ≤ 3 ∧
      (withDec { DecRegs.reset with phase := .key, idx := 3 } 9 true).dIn = ⟨9, true⟩ :: [] := by decide

theorem witness_DecodeTakesPayloadByte :
    (atDec .pay 9 false).dec.phase = .pay ∧ (atDec .pay 9 false).dOutReady = true ∧
      (atDec .pay 9 false).dIn = ⟨9, false⟩ :: [] := by decide

theorem witness_DecodeRunsTheRowItReads :
    (atDec .b0 9 false).dIn = ⟨9, false⟩ :: [] ∧ (atDec .b0 9 false).dec.phase = .b0 ∧
      (atDec .b1 9 false).dIn = ⟨9, false⟩ :: [] ∧ (atDec .b1 9 false).dec.phase = .b1 := by decide

theorem witness_EncodeAcceptsCommand :
    commanded.enc.phase = .idle ∧ commanded.eCmd = ⟨0x8A, 2, 0x37FA213D⟩ :: [] := by decide

theorem witness_EncodeEmitsHeaderByte :
    (withEnc { EncRegs.reset with phase := .hdr, hidx := 5 } 0).enc.phase = .hdr ∧
      (withEnc { EncRegs.reset with phase := .hdr, hidx := 5 } 0).eOutReady = true ∧
      (encodedHeader (withEnc { EncRegs.reset with phase := .hdr, hidx := 5 } 0).enc.typ
        (withEnc { EncRegs.reset with phase := .hdr, hidx := 5 } 0).enc.n
        (withEnc { EncRegs.reset with phase := .hdr, hidx := 5 } 0).enc.key)[
          (withEnc { EncRegs.reset with phase := .hdr, hidx := 5 } 0).enc.hidx.toNat]? = some 0#8 := by decide

theorem witness_EncodeEmitsPayloadByte :
    (withEnc { EncRegs.reset with phase := .pay, n := 2 } 7).enc.phase = .pay ∧
      (withEnc { EncRegs.reset with phase := .pay, n := 2 } 7).eOutReady = true ∧
      (withEnc { EncRegs.reset with phase := .pay, n := 2 } 7).eIn = 7 :: [] := by decide

theorem witness_OpenBuildersOfferOneCommand :
    (withCall ⟨0x8A, 2, 7⟩ [1, 2, 3]).args = [1, 2] ++ [3] ∧ [1#8, 2#8].length = (2#32).toNat ∧
      (Instr.buildPong 2#32 7#32, 0x8A#8) ∈ openBuilders 2#32 7#32 := by decide

theorem witness_BuildCloseOffersOneCommand :
    (withCall ⟨0x88, 125, 7⟩ (encBe16 1000 ++ List.replicate 123 0x41)).args =
        encBe16 1000#16 ++ List.replicate 123 0x41#8 ++ [] ∧
      (125#32).toNat = 2 + (List.replicate 123 0x41#8).length ∧ (List.replicate 123 0x41#8).length ≤ 123 := by
  simp [withCall]

theorem witness_BuildCloseRefusesLongReason :
    (withCall ⟨0x88, 126, 7⟩ (encBe16 1000 ++ List.replicate 124 0x41)).args =
        encBe16 1000#16 ++ List.replicate 124 0x41#8 ++ [] ∧
      (126#32).toNat = 2 + (List.replicate 124 0x41#8).length ∧ 124 ≤ (List.replicate 124 0x41#8).length := by
  simp [withCall]

theorem witness_BuildCloseRefusesMissingCode :
    (withCall ⟨0x88, 1, 7⟩ [3]).args = [3] ++ [] ∧ [3#8].length = (1#32).toNat ∧ (1#32).toNat < 2 := by decide

theorem witness_BuildersAwaitOperands :
    (withCall ⟨0x8A, 2, 7⟩ [1]).args.length < (2#32).toNat ∧
      (Instr.buildPong 2#32 7#32, 0x8A#8) ∈ openBuilders 2#32 7#32 := by decide

theorem witness_FaultsOnlyOutsideWellFormedStates :
    exec .decode (withDec { DecRegs.reset with phase := .key, idx := 4 } 9 false) = .fault .keyRegisterAbsent ∧
      exec (.encode 0 0 0) (withEnc { EncRegs.reset with phase := .hdr, hidx := 6 } 0) = .fault .headerByteAbsent :=
  ⟨rfl, rfl⟩

theorem witness_StepRunsDecodedInstruction_turn :
    decodeWord .byteZero [0x81] = .ok (.opText ⟨true, false, false, false⟩) ∧
      WellFormed (.opText ⟨true, false, false, false⟩) ∧ (atDec .b0 0x81 false).script = .turn .dec :: [] ∧
      fetchedWord (atDec .b0 0x81 false) .dec = some (.byteZero, [0x81]) := by decide

theorem witness_StepRunsDecodedInstruction_empty_script :
    (({ withCall ⟨0x89, 0, 7⟩ [] with script := [] } : State).script = [] ∧
      fetchedWord { withCall ⟨0x89, 0, 7⟩ [] with script := [] } .drv =
        some (.call, [0x89, 0, 0, 0, 0, 0, 0, 0, 7]) ∧
      decodeWord .call [0x89, 0, 0, 0, 0, 0, 0, 0, 7] = .ok (.buildPing 0 7)) ∧
    (({ commanded with script := [] } : State).script = [] ∧ fetchedWord { commanded with script := [] } .drv = none ∧
      fetchedWord { commanded with script := [] } .enc =
        some (.command, [0x8A, 0, 0, 0, 2, 0x37, 0xFA, 0x21, 0x3D]) ∧
      decodeWord .command [0x8A, 0, 0, 0, 2, 0x37, 0xFA, 0x21, 0x3D] = .ok (.encode 0x8A 2 0x37FA213D)) ∧
    (({ atDec .key 9 false with script := [] } : State).script = [] ∧
      fetchedWord { atDec .key 9 false with script := [] } .drv = none ∧
      fetchedWord { atDec .key 9 false with script := [] } .enc = none ∧
      fetchedWord { atDec .key 9 false with script := [] } .dec = some (.rest, []) ∧
      decodeWord .rest [] = .ok .decode) := by decide

theorem witness_StepInByteZeroPhase :
    (atDec .b0 0xFF true).script = .turn .dec :: [] ∧ (atDec .b0 0xFF true).dec.phase = .b0 ∧
      (atDec .b0 0xFF true).dIn = ⟨0xFF, true⟩ :: [] := by decide

theorem witness_StepInByteOnePhase :
    (atDec .b1 0x7D false).script = .turn .dec :: [] ∧ (atDec .b1 0x7D false).dec.phase = .b1 ∧
      (atDec .b1 0x7D false).dIn = ⟨0x7D, false⟩ :: [] := by decide

theorem witness_DecWaitsWithoutTransfer :
    (offered [] 1).script = .turn .dec :: [] ∧ (offered [] 1).dIn = [] ∧
      ({ atDec .pay 9 false with dOutReady := false } : State).script = .turn .dec :: [] ∧
      ({ atDec .pay 9 false with dOutReady := false } : State).dec.phase = .pay := by decide

theorem witness_EncWaitsWithoutTransfer :
    ({ State.reset with script := [.turn .enc] } : State).script = .turn .enc :: [] ∧
      ({ State.reset with script := [.turn .enc] } : State).enc.phase = .idle ∧
      ({ State.reset with script := [.turn .enc] } : State).eCmd = [] ∧
      ({ withEnc { EncRegs.reset with phase := .hdr } 0 with eOutReady := false } : State).enc.phase = .hdr ∧
      ({ withEnc { EncRegs.reset with phase := .pay } 0 with eIn := [] } : State).enc.phase = .pay := by decide

theorem witness_ResetEventIdlesBothUnits :
    ({ atDec .pay 9 false with script := [.rst] } : State).script = .rst :: [] := by decide

/-- The environment's next move. -/
def moving (m : Move) : State := { atDec .b0 9 false with script := [m] }

theorem witness_EnvironmentMovesOffer :
    (moving (.offerByte ⟨7, true⟩)).script = .offerByte ⟨7, true⟩ :: [] ∧
      (moving (.offerCommand ⟨0x81, 0, 7⟩)).script = .offerCommand ⟨0x81, 0, 7⟩ :: [] ∧
      (moving (.offerPayload 7)).script = .offerPayload 7 :: [] ∧
      (moving (.call ⟨0x89, 1, 7⟩ [7])).script = .call ⟨0x89, 1, 7⟩ [7] :: [] ∧
      (moving (.withdraw .dIn)).script = .withdraw .dIn :: [] ∧ (moving (.withdraw .eCmd)).script = .withdraw .eCmd :: [] ∧
      (moving (.withdraw .eIn)).script = .withdraw .eIn :: [] ∧ (moving (.withdraw .calls)).script = .withdraw .calls :: [] ∧
      (moving (.dReady false)).script = .dReady false :: [] ∧ (moving (.eReady false)).script = .eReady false :: [] := by
  decide

/-- A transfer on each channel, a withdrawal, and the permissions a reset event gives. -/
theorem witness_OfferedItemsAreHeld :
    after (atDec .b0 9 false) (fun t => t.dIn == []) = true ∧ after commanded (fun t => t.eCmd == []) = true ∧
      after (withEnc { EncRegs.reset with phase := .pay, n := 2 } 7) (fun t => t.eIn == []) = true ∧
      after (withCall ⟨0x89, 0, 7⟩ []) (fun t => t.calls == [] && t.callLog == [.issued]) = true ∧
      after (moving (.withdraw .dIn)) (fun t => t.dIn == [] && t.mayWithdraw.dIn) = true ∧
      after (moving .rst) (fun t => t.mayWithdraw == ⟨true, true, true, true⟩) = true ∧
      withdrawalsIdle State.reset := by
  refine ⟨by decide, by decide, by decide, by decide, by decide, by decide, fun _ => rfl, fun _ => rfl⟩

theorem witness_HandshakeOutputsTellTheStep :
    ((atDec .pay 9 false).script = .turn .dec :: [] ∧ after (atDec .pay 9 false) (fun t => t.dTrace.length == 1) = true) ∧
    (commanded.script = .turn .enc :: List.replicate 8 (.turn .enc) ∧ after commanded (fun t => t.eTrace == []) = true) ∧
    ((withEnc { EncRegs.reset with phase := .pay, n := 2 } 7).script = .turn .enc :: [] ∧
      after (withEnc { EncRegs.reset with phase := .pay, n := 2 } 7) (fun t => t.eTrace == [⟨7, false⟩]) = true) := by decide

theorem witness_BlockStepsOnInputsAlone :
    after (atDec .pay 9 false) (fun t => t.dTrace.length == 1) = true ∧ after (moving .rst) (fun t => t.resets == 1) = true ∧
      after commanded (fun t => t.enc.phase == .hdr) = true := by decide

theorem witness_QuiescentRunsAreComplete :
    quiescent State.reset = true ∧ traceInOrder State.reset = true ∧ quiescent (atDec .b0 9 false) = false ∧
      quiescent (withCall ⟨0x89, 0, 7⟩ []) = true ∧ outTraceInOrder State.reset = true ∧
      resetNext commanded = false ∧ outTraceInOrder commanded = true ∧ encCalls commanded = 0 ∧
      after commanded (fun t => encCalls t == 1) = true ∧
      after (atDec .b0 9 false) (fun t => decCalls t == 1) = true := by decide

theorem witness_AgentsTouchTheirOwnState :
    ((atDec .b0 0x81 false).script = .turn .dec :: [] ∧ after (atDec .b0 0x81 false) (fun _ => true) = true) ∧
    (commanded.script = .turn .enc :: List.replicate 8 (.turn .enc) ∧ after commanded (fun _ => true) = true) ∧
    ((withCall ⟨0x89, 0, 7⟩ []).script = .turn .drv :: [] ∧
      after (withCall ⟨0x89, 0, 7⟩ []) (fun _ => true) = true) := by decide

theorem witness_WellFormedStatesStep :
    State.WellFormed (withCall ⟨0x89, 0, 7⟩ []) ∧
      ∀ c ∈ (withCall ⟨0x89, 0, 7⟩ []).calls, builderInstr c = .ok (.buildPing 0 7) := by decide

theorem witness_DecodeOfEncodeIsIdentity : WellFormed (.h7m ⟨true, true, true, true⟩ 15#4 125#7) := by decide

theorem witness_EncodeOfDecodeIsIdentity :
    decodeWord .header [0xFF, 0xFD] = .ok (.h7m ⟨true, true, true, true⟩ 15#4 125#7) := by decide

/-- DEC about to take the last extended-length byte of a 64-bit form, at the largest length. -/
def lastLengthByte : State :=
  withDec { DecRegs.reset with phase := .ext, len7 := 127, idx := 7, len := 0x1FFFFFFFFFFF } 0xFF false

theorem witness_StepKeepsWellFormed :
    State.WellFormed lastLengthByte ∧ after lastLengthByte (fun t => t.dec.phase == .pay) = true := by decide

theorem witness_StepKeepsEventOrder :
    traceInOrder lastLengthByte = true ∧ resetNext lastLengthByte = false ∧
      after lastLengthByte (fun t => t.dTrace == [.hdr ⟨false, false, false, false, 0, false, 0x1FFFFFFFFFFFFF⟩]) = true := by
  decide

theorem witness_StepKeepsDoneRecords :
    (∀ e ∈ (atDec .b0 0x81 true).dTrace, doneRecordOk e = true) ∧
      after (atDec .b0 0x81 true) (fun t => t.dTrace == [.done .short 1002 false]) = true := by decide

theorem witness_TracesOnlyGrow : after lastLengthByte (fun t => t.dTrace.length == 1) = true := by decide

theorem witness_DecStepAdvancesPosition :
    decWellFormed lastLengthByte.dec = true ∧ lastLengthByte.dIn = ⟨0xFF, false⟩ :: [] ∧
      (lastLengthByte.dec.phase = .pay → lastLengthByte.dOutReady = true) := by decide

/-- One buffer for each case: D3 (OK), D21 (TOO_BIG), D26 (SHORT). -/
theorem witness_DecoderRefinesDecode :
    ((offered [0x89, 0x00] 2).dec.phase = .b0 ∧ (offered [0x89, 0x00] 2).dOutReady = true ∧
      (offered [0x89, 0x00] 2).dIn = offerBuffer [0x89, 0x00] ++ [] ∧
      decodeBuffer [0x89, 0x00] = .ok ⟨true, false, false, false, 9, false, none, none⟩ ∧
      (offered [0x89, 0x00] 2).script = List.replicate 2 (.turn .dec) ++ []) ∧
    ((offered [0x82, 0x7F, 0, 0x20, 0, 0] 6).dIn = offerBuffer [0x82, 0x7F, 0, 0x20, 0, 0] ++ [] ∧
      decodeBuffer [0x82, 0x7F, 0, 0x20, 0, 0] = .tooBig ∧
      (offered [0x82, 0x7F, 0, 0x20, 0, 0] 6).script = List.replicate 6 (.turn .dec) ++ []) ∧
    ((offered [0x81] 1).dIn = offerBuffer [0x81] ++ [] ∧ decodeBuffer [0x81] = .short ∧
      (offered [0x81] 1).script = List.replicate 1 (.turn .dec) ++ []) := by decide

theorem witness_EncoderRefinesEncode :
    commanded.enc.phase = .idle ∧ commanded.eOutReady = true ∧ commanded.eCmd = ⟨0x8A, 2, 0x37FA213D⟩ :: [] ∧
      commanded.eIn = [0x68, 0x69] ++ [] ∧ [0x68#8, 0x69#8].length = (2#32).toNat ∧
      encodeFrame [0x68, 0x69] 0x8A (keyOfWord 0x37FA213D) = some [0x8A, 0x82, 0x37, 0xFA, 0x21, 0x3D, 0x5F, 0x93] ∧
      commanded.script = List.replicate (1 + [0x8A#8, 0x82, 0x37, 0xFA, 0x21, 0x3D, 0x5F, 0x93].length) (.turn .enc) ++ [] := by
  decide

theorem witness_DecoderReadsNothingStale :
    (offered [0x89, 0x00] 2).dec.phase = .b0 ∧
      ({ offered [0x89, 0x00] 2 with dec := { DecRegs.reset with len := 5, masked := true } } : State).dec.phase = .b0 ∧
      sameDecInputs (offered [0x89, 0x00] 2)
        { offered [0x89, 0x00] 2 with dec := { DecRegs.reset with len := 5, masked := true } } ∧
      (offered [0x89, 0x00] 2).script = List.replicate 2 (.turn .dec) := by decide

theorem witness_EncoderReadsNothingStale :
    commanded.enc.phase = .idle ∧
      ({ commanded with enc := { EncRegs.reset with cnt := 5 } } : State).enc.phase = .idle ∧
      commanded.script = List.replicate 9 (.turn .enc) ∧
      ({ commanded with enc := { EncRegs.reset with cnt := 5 } } : State).eCmd = commanded.eCmd := by decide

/-- DEC in D_KEY with two key bytes taken; the other two and `cnt` are stale. -/
def midKey (stale : Byte) : State :=
  withDec { DecRegs.reset with phase := .key, idx := 2, masked := true, key := ⟨1, 2, stale, stale⟩ } 9 false

theorem witness_DecTurnKeepsLiveRegisters :
    decWellFormed (midKey 5).dec = true ∧ decWellFormed (midKey 6).dec = true ∧ sameDecInputs (midKey 5) (midKey 6) ∧
      sameLiveRegs (midKey 5).dec (midKey 6).dec = true ∧ midKey 5 ≠ midKey 6 ∧
      (midKey 5).script = .turn .dec :: [] ∧ (midKey 6).script = .turn .dec :: [] := by decide

/-- ENC at the last header byte of a frame of two payload bytes; `cnt` is stale. -/
def lastHeaderByte (stale : BitVec 32) : State :=
  withEnc { EncRegs.reset with phase := .hdr, n := 2, hidx := 5, cnt := stale } 9

theorem witness_EncTurnKeepsLiveRegisters :
    encWellFormed (lastHeaderByte 5).enc = true ∧ encWellFormed (lastHeaderByte 6).enc = true ∧
      sameEncInputs (lastHeaderByte 5) (lastHeaderByte 6) ∧
      sameLiveEncRegs (lastHeaderByte 5).enc (lastHeaderByte 6).enc = true ∧ lastHeaderByte 5 ≠ lastHeaderByte 6 ∧
      (lastHeaderByte 5).script = .turn .enc :: [] ∧ (lastHeaderByte 6).script = .turn .enc :: [] := by decide

theorem witness_TurnsOfUnitsCommute : State.WellFormed commanded ∧ State.WellFormed lastLengthByte := by decide

theorem witness_DecodeOfEncodedFrame : [0x48#8, 0x65#8].length ≤ 2 ^ 32 - 1 := by decide

theorem witness_DecodeOfBuiltFrame :
    [0x48#8, 0x65#8].length ≤ 2 ^ 32 - 1 ∧ (List.replicate 123 0x41#8).length ≤ 123 := by simp

theorem witness_MaskingUsesKeyCyclically : [1#8, 2, 3, 4, 5][4]? = some 5#8 := by decide

theorem witness_PayloadHasDeclaredLength :
    decodeBuffer [0x88, 0x01, 0x03] = .ok ⟨true, false, false, false, 8, false, some [0x03], none⟩ := by decide

theorem witness_DecodeTakesFirstFrame :
    decodeBuffer [0x89, 0x00] = .ok ⟨true, false, false, false, 9, false, none, none⟩ := by decide

/-- Both sides of the guard: `1F FF` passes, `20 00` does not (D23, D20). -/
theorem witness_GuardReadsTopElevenBits :
    6 ≤ [0x82#8, 0x7F, 0, 0x20, 0, 0].length ∧ (byteAt [0x82, 0x7F, 0, 0x20, 0, 0] 1).extractLsb' 0 7 = 127#7 ∧
      decodeBuffer [0x82, 0x7F, 0, 0x20, 0, 0] = .tooBig ∧
      (byteAt [0x82, 0x7F, 0, 0x1F, 0xFF, 0xFF] 1).extractLsb' 0 7 = 127#7 ∧
      decodeBuffer [0x82, 0x7F, 0, 0x1F, 0xFF, 0xFF] ≠ .tooBig := by decide

theorem witness_EncodedFrameShape :
    encodeFrame [] 0x82 ⟨0x37, 0xFA, 0x21, 0x3D⟩ = some [0x82, 0x80, 0x37, 0xFA, 0x21, 0x3D] := by decide

end Sys2Proof.Tests
end

section
/-! The transaction level: what masking, `opt` and DECODE answer, and the length of a decoded payload (R22). -/

namespace Sys2Proof.Machine

@[simp] theorem maskFrom_length (k : Key) (i : Nat) (x : List Byte) : (maskFrom k i x).length = x.length := by
  induction x generalizing i with
  | nil => rfl
  | cons b x ih => simp [maskFrom, ih]

@[simp] theorem maskXor_length (x : List Byte) (k : Key) : (maskXor x k).length = x.length := maskFrom_length k 0 x

@[simp] theorem unmask_length (h : HeaderInfo) (wire : List Byte) : (unmask h wire).length = wire.length := by
  unfold unmask
  split
  · exact maskXor_length wire h.key
  · rfl

@[simp] theorem optBytes_eq_none_iff (x : List Byte) : optBytes x = none ↔ x = [] := by simp [optBytes]

@[simp] theorem optBytes_eq_some_iff (x p : List Byte) : optBytes x = some p ↔ x ≠ [] ∧ x = p := by simp [optBytes]

/-- The Frame that DECODE answers for a header whose payload the buffer holds whole (R156 to R158). -/
def frameOf (h : HeaderInfo) (B : List Byte) : Frame :=
  { fin := h.flags.fin, rsv1 := h.flags.rsv1, rsv2 := h.flags.rsv2, rsv3 := h.flags.rsv3
    opcode := h.opcode, masked := h.masked
    payload := optBytes (unmask h ((B.drop h.hlen).take h.len))
    remaining := optBytes (B.drop (h.hlen + h.len)) }

/-- A buffer decodes to a Frame only by a header read whole with all of its payload behind it (R158). -/
theorem decodeBuffer_eq_ok_iff (B : List Byte) (f : Frame) :
    decodeBuffer B = .ok f ↔ ∃ h, readHeader B = .found h ∧ h.hlen + h.len ≤ B.length ∧ f = frameOf h B := by
  unfold decodeBuffer
  cases readHeader B with
  | short => simp
  | tooBig => simp
  | found h =>
    by_cases hshort : B.length < h.hlen + h.len
    · simp [hshort]
    · simp [hshort, Nat.le_of_not_lt hshort, frameOf, eq_comm]

/-- The decoded payload has one byte for each byte the header declares. -/
theorem unmask_payload_length {h : HeaderInfo} {B : List Byte} (hfit : h.hlen + h.len ≤ B.length) :
    (unmask h ((B.drop h.hlen).take h.len)).length = h.len := by
  rw [unmask_length, List.length_take, List.length_drop]
  omega

theorem frameOf_payload_eq_none_iff {h : HeaderInfo} {B : List Byte} (hfit : h.hlen + h.len ≤ B.length) :
    (frameOf h B).payload = none ↔ h.len = 0 := by
  rw [frameOf, optBytes_eq_none_iff, ← List.length_eq_zero_iff, unmask_payload_length hfit]

/-- Settles O47: the header and the bound come from what DECODE answers, and masking keeps the length. -/
theorem payloadHasDeclaredLength : Obligations.PayloadHasDeclaredLength := by
  intro B f hdecode
  obtain ⟨h, hheader, hfit, rfl⟩ := (decodeBuffer_eq_ok_iff B f).mp hdecode
  refine ⟨h, hheader, hfit, frameOf_payload_eq_none_iff hfit, fun p hp => ?_⟩
  obtain ⟨hne, rfl⟩ := (optBytes_eq_some_iff _ p).mp hp
  exact ⟨unmask_payload_length hfit, hne⟩

end Sys2Proof.Machine
end

section
/-! The header-complete procedure (R168), and what DECODE reads of a buffer that goes on behind its first frame (R162). -/

namespace Sys2Proof.Machine

/-! ### The header-complete procedure -/

/-- Settles O5: the three exits, one for each case of the procedure. -/
theorem headerCompleteProcedure : Obligations.HeaderCompleteProcedure := by
  intro r last
  obtain ⟨hlen, hexit⟩ | ⟨hlen, rfl, hexit⟩ | ⟨hlen, rfl, hexit⟩ := headerComplete_cases r last
  · rw [hexit, if_pos hlen]; rfl
  · rw [hexit, if_neg hlen]; rfl
  · rw [hexit, if_neg hlen]; rfl

/-! ### Reading inside a buffer does not see what follows it -/

theorem byteAt_append {X : List Byte} {i : Nat} (hi : i < X.length) (Y : List Byte) :
    byteAt (X ++ Y) i = byteAt X i :=
  List.getD_append X Y 0#8 i hi

theorem drop_take_append {X : List Byte} {off n : Nat} (hfit : off + n ≤ X.length) (Y : List Byte) :
    ((X ++ Y).drop off).take n = (X.drop off).take n := by
  rw [List.drop_append_of_le_length (by omega), List.take_append_of_le_length (by rw [List.length_drop]; omega)]

theorem memRead_append {X : List Byte} {off n : Nat} (hfit : off + n ≤ X.length) (Y : List Byte) :
    memRead (X ++ Y) off n = memRead X off n := by
  rw [memRead, memRead, drop_take_append hfit]

/-- Step 4 of DECODE, once it does not run out of bytes, keeps its answer in every longer buffer (R155). -/
theorem readKey_append {X : List Byte} {off len : Nat} (htwo : 2 ≤ X.length) (hread : readKey X off len ≠ .short)
    (Y : List Byte) : readKey (X ++ Y) off len = readKey X off len := by
  have hzero : byteAt (X ++ Y) 0 = byteAt X 0 := byteAt_append (by omega) Y
  have hone : byteAt (X ++ Y) 1 = byteAt X 1 := byteAt_append (by omega) Y
  unfold readKey at hread ⊢
  rw [hzero, hone]
  by_cases hmask : maskedOf (byteAt X 1) = true
  · have hkey : off + 4 ≤ X.length := by
      by_contra hlt
      exact hread (by rw [if_pos hmask, if_pos (by omega)])
    rw [if_pos hmask, if_pos hmask, if_neg (by rw [List.length_append]; omega), if_neg (by omega),
      byteAt_append (i := off) (by omega), byteAt_append (i := off + 1) (by omega),
      byteAt_append (i := off + 2) (by omega), byteAt_append (i := off + 3) (by omega)]
  · rw [if_neg hmask, if_neg hmask]

/-- A guard that answers Short for too few bytes is passed in every longer buffer, where what follows it agrees. -/
theorem shortGuard_append {X Y : List Byte} {n : Nat} {a b : HeaderOutcome}
    (hread : (if X.length < n then HeaderOutcome.short else b) ≠ .short)
    (hagree : n ≤ X.length → b ≠ .short → a = b) :
    (if (X ++ Y).length < n then HeaderOutcome.short else a) = if X.length < n then HeaderOutcome.short else b := by
  have hn : ¬ X.length < n := fun hlt => hread (if_pos hlt)
  rw [if_neg hn] at hread ⊢
  rw [if_neg (by rw [List.length_append]; omega), hagree (by omega) hread]

/-- A header that is read, or rejected as too big, is so whatever follows (R151 to R155). -/
theorem readHeader_append {X : List Byte} (hread : readHeader X ≠ .short) (Y : List Byte) :
    readHeader (X ++ Y) = readHeader X := by
  unfold readHeader at hread ⊢
  refine shortGuard_append hread fun htwo hread => ?_
  rw [byteAt_append (i := 1) (by omega)]
  by_cases hinline : (len7Of (byteAt X 1)).toNat ≤ Config.len7InlineMax
  · rw [if_pos hinline] at hread
    rw [if_pos hinline, if_pos hinline, readKey_append htwo hread]
  rw [if_neg hinline] at hread
  rw [if_neg hinline, if_neg hinline]
  by_cases hext16 : len7Of (byteAt X 1) = Config.len7Ext16
  · rw [if_pos hext16] at hread
    rw [if_pos hext16, if_pos hext16]
    refine shortGuard_append hread fun hfour hread => ?_
    rw [memRead_append (by omega), readKey_append htwo hread]
  rw [if_neg hext16] at hread
  rw [if_neg hext16, if_neg hext16]
  refine shortGuard_append hread fun hsix hread => ?_
  rw [memRead_append (off := 2) (by omega)]
  by_cases hbig : Config.high32Max < memRead X 2 4
  · rw [if_pos hbig, if_pos hbig]
  rw [if_neg hbig] at hread
  rw [if_neg hbig, if_neg hbig]
  refine shortGuard_append hread fun hten hread => ?_
  rw [memRead_append (off := 6) (by omega), readKey_append htwo hread]

/-! ### One frame per call -/

/-- Nothing remains exactly when the frame ends the buffer (R157). -/
theorem frameOf_remaining_eq_none_iff (h : HeaderInfo) (B : List Byte) :
    (frameOf h B).remaining = none ↔ B.length ≤ h.hlen + h.len := by
  rw [frameOf, optBytes_eq_none_iff, List.drop_eq_nil_iff]

/-- What follows a frame that ends its buffer becomes its `remaining` and changes no other field. -/
theorem frameOf_append {h : HeaderInfo} {F : List Byte} (hend : F.length = h.hlen + h.len) (G : List Byte) :
    frameOf h (F ++ G) = { frameOf h F with remaining := optBytes G } := by
  rw [frameOf, frameOf, drop_take_append hend.ge, ← hend, List.drop_left]

theorem decodeBuffer_eq_short_of_lt {B : List Byte} {h : HeaderInfo} (hheader : readHeader B = .found h)
    (hlt : B.length < h.hlen + h.len) : decodeBuffer B = .short := by
  rw [decodeBuffer, hheader]
  exact if_pos hlt

/-- A buffer that holds only part of the frame whose header begins it is Short, be the header itself cut or not. -/
theorem decodeBuffer_part_eq_short {X Y : List Byte} {h : HeaderInfo} (hheader : readHeader (X ++ Y) = .found h)
    (hlt : X.length < h.hlen + h.len) : decodeBuffer X = .short := by
  by_cases hcut : readHeader X = .short
  · rw [decodeBuffer, hcut]
  · exact decodeBuffer_eq_short_of_lt (readHeader_append hcut Y ▸ hheader) hlt

/-- Settles O48: the header is read alike in `F` and in `F ++ G`, and `F` has no byte to spare. -/
theorem decodeTakesFirstFrame : Obligations.DecodeTakesFirstFrame := by
  intro F G f hdecode hwhole
  obtain ⟨h, hheader, hfit, rfl⟩ := (decodeBuffer_eq_ok_iff F f).mp hdecode
  have hend : F.length = h.hlen + h.len := le_antisymm ((frameOf_remaining_eq_none_iff h F).mp hwhole) hfit
  refine ⟨(decodeBuffer_eq_ok_iff (F ++ G) _).mpr ⟨h, ?_, ?_, (frameOf_append hend G).symm⟩, fun k hk => ?_⟩
  · rw [readHeader_append (by simp [hheader]), hheader]
  · rw [List.length_append]
    omega
  · refine decodeBuffer_part_eq_short (Y := F.drop k) (by rwa [List.take_append_drop]) ?_
    rw [List.length_take]
    omega

end Sys2Proof.Machine
end

section
/-! ENCODE in E_HDR (R205), the laws of masking (R210), and the round trip of an encoded frame through DECODE (R209). -/

namespace Sys2Proof.Machine

/-! ### Emitting the header -/

theorem exec_encode_of_headerStep {s : State} {o : EncResult} (hphase : s.enc.phase = .hdr)
    (hready : s.eOutReady = true) (hstep : headerStep s.enc = some o) (t : Byte) (n k : BitVec 32) :
    exec (.encode t n k) s = .next ((s.endTurn .enc).emitOut o) := by
  change execEncode t n k s = _
  simp only [execEncode, hphase, hready, hstep, if_true]

/-- `fin_hdr` of R205, as the statement says it and as `headerLast` does: a header is never empty. -/
theorem eq_encodedHeaderLength_sub_one_iff (i : Nat) (n : BitVec 32) :
    i = encodedHeaderLength n - 1 ↔ i + 1 = encodedHeaderLength n := by
  have hpos : 2 ≤ encodedHeaderLength n := by
    unfold encodedHeaderLength
    omega
  omega

/-- Settles O11: the three exits of the step in E_HDR, as `headerStep_cases` lists them. -/
theorem encodeEmitsHeaderByte : Obligations.EncodeEmitsHeaderByte := by
  intro s t n k d hphase hready hbyte
  simp only [eq_encodedHeaderLength_sub_one_iff]
  obtain ⟨hnone, -⟩ | ⟨b, hsome, hexit⟩ := headerStep_cases s.enc
  · simp [hnone] at hbyte
  obtain rfl : b = d := by simpa [hsome] using hbyte
  obtain ⟨hfin, hempty, hstep⟩ | ⟨hfin, hmore, hstep⟩ | ⟨hgoOn, hstep⟩ := hexit
  · simp [exec_encode_of_headerStep hphase hready hstep, hfin, hempty, State.emitOut]
  · simp [exec_encode_of_headerStep hphase hready hstep, hfin, hmore, State.emitOut]
  · simp [exec_encode_of_headerStep hphase hready hstep, hgoOn, State.emitOut]

/-! ### Masking -/

/-- Each byte meets the same key lane twice. -/
@[simp] theorem maskFrom_maskFrom (k : Key) (i : Nat) (x : List Byte) : maskFrom k i (maskFrom k i x) = x := by
  induction x generalizing i with
  | nil => rfl
  | cons b x ih => simp [maskFrom, ih]

@[simp] theorem maskXor_maskXor (x : List Byte) (k : Key) : maskXor (maskXor x k) k = x := maskFrom_maskFrom k 0 x

@[simp] theorem keyLane_zero (i : Nat) : keyLane ⟨0, 0, 0, 0⟩ i = 0#8 := by
  unfold keyLane
  split <;> rfl

@[simp] theorem maskFrom_zero (i : Nat) (x : List Byte) : maskFrom ⟨0, 0, 0, 0⟩ i x = x := by
  induction x generalizing i with
  | nil => rfl
  | cons b x ih => rw [maskFrom, ih, keyLane_zero, BitVec.xor_zero]

/-- Settles O45: the three laws, each by induction on the bytes masked. -/
theorem maskingIsInvolution : Obligations.MaskingIsInvolution :=
  fun X K => ⟨maskXor_maskXor X K, maskFrom_zero 0 X, maskXor_length X K⟩

/-! ### The header ENC writes, as DECODE reads it -/

/-- The mask bit beside a 7-bit field hides nothing of either (R92). -/
theorem byteOne_fields (len7 : BitVec 7) :
    maskedOf (0x80#8 ||| len7.setWidth 8) = true ∧ len7Of (0x80#8 ||| len7.setWidth 8) = len7 := by
  revert len7
  decide

@[simp] theorem encodedHeader_length (t : Byte) (n : BitVec 32) (k : Key) :
    (encodedHeader t n k).length = encodedHeaderLength n := by
  simp [encodedHeader, encodedHeaderLength, keyBytesOf, Config.keyBytes]
  omega

/-- Reading two bytes undoes `enc_be16`, wherever they stand (R16, R17). -/
theorem memRead_encBe16 (X Y : List Byte) (v : BitVec 16) :
    memRead (X ++ encBe16 v ++ Y) X.length 2 = v.toNat := by
  have hv := v.isLt
  simp [memRead, encBe16, BitVec.extractLsb'_toNat, Nat.shiftRight_eq_div_pow]
  omega

/-- Reading four bytes undoes `enc_be32`, wherever they stand (R16, R17). -/
theorem memRead_encBe32 (X Y : List Byte) (v : BitVec 32) :
    memRead (X ++ encBe32 v ++ Y) X.length 4 = v.toNat := by
  have hv := v.isLt
  simp [memRead, encBe32, BitVec.extractLsb'_toNat, Nat.shiftRight_eq_div_pow]
  omega

/-- What ENC writes for a length of `n` bytes: the three strategies of R191. -/
theorem lengthStrategy_cases (n : BitVec 32) :
    (n.toNat ≤ Config.len7InlineMax ∧ (lengthField n).toNat = n.toNat ∧ lengthExtension n = []) ∨
    (n.toNat ≤ Config.encExt16Max ∧ lengthField n = Config.len7Ext16 ∧
      lengthExtension n = encBe16 (n.setWidth 16)) ∨
    (lengthField n = Config.len7Ext64 ∧ lengthExtension n = [0#8, 0#8, 0#8, 0#8] ++ encBe32 n) := by
  unfold lengthField lengthExtension
  by_cases hinline : n.toNat ≤ Config.len7InlineMax
  · have hfits : n.toNat < 128 := hinline.trans_lt (by decide)
    simp [hinline, hfits]
  by_cases hext16 : n.toNat ≤ Config.encExt16Max
  · simp [hinline, hext16]
  · simp [hinline, hext16]

/-- Step 4 of DECODE on a buffer that ends with the key its mask bit announces (R155). -/
theorem readKey_append_keyBytesOf {X : List Byte} (htwo : 2 ≤ X.length) (hmask : maskedOf (byteAt X 1) = true)
    (k : Key) (len : Nat) : readKey (X ++ keyBytesOf k) X.length len =
      .found ⟨flagsOf (byteAt X 0), opcodeOf (byteAt X 0), true, k, X.length + 4, len⟩ := by
  have hkey (i : Nat) : byteAt (X ++ keyBytesOf k) (X.length + i) = byteAt (keyBytesOf k) i := by
    rw [byteAt, List.getD_append_right _ _ _ _ (by omega), Nat.add_sub_cancel_left, byteAt]
  unfold readKey
  rw [byteAt_append (i := 0) (by omega), byteAt_append (i := 1) (by omega), if_pos hmask,
    if_neg (by simp [keyBytesOf]), ← Nat.add_zero X.length, hkey 0, Nat.add_zero, hkey 1,
    hkey 2, hkey 3]
  rfl

/-- Step 4 finds the key of an encoded header behind its length extension. -/
theorem readKey_encodedHeader (t : Byte) (n : BitVec 32) (k : Key) (len : Nat) :
    readKey (encodedHeader t n k) (2 + (lengthExtension n).length) len =
      .found ⟨flagsOf t, opcodeOf t, true, k, encodedHeaderLength n, len⟩ := by
  have hread := readKey_append_keyBytesOf (X := [t, 0x80#8 ||| (lengthField n).setWidth 8] ++ lengthExtension n)
    (by simp) (byteOne_fields (lengthField n)).1 k len
  rw [List.length_append] at hread
  exact hread

theorem memRead_encodedHeader_ext16 (t : Byte) {n : BitVec 32} (k : Key) (hle : n.toNat ≤ Config.encExt16Max)
    (hext : lengthExtension n = encBe16 (n.setWidth 16)) : memRead (encodedHeader t n k) 2 2 = n.toNat := by
  have hfits : n.toNat < 2 ^ 16 := hle.trans_lt (by decide)
  rw [encodedHeader, hext]
  calc memRead _ 2 2
      = (n.setWidth 16).toNat := memRead_encBe16 [t, 0x80#8 ||| (lengthField n).setWidth 8] (keyBytesOf k) _
    _ = n.toNat := by rw [BitVec.toNat_setWidth, Nat.mod_eq_of_lt hfits]

/-- In the 64-bit form the high word is 0 and the low word is the length (R191, R209). -/
theorem memRead_encodedHeader_ext64 (t : Byte) {n : BitVec 32} (k : Key)
    (hext : lengthExtension n = [0#8, 0#8, 0#8, 0#8] ++ encBe32 n) :
    memRead (encodedHeader t n k) 2 4 = 0 ∧ memRead (encodedHeader t n k) 6 4 = n.toNat := by
  rw [encodedHeader, hext]
  exact ⟨rfl, memRead_encBe32 [t, 0x80#8 ||| (lengthField n).setWidth 8, 0#8, 0#8, 0#8, 0#8] (keyBytesOf k) n⟩

/-- DECODE reads an encoded header as ENC wrote it: each strategy of the length leads to the branch that undoes it, and
the guard of R154 does not trip. -/
theorem readHeader_encodedHeader (t : Byte) (n : BitVec 32) (k : Key) :
    readHeader (encodedHeader t n k) = .found ⟨flagsOf t, opcodeOf t, true, k, encodedHeaderLength n, n.toNat⟩ := by
  have hlength := encodedHeader_length t n k
  have hfield : len7Of (byteAt (encodedHeader t n k) 1) = lengthField n := (byteOne_fields (lengthField n)).2
  have hkey := readKey_encodedHeader t n k n.toNat
  rw [encodedHeaderLength] at hlength
  unfold readHeader
  rw [if_neg (by omega), hfield]
  obtain ⟨hle, hlen7, hext⟩ | ⟨hle, hlen7, hext⟩ | ⟨hlen7, hext⟩ := lengthStrategy_cases n
  · rw [hext] at hkey
    rw [hlen7, if_pos hle]
    exact hkey
  · have hvalue := memRead_encodedHeader_ext16 t k hle hext
    rw [hext] at hkey hlength
    replace hlength : (encodedHeader t n k).length = 8 := hlength
    rw [hlen7, if_neg (by decide), if_pos rfl, if_neg (by omega), hvalue]
    exact hkey
  · obtain ⟨hhigh, hlow⟩ := memRead_encodedHeader_ext64 t k hext
    rw [hext] at hkey hlength
    replace hlength : (encodedHeader t n k).length = 14 := hlength
    rw [hlen7, if_neg (by decide), if_neg (by decide), if_neg (by omega), hhigh, if_neg (Nat.not_lt_zero _),
      if_neg (by omega), hlow, Nat.zero_mul, Nat.zero_add]
    exact hkey

/-- A frame of ENC is its header, then exactly the bytes the header declares, masked with the key it holds. -/
theorem frameOf_encodedHeader_append (t : Byte) (n : BitVec 32) (k : Key) {P : List Byte} (hn : P.length = n.toNat) :
    frameOf ⟨flagsOf t, opcodeOf t, true, k, encodedHeaderLength n, n.toNat⟩ (encodedHeader t n k ++ maskXor P k) =
      ⟨t.getLsbD 7, t.getLsbD 6, t.getLsbD 5, t.getLsbD 4, opcodeOf t, true, optBytes P, none⟩ := by
  have hpayload : ((encodedHeader t n k ++ maskXor P k).drop (encodedHeaderLength n)).take n.toNat = maskXor P k := by
    rw [List.drop_left' (encodedHeader_length t n k), List.take_of_length_le (by simp [hn])]
  have hrest : (encodedHeader t n k ++ maskXor P k).drop (encodedHeaderLength n + n.toNat) = [] := by
    simp [List.drop_eq_nil_iff, hn]
  rw [frameOf, hpayload, hrest]
  simp [unmask, flagsOf, optBytes]

/-- Settles O43: the header is read as it was written, whatever follows it, and unmasking undoes the masking. -/
theorem decodeOfEncodedFrame : Obligations.DecodeOfEncodedFrame := by
  intro P t K hP
  have hn : P.length = (BitVec.ofNat 32 P.length).toNat := by
    rw [BitVec.toNat_ofNat, Nat.mod_eq_of_lt (by omega)]
  have hheader := readHeader_encodedHeader t (BitVec.ofNat 32 P.length) K
  refine ⟨_, if_pos hP, (decodeBuffer_eq_ok_iff _ _).mpr ⟨_, ?_, ?_, (frameOf_encodedHeader_append t _ K hn).symm⟩⟩
  · rw [readHeader_append (by simp [hheader]), hheader]
  · rw [List.length_append, encodedHeader_length, maskXor_length]
    exact Nat.add_le_add_left hn.ge _

end Sys2Proof.Machine
end

section
/-! The builders (R220): each is one ENCODE with a type byte of fin 1 and rsv bits 0, so R209 gives what its frame decodes
to (R227). -/

namespace Sys2Proof.Machine

/-- The type byte of an unfragmented frame: fin 1 and rsv bits 0 over the opcode (R91). -/
def finalTypeByte (op : BitVec 4) : Byte := 0x8#4 ++ op

theorem finalTypeByte_fields (op : BitVec 4) :
    (finalTypeByte op).getLsbD 7 = true ∧ (finalTypeByte op).getLsbD 6 = false ∧
      (finalTypeByte op).getLsbD 5 = false ∧ (finalTypeByte op).getLsbD 4 = false ∧
      (finalTypeByte op).extractLsb' 0 4 = op := by
  revert op
  decide

/-- R209 for operands with such a type byte: the frame decodes to the opcode and the payload. -/
theorem decode_encodeArgs_finalTypeByte (op : BitVec 4) {P : List Byte} (k : BitVec 32)
    (hP : P.length ≤ 2 ^ 32 - 1) :
    ∃ W, encodeArgs ⟨finalTypeByte op, P, k⟩ = some W ∧
      decodeBuffer W = .ok ⟨true, false, false, false, op, true, optBytes P, none⟩ := by
  obtain ⟨W, hencode, hdecode⟩ := decodeOfEncodedFrame P (finalTypeByte op) (keyOfWord k) hP
  obtain ⟨hfin, hrsv1, hrsv2, hrsv3, hop⟩ := finalTypeByte_fields op
  rw [hfin, hrsv1, hrsv2, hrsv3, hop] at hdecode
  exact ⟨W, hencode, hdecode⟩

theorem buildMessage_eq (P : List Byte) (isBinary : Bool) (k : BitVec 32) :
    buildMessage P isBinary k = ⟨finalTypeByte (if isBinary then 0x2#4 else 0x1#4), P, k⟩ := by
  cases isBinary <;> rfl

theorem buildPing_eq (P : List Byte) (k : BitVec 32) : buildPing P k = ⟨finalTypeByte 0x9#4, P, k⟩ := rfl

theorem buildPong_eq (P : List Byte) (k : BitVec 32) : buildPong P k = ⟨finalTypeByte 0xA#4, P, k⟩ := rfl

/-- The accepted side of R225. -/
theorem buildClose_eq_some (code : BitVec 16) {reason : List Byte} (k : BitVec 32) (hreason : reason.length ≤ 123) :
    buildClose code reason k = some ⟨finalTypeByte 0x8#4, encBe16 code ++ reason, k⟩ := if_pos hreason

/-- A Close payload begins with the two bytes of the code, so it is never absent (R224). -/
theorem optBytes_closePayload (code : BitVec 16) (reason : List Byte) :
    optBytes (encBe16 code ++ reason) = some (encBe16 code ++ reason) := rfl

/-- Settles O44: every builder offers a type byte with fin 1 and rsv bits 0, and a Close payload has at most 125 bytes. -/
theorem decodeOfBuiltFrame : Obligations.DecodeOfBuiltFrame := by
  refine ⟨fun P k hP => ⟨fun isBinary => ?message, ?ping, ?pong⟩, fun code reason k hreason => ?close⟩
  case message =>
    rw [buildMessage_eq]
    exact decode_encodeArgs_finalTypeByte _ k hP
  case ping =>
    rw [buildPing_eq]
    exact decode_encodeArgs_finalTypeByte 0x9#4 k hP
  case pong =>
    rw [buildPong_eq]
    exact decode_encodeArgs_finalTypeByte 0xA#4 k hP
  case close =>
    have hlength : (encBe16 code ++ reason).length ≤ 2 ^ 32 - 1 := by
      simp only [encBe16, List.length_append, List.length_cons, List.length_nil]
      omega
    obtain ⟨W, hencode, hdecode⟩ := decode_encodeArgs_finalTypeByte 0x8#4 k hlength
    rw [optBytes_closePayload] at hdecode
    exact ⟨_, W, buildClose_eq_some code k hreason, hencode, hdecode⟩

end Sys2Proof.Machine
end

section
/-! Encodings: the decoder on what the encoder writes, by slot, and the bytes of what the decoder accepts. -/

namespace Sys2Proof.Machine

/-! ### Fields and bytes -/

/-- The fields of header byte 1 survive the byte they are packed into (R92). -/
theorem byteOneOf_fields (m : Bool) (n : BitVec 7) : maskedOf (byteOneOf m n) = m ∧ len7Of (byteOneOf m n) = n := by
  revert m n
  decide

/-- Header byte 0 is its fields and nothing else (R91). -/
theorem byteZeroOf_flagsOf_opcodeOf (b : Byte) : byteZeroOf (flagsOf b) (opcodeOf b) = b := by
  revert b
  decide

/-- Header byte 1 is its fields and nothing else (R92). -/
theorem byteOneOf_maskedOf_len7Of (b : Byte) : byteOneOf (maskedOf b) (len7Of b) = b := by
  revert b
  decide

/-- Above its lowest byte a word is the word without that byte. -/
theorem extractLsb'_append_byte {w : Nat} (x : BitVec w) (y : Byte) (i : Nat) :
    (x ++ y).extractLsb' (8 + i) 8 = x.extractLsb' i 8 := by
  rw [BitVec.extractLsb'_append_eq_of_le (Nat.le_add_right 8 i), Nat.add_sub_cancel_left]

theorem encBe32_ofBe32 (a b c d : Byte) : encBe32 (ofBe32 a b c d) = [a, b, c, d] := by
  have h3 : (ofBe32 a b c d).extractLsb' 0 8 = d := BitVec.extractLsb'_append_eq_right
  have h2 : (ofBe32 a b c d).extractLsb' 8 8 = c :=
    (extractLsb'_append_byte _ d 0).trans BitVec.extractLsb'_append_eq_right
  have h1 : (ofBe32 a b c d).extractLsb' 16 8 = b :=
    (extractLsb'_append_byte _ d 8).trans
      ((extractLsb'_append_byte _ c 0).trans BitVec.extractLsb'_append_eq_right)
  have h0 : (ofBe32 a b c d).extractLsb' 24 8 = a :=
    (extractLsb'_append_byte _ d 16).trans
      ((extractLsb'_append_byte _ c 8).trans BitVec.extractLsb'_append_eq_left)
  rw [encBe32, h0, h1, h2, h3]

/-- Nine bytes that hold a command are the bytes of that command. -/
theorem commandBytes_of_commandOf {bs : List Byte} {c : Command} (h : commandOf bs = some c) : commandBytes c = bs := by
  unfold commandOf at h
  split at h
  · obtain rfl := Option.some.inj h
    simp [commandBytes, encBe32_ofBe32]
  · cases h

/-! ### The decoder, slot by slot -/

theorem decodeWord_call (c : Command) : decodeWord .call (commandBytes c) = builderInstr c := by
  simp only [decodeWord, commandOf_commandBytes]

theorem decodeWord_command (c : Command) :
    decodeWord .command (commandBytes c) = .ok (.encode c.typ c.len c.key) := by
  simp only [decodeWord, commandOf_commandBytes]

theorem decodeWord_byteZeroOf (f : HeadFlags) (op : BitVec 4) :
    decodeWord .byteZero [byteZeroOf f op] = .ok (opcodeInstr f op) := by
  simp only [decodeWord, byteZeroOf_fields]

theorem decodeWord_header (f : HeadFlags) (op : BitVec 4) (m : Bool) (n : BitVec 7) :
    decodeWord .header [byteZeroOf f op, byteOneOf m n] = .ok (headerInstr f op m n) := by
  simp only [decodeWord, byteZeroOf_fields, byteOneOf_fields]

/-- Settles O28: the slot of each row reads the fields back, and its selector (type byte, `len7`, opcode) finds the
row. -/
theorem decodeOfEncodeIsIdentity : Obligations.DecodeOfEncodeIsIdentity := by
  intro i hwf
  cases i with
  | decode => rfl
  | encode t n k => exact decodeWord_command ⟨t, n, k⟩
  | buildMessageText n k => exact decodeWord_call ⟨0x81#8, n, k⟩
  | buildMessageBinary n k => exact decodeWord_call ⟨0x82#8, n, k⟩
  | buildPing n k => exact decodeWord_call ⟨0x89#8, n, k⟩
  | buildPong n k => exact decodeWord_call ⟨0x8A#8, n, k⟩
  | buildClose n k => exact decodeWord_call ⟨0x88#8, n, k⟩
  | h7u f op len7 =>
    refine (decodeWord_header f op false len7).trans (congrArg Except.ok ?_)
    exact if_pos (of_decide_eq_true hwf)
  | h7m f op len7 =>
    refine (decodeWord_header f op true len7).trans (congrArg Except.ok ?_)
    exact if_pos (of_decide_eq_true hwf)
  | h16u f op => exact decodeWord_header f op false 126#7
  | h16m f op => exact decodeWord_header f op true 126#7
  | h64u f op => exact decodeWord_header f op false 127#7
  | h64m f op => exact decodeWord_header f op true 127#7
  | _ f => exact decodeWord_byteZeroOf f _

/-! ### What the decoder accepts -/

/-- The word of an instruction: its slot, its bytes, and that its operands are legal. -/
def IsWordOf (slot : Slot) (bs : List Byte) (i : Instr) : Prop := slotOf i = slot ∧ encodeWord i = bs ∧ WellFormed i

theorem isWordOf_builderInstr {c : Command} {i : Instr} (h : builderInstr c = .ok i) :
    IsWordOf .call (commandBytes c) i := by
  obtain ⟨t, n, k⟩ := c
  unfold builderInstr at h
  split_ifs at h with h1 h2 h3 h4 h5 <;> cases h
  · exact ⟨rfl, by rw [show t = 0x81#8 from h1]; rfl, rfl⟩
  · exact ⟨rfl, by rw [show t = 0x82#8 from h2]; rfl, rfl⟩
  · exact ⟨rfl, by rw [show t = 0x89#8 from h3]; rfl, rfl⟩
  · exact ⟨rfl, by rw [show t = 0x8A#8 from h4]; rfl, rfl⟩
  · exact ⟨rfl, by rw [show t = 0x88#8 from h5]; rfl, rfl⟩

theorem isWordOf_opcodeInstr (f : HeadFlags) (op : BitVec 4) :
    IsWordOf .byteZero [byteZeroOf f op] (opcodeInstr f op) := by
  obtain ⟨v⟩ := op
  fin_cases v <;> exact ⟨rfl, rfl, rfl⟩

/-- A `len7` above 125 announces a 16-bit or a 64-bit length. -/
theorem len7_eq_126_or_127 {n : BitVec 7} (h : ¬ n.toNat ≤ 125) : n = 126#7 ∨ n = 127#7 := by
  bv_omega

theorem isWordOf_headerInstr (f : HeadFlags) (op : BitVec 4) (m : Bool) (n : BitVec 7) :
    IsWordOf .header [byteZeroOf f op, byteOneOf m n] (headerInstr f op m n) := by
  by_cases hinline : n.toNat ≤ 125
  · have hwf : decide (n.toNat ≤ Config.len7InlineMax) = true := decide_eq_true hinline
    rw [headerInstr, if_pos (show n.toNat ≤ Config.len7InlineMax from hinline)]
    cases m
    · exact ⟨rfl, rfl, hwf⟩
    · exact ⟨rfl, rfl, hwf⟩
  · obtain rfl | rfl := len7_eq_126_or_127 hinline
    · cases m <;> exact ⟨rfl, rfl, rfl⟩
    · cases m <;> exact ⟨rfl, rfl, rfl⟩

/-- Settles O29: each slot's bytes are put together again from the fields the decoder took from them. -/
theorem encodeOfDecodeIsIdentity : Obligations.EncodeOfDecodeIsIdentity := by
  intro slot bs i h
  show IsWordOf slot bs i
  unfold decodeWord at h
  split at h
  case h_1 =>
    split at h
    case h_1 c hc => exact commandBytes_of_commandOf hc ▸ isWordOf_builderInstr h
    case h_2 => cases h
  case h_2 =>
    split at h
    case h_1 c hc =>
      cases h
      exact ⟨rfl, commandBytes_of_commandOf hc, rfl⟩
    case h_2 => cases h
  case h_3 b =>
    cases h
    simpa only [byteZeroOf_flagsOf_opcodeOf] using isWordOf_opcodeInstr (flagsOf b) (opcodeOf b)
  case h_5 b0 b1 =>
    cases h
    simpa only [byteZeroOf_flagsOf_opcodeOf, byteOneOf_maskedOf_len7Of] using
      isWordOf_headerInstr (flagsOf b0) (opcodeOf b0) (maskedOf b1) (len7Of b1)
  case h_7 =>
    cases h
    exact ⟨rfl, rfl, rfl⟩
  all_goals cases h

/-- Settles O30: each word is closed, so the decoder evaluates. -/
theorem tableWordsDecode : Obligations.TableWordsDecode := by
  unfold Obligations.TableWordsDecode
  decide

end Sys2Proof.Machine
end

section
/-! The step, head of the script by head: what an agent's turn runs, when it waits, and the moves of the environment. -/

namespace Sys2Proof.Machine

/-! ### Who has a step -/

theorem fetchedWord_enc_eq_none_iff (s : State) : fetchedWord s .enc = none ↔ encEnabled s = false := by
  rw [fetchedWord_enc]
  cases encEnabled s <;> simp

theorem fetchedWord_dec_eq_none_iff (s : State) : fetchedWord s .dec = none ↔ decEnabled s = false := by
  cases hd : s.dIn with
  | nil => simp [fetchedWord, decEnabled, hd]
  | cons b rest => cases he : decEnabled s <;> simp [fetchedWord_dec s b rest hd, he]

theorem selectAgent_of_decodeWord {s : State} {a : Agent} {slot : Slot} {bs : List Byte} {i : Instr}
    (hword : fetchedWord s a = some (slot, bs)) (hdecode : decodeWord slot bs = .ok i) :
    selectAgent s a = .run i := by
  simp only [selectAgent, hword, hdecode]

theorem select_of_turn {s : State} {a : Agent} {moves : List Move} (hscript : s.script = .turn a :: moves) :
    select s = selectAgent s a := by
  rw [select, hscript]

theorem step_of_select_run {s : State} {i : Instr} (h : select s = .run i) : step s = exec i s := by
  rw [step, h]

theorem step_of_select_wait {s : State} {a : Agent} (h : select s = .wait a) : step s = .next (s.endTurn a) := by
  rw [step, h]

/-- A move that is no agent's turn is the environment's. -/
theorem step_of_move {s : State} {m : Move} {moves : List Move} (hscript : s.script = m :: moves)
    (hm : ∀ a, m ≠ .turn a) : step s = .next (environmentMove s.popMove m) := by
  have hselect : select s = .env m := by
    rw [select, hscript]
    cases m with
    | turn a => exact absurd rfl (hm a)
    | _ => rfl
  rw [step, hselect]

/-- Settles O19: the decoded word is what the agent in turn runs; with an empty script the turn is that of the first
agent that fetches a word. -/
theorem stepRunsDecodedInstruction : Obligations.StepRunsDecodedInstruction := by
  intro s slot bs i hdecode _
  have run {a : Agent} (hselect : select s = selectAgent s a) (hword : fetchedWord s a = some (slot, bs)) :
      step s = exec i s :=
    step_of_select_run (hselect.trans (selectAgent_of_decodeWord hword hdecode))
  refine ⟨fun a rest hscript => run (select_of_turn hscript), fun hscript hdrv => ?_, fun hscript hdrv henc => ?_,
    fun hscript hdrv henc hdec => ?_⟩
  · have h1 : drvEnabled s = true := by
      by_contra hn
      simp [(fetchedWord_drv s).mpr (by simpa using hn)] at hdrv
    exact run (by simp [select, hscript, h1]) hdrv
  · have h1 := (fetchedWord_drv s).mp hdrv
    have h2 : encEnabled s = true := by
      by_contra hn
      simp [(fetchedWord_enc_eq_none_iff s).mpr (by simpa using hn)] at henc
    exact run (by simp [select, hscript, h1, h2]) henc
  · have h1 := (fetchedWord_drv s).mp hdrv
    have h2 := (fetchedWord_enc_eq_none_iff s).mp henc
    have h3 : decEnabled s = true := by
      by_contra hn
      simp [(fetchedWord_dec_eq_none_iff s).mpr (by simpa using hn)] at hdec
    exact run (by simp [select, hscript, h1, h2, h3]) hdec

/-! ### A turn without a step -/

theorem endTurn_of_turn {s : State} {a : Agent} {moves : List Move} (hscript : s.script = .turn a :: moves) :
    s.endTurn a = { s with script := moves } := by
  rw [State.endTurn, hscript, dropTurn_own]

/-- An agent that fetches nothing loses its turn and changes nothing else. -/
theorem step_of_turn_without_word {s : State} {a : Agent} {moves : List Move} (hscript : s.script = .turn a :: moves)
    (hword : fetchedWord s a = none) : step s = .next { s with script := moves } := by
  rw [step_of_select_wait ((select_of_turn hscript).trans (selectAgent_waits s a hword)), endTurn_of_turn hscript]

/-- Settles O22: in both cases DEC is not enabled. -/
theorem decWaitsWithoutTransfer : Obligations.DecWaitsWithoutTransfer := by
  intro s moves hscript hwait
  refine step_of_turn_without_word hscript ((fetchedWord_dec_eq_none_iff s).mpr ?_)
  obtain hnone | ⟨hphase, hready⟩ := hwait
  · simp [decEnabled, hnone]
  · simp [decEnabled, hphase, hready]

/-- Settles O23: in each case ENC is not enabled. -/
theorem encWaitsWithoutTransfer : Obligations.EncWaitsWithoutTransfer := by
  intro s moves hscript hwait
  refine step_of_turn_without_word hscript ((fetchedWord_enc_eq_none_iff s).mpr ?_)
  obtain ⟨hphase, hnone⟩ | ⟨hphase, hready⟩ | ⟨hphase, hnone | hready⟩ := hwait
  · simp [encEnabled, hphase, hnone]
  · simp [encEnabled, hphase, hready]
  · simp [encEnabled, hphase, hnone]
  · simp [encEnabled, hphase, hready]

/-! ### The moves of the environment -/

/-- Settles O24: a reset event leaves free values in every register but the phases. -/
theorem resetEventIdlesBothUnits : Obligations.ResetEventIdlesBothUnits := by
  intro s moves hscript
  refine ⟨decAfterReset s.resets, encAfterReset s.resets, rfl, rfl, ?_⟩
  rw [step_of_move hscript (by simp), State.popMove, hscript]
  rfl

/-- Settles O54: move by move; a withdrawal by whether it is permitted. -/
theorem environmentMovesOffer : Obligations.EnvironmentMovesOffer := by
  intro s moves
  have move {m : Move} (hscript : s.script = m :: moves) (hm : ∀ a, m ≠ .turn a) :
      step s = .next (environmentMove { s with script := moves } m) := by
    rw [step_of_move hscript hm, State.popMove, hscript]
    rfl
  refine ⟨fun b h => move h (by simp), fun c h => move h (by simp), fun p h => move h (by simp),
    fun c operands h => move h (by simp), fun h => ?dIn, fun h => ?eCmd, fun h => ?eIn, fun h => ?calls,
    fun v h => move h (by simp), fun v h => move h (by simp)⟩
  case dIn => rw [move h (by simp)]; cases hp : s.mayWithdraw.dIn <;> simp [environmentMove, State.withdraw, hp]
  case eCmd => rw [move h (by simp)]; cases hp : s.mayWithdraw.eCmd <;> simp [environmentMove, State.withdraw, hp]
  case eIn => rw [move h (by simp)]; cases hp : s.mayWithdraw.eIn <;> simp [environmentMove, State.withdraw, hp]
  case calls => rw [move h (by simp)]; cases hp : s.mayWithdraw.calls <;> simp [environmentMove, State.withdraw, hp]

/-! ### After reset -/

/-- Settles O25: on the one state after reset each output evaluates. -/
theorem resetLeavesUnitsIdle : Obligations.ResetLeavesUnitsIdle := by
  unfold Obligations.ResetLeavesUnitsIdle
  decide

/-- Settles O32: both units are idle. -/
theorem resetIsWellFormed : Obligations.ResetIsWellFormed := ⟨rfl, rfl⟩

/-- Settles O34: the trace is empty and DEC is in D_B0. -/
theorem resetTraceInOrder : Obligations.ResetTraceInOrder := rfl

end Sys2Proof.Machine
end

section
/-! What one DEC step emits and where it leaves DEC, said once for all phases (R74, R163 to R169): a step presents at most
a `Hdr` or a `Pay`, and a `Done` exactly when it goes to D_B0. Then what well-formed registers are in each phase. -/

namespace Sys2Proof.Machine

/-- The `Done` record of "end the call with S" (R240, part 2 of 41_decoder.md). -/
def doneOf (st : Status) (last : Bool) : DecEvent := .done st (closeCode st) (remPresent st last)

/-- `DecEmits p events q`: a DEC step from phase `p` to phase `q` may emit these events. -/
inductive DecEmits : DecPhase → List DecEvent → DecPhase → Prop where
  /-- A header byte that completes nothing. -/
  | silent {p q : DecPhase} (hp : p ≠ .pay) (hb0 : q ≠ .b0) (hpay : q ≠ .pay) : DecEmits p [] q
  /-- The call ends inside its header. -/
  | cut {p : DecPhase} (hp : p ≠ .pay) (st : Status) (hst : st = .tooBig → p = .ext) (last : Bool) :
      DecEmits p [doneOf st last] .b0
  /-- The header is complete and a payload follows. -/
  | opens {p : DecPhase} (hp : p ≠ .pay) (hb0 : p ≠ .b0) (h : Hdr) : DecEmits p [.hdr h] .pay
  /-- The header is complete and the call ends with it. -/
  | header {p : DecPhase} (hp : p ≠ .pay) (h : Hdr) (st : Status) (hst : st ≠ .tooBig) (last : Bool) :
      DecEmits p [.hdr h, doneOf st last] .b0
  /-- A payload byte, and more to come. -/
  | byte (d : Byte) : DecEmits .pay [.pay d false] .pay
  /-- A payload byte, and the call ends with it. -/
  | final (d : Byte) (l : Bool) (st : Status) (hst : st ≠ .tooBig) (last : Bool) :
      DecEmits .pay [.pay d l, doneOf st last] .b0

theorem endCall_short_emits {p : DecPhase} (hp : p ≠ .pay) (r : DecRegs) (l : Bool) :
    DecEmits p (endCall r .short l []).events (endCall r .short l []).regs.phase := .cut hp .short (by simp) l

theorem headerComplete_emits {p : DecPhase} (hp : p ≠ .pay) (hb0 : p ≠ .b0) (r : DecRegs) (l : Bool) :
    DecEmits p (headerComplete r l).events (headerComplete r l).regs.phase := by
  obtain ⟨-, h⟩ | ⟨-, -, h⟩ | ⟨-, -, h⟩ := headerComplete_cases r l <;> rw [h]
  · exact .header hp (hdrOf r) .ok (by decide) l
  · exact .header hp (hdrOf r) .short (by decide) l
  · exact .opens hp hb0 (hdrOf r)

theorem lengthComplete_emits {p : DecPhase} (hp : p ≠ .pay) (hb0 : p ≠ .b0) (r : DecRegs) (l : Bool) :
    DecEmits p (lengthComplete r l).events (lengthComplete r l).regs.phase := by
  obtain ⟨-, -, h⟩ | ⟨-, -, h⟩ | ⟨-, h⟩ := lengthComplete_cases r l <;> rw [h]
  · exact endCall_short_emits hp r l
  · exact .silent hp (by simp) (by simp)
  · exact headerComplete_emits hp hb0 r l

theorem byteZeroStep_emits {p : DecPhase} (hp : p ≠ .pay) (r : DecRegs) (f : HeadFlags) (op : BitVec 4) (l : Bool) :
    DecEmits p (byteZeroStep r f op l).events (byteZeroStep r f op l).regs.phase := by
  obtain ⟨-, h⟩ | ⟨-, h⟩ := byteZeroStep_cases r f op l <;> rw [h]
  · exact endCall_short_emits hp _ l
  · exact .silent hp (by simp) (by simp)

theorem byteOneStep_emits {p : DecPhase} (hp : p ≠ .pay) (hb0 : p ≠ .b0) (r : DecRegs) (m : Bool) (n : BitVec 7)
    (l : Bool) : DecEmits p (byteOneStep r m n l).events (byteOneStep r m n l).regs.phase := by
  obtain ⟨-, h⟩ | ⟨-, -, h⟩ | ⟨-, -, h⟩ := byteOneStep_cases r m n l <;> rw [h]
  · exact lengthComplete_emits hp hb0 _ l
  · exact endCall_short_emits hp _ l
  · exact .silent hp (by simp) (by simp)

/-- What every DEC step emits, by the phase before it and the phase after it. -/
theorem decStep_emits (r : DecRegs) (b : Beat) :
    DecEmits r.phase (decStep r b).events (decStep r b).regs.phase := by
  unfold decStep
  cases hp : r.phase with
  | b0 => exact byteZeroStep_emits (by simp) r _ _ b.last
  | b1 => exact byteOneStep_emits (by simp) (by simp) r _ _ b.last
  | ext =>
    dsimp only
    obtain ⟨-, h⟩ | ⟨-, -, h⟩ | ⟨-, -, -, h⟩ | ⟨-, -, -, h⟩ := extStep_cases r b.data b.last <;> rw [h]
    · exact .cut (by simp) .tooBig (fun _ => rfl) b.last
    · exact lengthComplete_emits (by simp) (by simp) _ b.last
    · exact endCall_short_emits (by simp) _ b.last
    · exact .silent (by simp) (by simp [hp]) (by simp [hp])
  | key =>
    dsimp only
    obtain ⟨-, h⟩ | ⟨-, -, h⟩ | ⟨-, -, h⟩ := keyStep_cases r b.data b.last <;> rw [h]
    · exact headerComplete_emits (by simp) (by simp) _ b.last
    · exact endCall_short_emits (by simp) _ b.last
    · exact .silent (by simp) (by simp [hp]) (by simp [hp])
  | pay =>
    dsimp only
    obtain ⟨-, h⟩ | ⟨-, -, h⟩ | ⟨-, -, h⟩ := payStep_cases r b.data b.last <;> rw [h]
    · exact .final _ true .ok (by decide) b.last
    · exact .final _ false .short (by decide) b.last
    · simpa [hp] using DecEmits.byte (b.data ^^^ payMask r)

/-! ### What follows for the events of a step -/

theorem doneRecordOk_doneOf (st : Status) (l : Bool) : doneRecordOk (doneOf st l) = true := by
  cases st <;> cases l <;> rfl

/-- R240 for one step. -/
theorem DecEmits.doneRecordOk {p q : DecPhase} {ev : List DecEvent} (h : DecEmits p ev q) :
    ∀ e ∈ ev, doneRecordOk e = true := by
  have hdr (h : Hdr) : Machine.doneRecordOk (.hdr h) = true := rfl
  have pay (d : Byte) (l : Bool) : Machine.doneRecordOk (.pay d l) = true := rfl
  cases h <;> simp [hdr, pay, doneRecordOk_doneOf]

/-- R74 for one step: read after a trace that is in order for `p`, the events leave it in order for `q`. -/
theorem DecEmits.readEvents {p q : DecPhase} {ev : List DecEvent} (h : DecEmits p ev q) :
    ev.foldlM readEvent (p == .pay) = some (q == .pay) := by
  cases h with
  | silent hp _ hpay => simp [hp, hpay]
  | cut hp st _ l => rfl
  | opens hp _ h => simp [hp, readEvent]
  | header hp h st _ l => simp [hp, readEvent, doneOf]
  | byte d => rfl
  | final d l st _ last => rfl

/-- At most one event on each channel (R163). -/
theorem DecEmits.counts {p q : DecPhase} {ev : List DecEvent} (h : DecEmits p ev q) :
    (ev.filter isHdr).length ≤ 1 ∧ (ev.filter isPay).length ≤ 1 ∧ (ev.filter isDone).length ≤ 1 := by
  cases h <;> simp [List.filter, isHdr, isPay, isDone, doneOf]

/-- A step emits one `Done` if it goes to D_B0 and none otherwise. -/
theorem DecEmits.countP_isDone {p q : DecPhase} {ev : List DecEvent} (h : DecEmits p ev q) :
    ev.countP isDone = if q = .b0 then 1 else 0 := by
  cases h with
  | silent _ hb0 _ => simp [hb0]
  | _ => rfl

theorem DecEmits.any_isDone {p q : DecPhase} {ev : List DecEvent} (h : DecEmits p ev q) :
    ev.any isDone = (q == .b0) := by
  cases h with
  | silent _ hb0 _ => simp [hb0]
  | _ => rfl

/-- A step emits a `Pay` exactly in D_PAY. -/
theorem DecEmits.any_isPay {p q : DecPhase} {ev : List DecEvent} (h : DecEmits p ev q) :
    ev.any isPay = (p == .pay) := by
  cases h with
  | silent hp _ _ => simp [hp]
  | cut hp st _ l => simp [hp, isPay, doneOf]
  | opens hp _ h => simp [hp, isPay]
  | header hp h st _ l => simp [hp, isPay, doneOf]
  | byte d => rfl
  | final d l st _ last => rfl

/-- A step that ends in TOO_BIG emits that `Done` alone and goes from D_EXT to D_B0 (R154, R248). -/
theorem DecEmits.eq_of_endsTooBig {p q : DecPhase} {ev : List DecEvent} (h : DecEmits p ev q)
    (hbig : endsTooBig ev = true) : ev = [.done .tooBig 1009#16 false] ∧ p = .ext ∧ q = .b0 := by
  cases h with
  | silent _ _ _ => cases hbig
  | cut _ st hst l =>
    obtain rfl : st = .tooBig := by simpa [doneOf] using hbig
    exact ⟨rfl, hst rfl, rfl⟩
  | opens _ _ h => cases hbig
  | header _ h st hst l => simp [doneOf, hst] at hbig
  | byte d => cases hbig
  | final d l st hst last => simp [doneOf, hst] at hbig

theorem DecEmits.endsTooBig_eq {p q : DecPhase} {ev : List DecEvent} (h : DecEmits p ev q) :
    endsTooBig ev = decide (DecEvent.done .tooBig 1009#16 false ∈ ev) := by
  rw [Bool.eq_iff_iff, decide_eq_true_iff]
  refine ⟨fun hbig => by simp [(h.eq_of_endsTooBig hbig).1], fun hmem => ?_⟩
  exact List.any_eq_true.mpr ⟨_, hmem, rfl⟩

/-- Only D_EXT has the guard. -/
theorem DecEmits.endsTooBig_eq_false {p q : DecPhase} {ev : List DecEvent} (h : DecEmits p ev q) (hp : p ≠ .ext) :
    endsTooBig ev = false := by
  by_contra hbig
  exact hp (h.eq_of_endsTooBig (by simpa using hbig)).2.1

/-! ### Well-formed registers, phase by phase -/

theorem lengthFits_iff (r : DecRegs) :
    lengthFits r = true ↔
      (r.len7.toNat ≤ 125 → r.len.toNat = r.len7.toNat) ∧ (r.len7 = 126#7 → r.len.toNat < 65536) := by
  unfold lengthFits Config.len7InlineMax Config.len7Ext16
  by_cases hinline : r.len7.toNat ≤ 125
  · have hne : r.len7 ≠ 126#7 := fun h => by rw [h] at hinline; exact absurd hinline (by decide)
    simp [hinline, hne]
  · by_cases hext : r.len7 = 126#7
    · simp [hext]
    · simp [hinline, hext]

theorem partialLengthFits_iff (r : DecRegs) :
    partialLengthFits r = true ↔ r.len.toNat < 256 ^ r.idx.toNat ∧
      (r.idx.toNat < 4 ∨ r.len.toNat / 256 ^ (r.idx.toNat - 4) ≤ 2 ^ 21 - 1) := by
  show _ ↔ _ ∧ (_ ∨ _ ≤ Config.high32Max)
  simp [partialLengthFits]

theorem decWellFormed_of_b0 {r : DecRegs} (hp : r.phase = .b0) : decWellFormed r = true := by
  simp [decWellFormed, hp]

theorem decWellFormed_of_b1 {r : DecRegs} (hp : r.phase = .b1) : decWellFormed r = true := by
  simp [decWellFormed, hp]

theorem decWellFormed_ext_iff {r : DecRegs} (hp : r.phase = .ext) :
    decWellFormed r = true ↔
      125 < r.len7.toNat ∧ r.idx.toNat < extTotal r.len7 ∧ partialLengthFits r = true := by
  show _ ↔ Config.len7InlineMax < _ ∧ _
  simp [decWellFormed, hp, and_assoc]

theorem decWellFormed_key_iff {r : DecRegs} (hp : r.phase = .key) :
    decWellFormed r = true ↔ r.masked = true ∧ r.idx.toNat < 4 ∧ lengthFits r = true := by
  show _ ↔ _ ∧ _ < Config.keyBytes ∧ _
  simp [decWellFormed, hp, and_assoc]

theorem decWellFormed_pay_iff {r : DecRegs} (hp : r.phase = .pay) :
    decWellFormed r = true ↔ r.cnt.toNat < r.len.toNat ∧ lengthFits r = true := by
  simp [decWellFormed, hp]

theorem encWellFormed_of_idle {r : EncRegs} (hp : r.phase = .idle) : encWellFormed r = true := by
  simp [encWellFormed, hp]

theorem encWellFormed_hdr_iff {r : EncRegs} (hp : r.phase = .hdr) :
    encWellFormed r = true ↔ r.hidx.toNat < encodedHeaderLength r.n := by
  simp [encWellFormed, hp]

theorem encWellFormed_pay_iff {r : EncRegs} (hp : r.phase = .pay) :
    encWellFormed r = true ↔ r.cnt.toNat < r.n.toNat := by
  simp [encWellFormed, hp]

end Sys2Proof.Machine
end

section
/-! The rows DEC runs: DECODE phase by phase, and the OP_* and header forms it selects (R163 to R169). -/

namespace Sys2Proof.Machine

/-! ### Taking a byte -/

theorem decStep_of_ext {r : DecRegs} (b : Beat) (hp : r.phase = .ext) : decStep r b = extStep r b.data b.last := by
  simp only [decStep, hp]

theorem decStep_of_key {r : DecRegs} (b : Beat) (hp : r.phase = .key) : decStep r b = keyStep r b.data b.last := by
  simp only [decStep, hp]

theorem decStep_of_pay {r : DecRegs} (b : Beat) (hp : r.phase = .pay) : decStep r b = payStep r b.data b.last := by
  simp only [decStep, hp]

theorem decStep_of_b0 {r : DecRegs} (b : Beat) (hp : r.phase = .b0) :
    decStep r b = byteZeroStep r (flagsOf b.data) (opcodeOf b.data) b.last := by
  simp only [decStep, hp]

theorem decStep_of_b1 {r : DecRegs} (b : Beat) (hp : r.phase = .b1) :
    decStep r b = byteOneStep r (maskedOf b.data) (len7Of b.data) b.last := by
  simp only [decStep, hp]

theorem takeBeat_of_byte {s : State} {b : Beat} {rest : List Beat} (hd : s.dIn = b :: rest)
    (f : DecRegs → Beat → DecResult) :
    takeBeat s f = .next { s.endTurn .dec with
      dIn := rest, dec := (f s.dec b).regs, dTrace := s.dTrace ++ (f s.dec b).events
      mayWithdraw := { s.mayWithdraw with dIn := endsTooBig (f s.dec b).events } } := by
  rw [takeBeat, hd]

theorem decEnabled_of_byte {s : State} {b : Beat} {rest : List Beat} (hd : s.dIn = b :: rest)
    (hready : s.dec.phase = .pay → s.dOutReady = true) : decEnabled s = true := by
  by_cases hp : s.dec.phase = .pay
  · simp [decEnabled, hd, hready hp]
  · simp [decEnabled, hd, hp]

theorem exec_decode_eq_takeBeat {s : State} {b : Beat} {rest : List Beat} (hd : s.dIn = b :: rest)
    (hready : s.dec.phase = .pay → s.dOutReady = true) (hkey : ¬(s.dec.phase = .key ∧ 3 < s.dec.idx.toNat)) :
    exec .decode s = takeBeat s decStep := by
  obtain ⟨hp, hidx, -⟩ | ⟨-, h⟩ := execDecode_steps s (decEnabled_of_byte hd hready)
  · exact absurd ⟨hp, hidx⟩ hkey
  · exact h

/-- DECODE on an offered byte commits the register step of DEC's phase. -/
theorem exec_decode_of_byte {s : State} {b : Beat} {rest : List Beat} (hd : s.dIn = b :: rest)
    (hready : s.dec.phase = .pay → s.dOutReady = true) (hkey : ¬(s.dec.phase = .key ∧ 3 < s.dec.idx.toNat)) :
    exec .decode s = .next { s.endTurn .dec with
      dIn := rest, dec := (decStep s.dec b).regs, dTrace := s.dTrace ++ (decStep s.dec b).events
      mayWithdraw := { s.mayWithdraw with dIn := endsTooBig (decStep s.dec b).events } } := by
  rw [exec_decode_eq_takeBeat hd hready hkey, takeBeat_of_byte hd]

/-- Outside D_EXT no step ends in TOO_BIG, so the permission on `d_in` ends with the transfer. -/
theorem exec_decode_of_byte_of_phase_ne_ext {s : State} {b : Beat} {rest : List Beat} (hd : s.dIn = b :: rest)
    (hready : s.dec.phase = .pay → s.dOutReady = true) (hkey : ¬(s.dec.phase = .key ∧ 3 < s.dec.idx.toNat))
    (hext : s.dec.phase ≠ .ext) :
    exec .decode s = .next { s.endTurn .dec with
      dIn := rest, dec := (decStep s.dec b).regs, dTrace := s.dTrace ++ (decStep s.dec b).events
      mayWithdraw := { s.mayWithdraw with dIn := false } } := by
  rw [exec_decode_of_byte hd hready hkey, (decStep_emits s.dec b).endsTooBig_eq_false hext]

/-! ### The OP_* rows -/

/-- The sixteen rows are `opcodeInstr` at the sixteen opcode values. -/
theorem opcodeRows_eq (f : HeadFlags) :
    opcodeRows f = (List.range 16).map fun v => (opcodeInstr f (BitVec.ofNat 4 v), BitVec.ofNat 4 v) := rfl

theorem takeByteZero_of_byte {s : State} {b : Beat} {rest : List Beat} (hd : s.dIn = b :: rest) (f : HeadFlags)
    (op : BitVec 4) :
    takeByteZero f op s = .next { s.endTurn .dec with
      dIn := rest
      mayWithdraw := { s.mayWithdraw with dIn := false }
      dec := { s.dec with
        fin := f.fin, rsv1 := f.rsv1, rsv2 := f.rsv2, rsv3 := f.rsv3, opcode := op
        phase := if b.last then .b0 else .b1 }
      dTrace := s.dTrace ++ if b.last then [.done .short 1002#16 false] else [] } := by
  rw [takeByteZero, takeBeat_of_byte hd]
  obtain ⟨hl, h⟩ | ⟨hl, h⟩ := byteZeroStep_cases s.dec f op b.last
  · rw [h, hl]; rfl
  · rw [h, hl]; rfl

/-- Settles O1: every row is one opcode value of the step in D_B0. -/
theorem opcodeRowsTakeByteZero : Obligations.OpcodeRowsTakeByteZero := by
  intro s f b rest hd row hrow
  rw [opcodeRows_eq, List.mem_map] at hrow
  obtain ⟨v, -, rfl⟩ := hrow
  rw [exec_opcodeInstr, takeByteZero_of_byte hd]

/-! ### The header forms -/

theorem takeByteOne_of_byte {s : State} {b : Beat} {rest : List Beat} (hd : s.dIn = b :: rest) (f : HeadFlags)
    (op : BitVec 4) (m : Bool) (n : BitVec 7) :
    takeByteOne f op m n s = .next { s.endTurn .dec with
      dIn := rest
      mayWithdraw := { s.mayWithdraw with dIn := false }
      dec := (byteOneStep (latchByteZero s.dec f op) m n b.last).regs
      dTrace := s.dTrace ++ (byteOneStep (latchByteZero s.dec f op) m n b.last).events } := by
  have hemits : DecEmits .b1 (byteOneStep (latchByteZero s.dec f op) m n b.last).events _ :=
    byteOneStep_emits (by simp) (by simp) _ m n b.last
  rw [takeByteOne, takeBeat_of_byte hd, hemits.endsTooBig_eq_false (by simp)]

theorem byteOneStep_inline (r : DecRegs) (m : Bool) {n : BitVec 7} (l : Bool) (hn : n.toNat ≤ 125) :
    byteOneStep r m n l = lengthComplete { r with masked := m, len7 := n, len := n.setWidth 53 } l := if_pos hn

theorem lengthComplete_unmasked (r : DecRegs) (l : Bool) (hm : r.masked = false) :
    lengthComplete r l = headerComplete r l := if_neg (by simp [hm])

theorem setWidth_len7_eq_zero_iff (n : BitVec 7) : n.setWidth 53 = 0#53 ↔ n = 0#7 := by
  bv_omega

/-- Settles O2: the length is whole and there is no key, so the header-complete procedure runs. -/
theorem formH7UCompletesHeader : Obligations.FormH7UCompletesHeader := by
  intro s f op n b rest hwf hd
  show takeByteOne f op false n s = _
  rw [takeByteOne_of_byte hd, byteOneStep_inline _ false b.last (of_decide_eq_true hwf)]
  rw [lengthComplete_unmasked _ b.last rfl, headerCompleteProcedure _ b.last]
  simp only [setWidth_len7_eq_zero_iff]
  by_cases hn : n = 0#7
  · simp [hn, latchByteZero]
  · cases hl : b.last <;> simp [hn, latchByteZero]

/-- Settles O3: the length is whole and the key is next. -/
theorem formH7MAwaitsKey : Obligations.FormH7MAwaitsKey := by
  intro s f op n b rest hwf hd
  show takeByteOne f op true n s = _
  rw [takeByteOne_of_byte hd, byteOneStep_inline _ true b.last (of_decide_eq_true hwf)]
  obtain ⟨-, hl, h⟩ | ⟨-, hl, h⟩ | ⟨hm, -⟩ := lengthComplete_cases
    { latchByteZero s.dec f op with masked := true, len7 := n, len := n.setWidth 53 } b.last
  · rw [h, hl]; rfl
  · rw [h, hl]; rfl
  · cases hm

theorem takeByteOne_extended {s : State} {b : Beat} {rest : List Beat} (hd : s.dIn = b :: rest) (f : HeadFlags)
    (op : BitVec 4) (m : Bool) {n : BitVec 7} (hn : 125 < n.toNat) :
    takeByteOne f op m n s = .next { s.endTurn .dec with
      dIn := rest
      mayWithdraw := { s.mayWithdraw with dIn := false }
      dec := { s.dec with
        fin := f.fin, rsv1 := f.rsv1, rsv2 := f.rsv2, rsv3 := f.rsv3, opcode := op
        masked := m, len7 := n, len := 0#53, idx := 0#3
        phase := if b.last then .b0 else .ext }
      dTrace := s.dTrace ++ if b.last then [.done .short 1002#16 false] else [] } := by
  rw [takeByteOne_of_byte hd]
  obtain ⟨hle, -⟩ | ⟨-, hl, h⟩ | ⟨-, hl, h⟩ := byteOneStep_cases (latchByteZero s.dec f op) m n b.last
  · omega
  · rw [h, hl]; rfl
  · rw [h, hl]; rfl

/-- Settles O4: the four forms are the two mask flags at `len7` 126 and 127. -/
theorem extendedFormsAwaitLength : Obligations.ExtendedFormsAwaitLength := by
  intro s f op b rest hd row hrow
  simp only [extendedForms, List.mem_cons, List.not_mem_nil, or_false] at hrow
  obtain rfl | rfl | rfl | rfl := hrow <;> exact takeByteOne_extended hd f op _ (by decide)

/-! ### DECODE, phase by phase -/

/-- Settles O9: each row takes the step of its phase on the fields the byte holds. -/
theorem decodeRunsTheRowItReads : Obligations.DecodeRunsTheRowItReads := by
  refine fun s b rest hd => ⟨fun hp => ?_, fun hp => ?_⟩
  · rw [exec_decode_eq_takeBeat hd (by simp [hp]) (by simp [hp]), exec_opcodeInstr, takeByteZero, takeBeat_of_byte hd,
      takeBeat_of_byte hd, decStep_of_b0 b hp]
  · rw [exec_decode_eq_takeBeat hd (by simp [hp]) (by simp [hp]), exec_headerInstr, takeByteOne, takeBeat_of_byte hd,
      takeBeat_of_byte hd, decStep_of_b1 b hp]
    rfl

/-- Settles O6: the three tests of R166 in their order; only the first ends in TOO_BIG. -/
theorem decodeTakesLengthByte : Obligations.DecodeTakesLengthByte := by
  intro s b rest hp hd newlen E o
  have hlast : s.dec.idx.toNat = E - 1 ↔ s.dec.idx.toNat + 1 = extTotal s.dec.len7 := by
    have hE : E = extTotal s.dec.len7 := rfl
    have hpos : 2 ≤ extTotal s.dec.len7 := by unfold extTotal; split <;> omega
    omega
  have hstep : decStep s.dec b = o := by
    rw [decStep_of_ext b hp]
    simp only [o, hlast]
    rfl
  rw [exec_decode_of_byte hd (by simp [hp]) (by simp [hp]), (decStep_emits s.dec b).endsTooBig_eq, hstep]

theorem keySet_eq_ite (k : Key) {idx : BitVec 3} (b : Byte) (hidx : idx.toNat ≤ 3) :
    keySet k idx.toNat b =
      if idx = 0#3 then { k with k0 := b } else if idx = 1#3 then { k with k1 := b }
      else if idx = 2#3 then { k with k2 := b } else { k with k3 := b } := by
  obtain ⟨i⟩ := idx
  have hi : i.val ≤ 3 := hidx
  interval_cases h : i.val <;> simp [← BitVec.toNat_inj, h, keySet]

/-- Settles O7: the key register that `idx` names is the one `keySet` writes. -/
theorem decodeTakesKeyByte : Obligations.DecodeTakesKeyByte := by
  intro s b rest hp hidx hd key o
  refine ⟨?_, fun hwf => ((decWellFormed_key_iff hp).mp hwf).1⟩
  have hkey : keySet s.dec.key s.dec.idx.toNat b.data = key := keySet_eq_ite s.dec.key b.data hidx
  have hstep : decStep s.dec b = o := by
    rw [decStep_of_key b hp]
    simp only [o, ← hkey]
    rfl
  rw [exec_decode_of_byte_of_phase_ne_ext hd (by simp [hp]) (by omega) (by simp [hp]), hstep]

theorem keyLane_eq_ite (k : Key) (i : Nat) :
    keyLane k i = if i % 4 = 0 then k.k0 else if i % 4 = 1 then k.k1 else if i % 4 = 2 then k.k2 else k.k3 := by
  unfold keyLane
  have hi := Nat.mod_lt i (show 0 < 4 by decide)
  interval_cases i % 4 <;> rfl

@[simp] theorem keyLane_mod (k : Key) (i : Nat) : keyLane k (i % 4) = keyLane k i := by
  simp only [keyLane_eq_ite, Nat.mod_mod]

/-- `cnt[1:0]` is `cnt mod 4` (R169, R206). -/
theorem keyLane_lowBits {w : Nat} (k : Key) (cnt : BitVec w) :
    keyLane k (cnt.extractLsb' 0 2).toNat = keyLane k cnt.toNat := by
  simp [BitVec.extractLsb'_toNat]

theorem headerComplete_cnt_of_pay (r : DecRegs) (l : Bool) (h : (headerComplete r l).regs.phase = .pay) :
    (headerComplete r l).regs.cnt = 0#53 := by
  obtain ⟨-, e⟩ | ⟨-, -, e⟩ | ⟨-, -, e⟩ := headerComplete_cases r l <;> rw [e] at h ⊢
  · cases h
  · cases h

/-- Settles O8: the byte is unmasked with the lane of `cnt mod 4`, and the count tells the frame's last byte. -/
theorem decodeTakesPayloadByte : Obligations.DecodeTakesPayloadByte := by
  intro s b rest hp hready hd lane data o
  refine ⟨?_, headerComplete_cnt_of_pay⟩
  have hdata : b.data ^^^ payMask s.dec = data := by
    rw [payMask, keyLane_lowBits, keyLane_eq_ite]
  have hstep : decStep s.dec b = o := by
    simp only [decStep_of_pay b hp, o, ← hdata]
    obtain ⟨hc, h⟩ | ⟨hc, hl, h⟩ | ⟨hc, hl, h⟩ := payStep_cases s.dec b.data b.last
    · rw [h, if_pos hc]; rfl
    · rw [h, if_neg hc, if_pos hl]; rfl
    · rw [h, if_neg hc, if_neg (by simp [hl])]
  rw [exec_decode_of_byte_of_phase_ne_ext hd (fun _ => hready) (by simp [hp]) (by simp [hp]), hstep]

/-! ### The turn of DEC -/

/-- The turn of DEC is DECODE, with or without a step. -/
theorem step_of_dec_turn {s : State} {moves : List Move} (hscript : s.script = .turn .dec :: moves) :
    step s = exec .decode s := by
  cases he : decEnabled s with
  | false =>
    rw [step_of_turn_without_word hscript ((fetchedWord_dec_eq_none_iff s).mpr he), ← endTurn_of_turn hscript]
    exact (execDecode_waits s he).symm
  | true =>
    cases hd : s.dIn with
    | nil => simp [decEnabled, hd] at he
    | cons b rest =>
      obtain ⟨i, hselect, hexec⟩ := run_dec s b rest hd he
      rw [step_of_select_run ((select_of_turn hscript).trans hselect), hexec]

/-- Settles O20: the row the byte holds, with the byte's own fields. -/
theorem stepInByteZeroPhase : Obligations.StepInByteZeroPhase := by
  intro s b rest moves hscript hp hd
  rw [step_of_dec_turn hscript, (decodeRunsTheRowItReads s b rest hd).1 hp, exec_opcodeInstr, takeByteZero_of_byte hd,
    endTurn_of_turn hscript]
  rfl

/-- Settles O21: the branches of R165 in their order. -/
theorem stepInByteOnePhase : Obligations.StepInByteOnePhase := by
  intro s b rest moves hscript hp hd masked len7 r o
  have hstep : decStep s.dec b = o := by
    rw [decStep_of_b1 b hp]
    rfl
  rw [step_of_dec_turn hscript, exec_decode_of_byte_of_phase_ne_ext hd (by simp [hp]) (by simp [hp]) (by simp [hp]),
    hstep, endTurn_of_turn hscript]

end Sys2Proof.Machine
end

section
/-! The rows of ENC and of the driver (R204, R206, R220 to R226), and the two faults (log 9). -/

namespace Sys2Proof.Machine

/-! ### ENCODE -/

/-- Settles O10: in E_IDLE the operands are latched, whatever else ENC holds. -/
theorem encodeAcceptsCommand : Obligations.EncodeAcceptsCommand := by
  intro s t n k rest hp hc
  change execEncode t n k s = _
  simp only [execEncode, hp, hc]
  rfl

theorem exec_encode_of_payload {s : State} {p : Byte} {rest : List Byte} (hp : s.enc.phase = .pay)
    (hready : s.eOutReady = true) (hi : s.eIn = p :: rest) (t : Byte) (n k : BitVec 32) :
    exec (.encode t n k) s = .next { (s.endTurn .enc).emitOut (encPayStep s.enc p) with
      eIn := rest, mayWithdraw := { s.mayWithdraw with eIn := false } } := by
  change execEncode t n k s = _
  simp only [execEncode, hp, hready, hi, if_true]

/-- Settles O12: the byte is masked with the lane of `cnt mod 4`, and the count tells the frame's last byte. -/
theorem encodeEmitsPayloadByte : Obligations.EncodeEmitsPayloadByte := by
  intro s t n k p rest hp hready hi lane
  have hlane : keyLane s.enc.key (s.enc.cnt.extractLsb' 0 2).toNat = lane := by
    rw [keyLane_lowBits, keyLane_eq_ite]
  refine ⟨?_, fun hwf _ => ?_⟩
  · rw [exec_encode_of_payload hp hready hi, ← hlane]
    obtain ⟨hc, h⟩ | ⟨hc, h⟩ := encPayStep_cases s.enc p
    · rw [h, if_pos hc, decide_eq_true hc]; rfl
    · rw [h, if_neg hc, decide_eq_false hc]; rfl
  · have hlt := (encWellFormed_pay_iff hp).mp hwf
    have hmax := s.enc.n.isLt
    omega

/-! ### The builders -/

theorem performCall_issues {s : State} {n : BitVec 32} {expand : List Byte → Option EncodeArgs} {operands rest : List Byte}
    {a : EncodeArgs} (hargs : s.args = operands ++ rest) (hn : operands.length = n.toNat) (ha : expand operands = some a) :
    performCall s n expand = .next { s.endTurn .drv with
      calls := s.calls.tail, args := rest
      eCmd := s.eCmd ++ [⟨a.typ, BitVec.ofNat 32 a.payload.length, a.key⟩], eIn := s.eIn ++ a.payload
      callLog := s.callLog ++ [.issued]
      mayWithdraw := { s.mayWithdraw with eCmd := false, eIn := false, calls := false } } := by
  have htake : s.args.take n.toNat = operands := by rw [hargs, List.take_left' hn]
  have hdrop : s.args.drop n.toNat = rest := by rw [hargs, List.drop_left' hn]
  have hlen : ¬ s.args.length < n.toNat := by rw [hargs, List.length_append]; omega
  rw [performCall, if_neg hlen, htake, ha, hdrop]

theorem performCall_refuses {s : State} {n : BitVec 32} {expand : List Byte → Option EncodeArgs} {operands rest : List Byte}
    (hargs : s.args = operands ++ rest) (hn : operands.length = n.toNat) (ha : expand operands = none) :
    performCall s n expand = .next { s.endTurn .drv with
      calls := s.calls.tail, args := rest, callLog := s.callLog ++ [.refused]
      mayWithdraw := { s.mayWithdraw with calls := false } } := by
  have htake : s.args.take n.toNat = operands := by rw [hargs, List.take_left' hn]
  have hdrop : s.args.drop n.toNat = rest := by rw [hargs, List.drop_left' hn]
  have hlen : ¬ s.args.length < n.toNat := by rw [hargs, List.length_append]; omega
  rw [performCall, if_neg hlen, htake, ha, hdrop]

theorem performCall_waits {s : State} {n : BitVec 32} (expand : List Byte → Option EncodeArgs)
    (hn : s.args.length < n.toNat) : performCall s n expand = .next (s.endTurn .drv) := if_pos hn

/-- The open builders expand to their type byte and the payload as it is (R221 to R223). -/
theorem exec_of_mem_openBuilders {n k : BitVec 32} {row : Instr × Byte} (hrow : row ∈ openBuilders n k) (s : State) :
    exec row.1 s = performCall s n fun p => some ⟨row.2, p, k⟩ := by
  simp only [openBuilders, List.mem_cons, List.not_mem_nil, or_false] at hrow
  obtain rfl | rfl | rfl | rfl := hrow <;> rfl

/-- Settles O13: the expansion keeps the payload, so its length is `n` again. -/
theorem openBuildersOfferOneCommand : Obligations.OpenBuildersOfferOneCommand := by
  intro s n k payload rest hargs hn row hrow
  rw [exec_of_mem_openBuilders hrow, performCall_issues hargs hn rfl, hn, BitVec.ofNat_toNat, BitVec.setWidth_eq]

theorem length_closeOperands (code : BitVec 16) (reason : List Byte) :
    (encBe16 code ++ reason).length = 2 + reason.length := by
  simp [encBe16]
  omega

theorem ofBe16_extract (v : BitVec 16) : ofBe16 (v.extractLsb' 8 8) (v.extractLsb' 0 8) = v := by
  unfold ofBe16
  ext i hi
  simp only [BitVec.getElem_append, BitVec.getElem_extractLsb']
  split
  · simp [BitVec.getLsbD_eq_getElem hi]
  · simp [show 8 + (i - 8) = i by omega, BitVec.getLsbD_eq_getElem hi]

theorem closeOfOperands_eq (k : BitVec 32) (code : BitVec 16) (reason : List Byte) :
    closeOfOperands k (encBe16 code ++ reason) = buildClose code reason k := by
  show buildClose (ofBe16 (code.extractLsb' 8 8) (code.extractLsb' 0 8)) reason k = _
  rw [ofBe16_extract]

/-- Settles O14: the expansion puts the code back in front of the reason. -/
theorem buildCloseOffersOneCommand : Obligations.BuildCloseOffersOneCommand := by
  intro s n k code reason rest hargs hn hreason
  have hlen : (encBe16 code ++ reason).length = n.toNat := by rw [length_closeOperands, hn]
  have hclose : closeOfOperands k (encBe16 code ++ reason) = some ⟨0x88#8, encBe16 code ++ reason, k⟩ := by
    rw [closeOfOperands_eq]
    exact if_pos hreason
  refine (performCall_issues hargs hlen hclose).trans ?_
  rw [hlen, BitVec.ofNat_toNat, BitVec.setWidth_eq]

/-- Settles O15: the reason is over the limit of R225. -/
theorem buildCloseRefusesLongReason : Obligations.BuildCloseRefusesLongReason := by
  intro s n k code reason rest hargs hn hreason
  have hlen : (encBe16 code ++ reason).length = n.toNat := by rw [length_closeOperands, hn]
  have hclose : closeOfOperands k (encBe16 code ++ reason) = none := by
    rw [closeOfOperands_eq]
    exact if_neg (Nat.not_le_of_lt hreason)
  exact performCall_refuses hargs hlen hclose

/-- Settles O16: no code can be read from fewer than two bytes. -/
theorem buildCloseRefusesMissingCode : Obligations.BuildCloseRefusesMissingCode := by
  intro s n k operands rest hargs hlen hn
  have hclose : closeOfOperands k operands = none := by
    match operands with
    | [] => rfl
    | [_] => rfl
    | _ :: _ :: _ => simp only [List.length_cons] at hlen; omega
  exact performCall_refuses hargs hlen hclose

/-- Settles O17: the driver waits whatever the expansion. -/
theorem buildersAwaitOperands : Obligations.BuildersAwaitOperands := by
  intro s n k hn
  refine ⟨fun row hrow => ?_, performCall_waits _ hn⟩
  rw [exec_of_mem_openBuilders hrow, performCall_waits _ hn]

/-! ### The outcomes of exec -/

theorem takeBeat_answers {o : Host.Outcome State Fault Refusal} {s : State} {f : DecRegs → Beat → DecResult}
    (ho : o = takeBeat s f) : ∃ t, o = .next t := by
  subst ho
  obtain ⟨-, h⟩ | ⟨b, rest, -, h⟩ := takeBeat_cases s f <;> exact ⟨_, h⟩

theorem performCall_answers {o : Host.Outcome State Fault Refusal} {s : State} {n : BitVec 32}
    {expand : List Byte → Option EncodeArgs} (ho : o = performCall s n expand) : ∃ t, o = .next t := by
  subst ho
  obtain ⟨-, h⟩ | ⟨-, a, -, h⟩ | ⟨-, -, h⟩ := performCall_cases s n expand <;> exact ⟨_, h⟩

/-- DEC is asked for a key register there is not (R33). -/
def keyRegisterMissing (s : State) : Prop := s.dec.phase = .key ∧ 3 < s.dec.idx.toNat ∧ s.dIn ≠ []

/-- ENC is asked for a header byte there is not (R205). -/
def headerByteMissing (s : State) : Prop :=
  s.enc.phase = .hdr ∧ s.eOutReady = true ∧ encodedHeaderLength s.enc.n ≤ s.enc.hidx.toNat

theorem execDecode_outcome (s : State) :
    (keyRegisterMissing s ∧ execDecode s = .fault .keyRegisterAbsent) ∨
      (¬ keyRegisterMissing s ∧ ∃ t, execDecode s = .next t) := by
  cases he : decEnabled s with
  | false =>
    refine .inr ⟨fun ⟨hp, _, hd⟩ => ?_, _, execDecode_waits s he⟩
    simp [decEnabled, hp, hd] at he
  | true =>
    have hd : s.dIn ≠ [] := fun hnil => by simp [decEnabled, hnil] at he
    obtain ⟨hp, hidx, h⟩ | ⟨hkey, h⟩ := execDecode_steps s he
    · exact .inl ⟨⟨hp, hidx, hd⟩, h⟩
    · exact .inr ⟨fun ⟨hp, hidx, _⟩ => hkey ⟨hp, hidx⟩, takeBeat_answers h⟩

/-- The step in E_HDR is missing exactly past the header. -/
theorem headerStep_eq_none_iff (r : EncRegs) :
    headerStep r = none ↔ encodedHeaderLength r.n ≤ r.hidx.toNat := by
  rw [← encodedHeader_length r.typ r.n r.key, ← List.getElem?_eq_none_iff]
  obtain ⟨hnone, h⟩ | ⟨b, hsome, ⟨-, -, h⟩ | ⟨-, -, h⟩ | ⟨-, h⟩⟩ := headerStep_cases r <;> simp [*]

theorem execEncode_outcome (t : Byte) (n k : BitVec 32) (s : State) :
    (headerByteMissing s ∧ execEncode t n k s = .fault .headerByteAbsent) ∨
      (¬ headerByteMissing s ∧ ∃ u, execEncode t n k s = .next u) := by
  unfold execEncode
  cases hp : s.enc.phase with
  | idle => exact .inr ⟨by simp [headerByteMissing, hp], _, rfl⟩
  | hdr =>
    cases hready : s.eOutReady with
    | false => exact .inr ⟨by simp [headerByteMissing, hready], _, rfl⟩
    | true =>
      cases ho : headerStep s.enc with
      | none => exact .inl ⟨⟨hp, hready, (headerStep_eq_none_iff s.enc).mp ho⟩, rfl⟩
      | some o =>
        refine .inr ⟨fun ⟨_, _, hlen⟩ => ?_, _, rfl⟩
        rw [(headerStep_eq_none_iff s.enc).mpr hlen] at ho
        cases ho
  | pay =>
    refine .inr ⟨by simp [headerByteMissing, hp], ?_⟩
    cases s.eOutReady with
    | false => exact ⟨_, rfl⟩
    | true => cases s.eIn <;> exact ⟨_, rfl⟩

theorem takeByteZero_answers (f : HeadFlags) (op : BitVec 4) (s : State) : ∃ t, takeByteZero f op s = .next t :=
  takeBeat_answers rfl

theorem takeByteOne_answers (f : HeadFlags) (op : BitVec 4) (m : Bool) (n : BitVec 7) (s : State) :
    ∃ t, takeByteOne f op m n s = .next t := takeBeat_answers rfl

/-- Every row but DECODE and ENCODE answers a next state in every state. -/
theorem exec_answers {i : Instr} (hdec : i ≠ .decode) (henc : ∀ t n k, i ≠ .encode t n k) (s : State) :
    ∃ t, exec i s = .next t := by
  have builder {n k : BitVec 32} {row : Instr × Byte} (hrow : row ∈ openBuilders n k) : ∃ t, exec row.1 s = .next t :=
    performCall_answers (exec_of_mem_openBuilders hrow s)
  cases i with
  | decode => exact absurd rfl hdec
  | encode t n k => exact absurd rfl (henc t n k)
  | buildMessageText n k => exact builder (.head _)
  | buildMessageBinary n k => exact builder (.tail _ (.head _))
  | buildPing n k => exact builder (.tail _ (.tail _ (.head _)))
  | buildPong n k => exact builder (.tail _ (.tail _ (.tail _ (.head _))))
  | buildClose n k => exact performCall_answers rfl
  | h7u f op n => exact takeByteOne_answers f op _ _ s
  | h7m f op n => exact takeByteOne_answers f op _ _ s
  | h16u f op => exact takeByteOne_answers f op _ _ s
  | h16m f op => exact takeByteOne_answers f op _ _ s
  | h64u f op => exact takeByteOne_answers f op _ _ s
  | h64m f op => exact takeByteOne_answers f op _ _ s
  | _ f => exact takeByteZero_answers f _ s

/-- No instruction is refused, and each faults in its one way or answers. -/
theorem exec_outcome (i : Instr) (s : State) :
    (i = .decode ∧ keyRegisterMissing s ∧ exec i s = .fault .keyRegisterAbsent) ∨
    ((∃ t n k, i = .encode t n k) ∧ headerByteMissing s ∧ exec i s = .fault .headerByteAbsent) ∨
    ((i = .decode → ¬ keyRegisterMissing s) ∧ ((∃ t n k, i = .encode t n k) → ¬ headerByteMissing s) ∧
      ∃ t, exec i s = .next t) := by
  by_cases hdec : i = .decode
  · subst hdec
    obtain ⟨hmissing, h⟩ | ⟨hthere, h⟩ := execDecode_outcome s
    · exact .inl ⟨rfl, hmissing, h⟩
    · exact .inr (.inr ⟨fun _ => hthere, by simp, h⟩)
  by_cases henc : ∃ t n k, i = .encode t n k
  · obtain ⟨t, n, k, rfl⟩ := henc
    obtain ⟨hmissing, h⟩ | ⟨hthere, h⟩ := execEncode_outcome t n k s
    · exact .inr (.inl ⟨⟨t, n, k, rfl⟩, hmissing, h⟩)
    · exact .inr (.inr ⟨by simp, fun _ => hthere, h⟩)
  · exact .inr (.inr ⟨fun h => absurd h hdec, fun h => absurd h henc,
      exec_answers hdec (fun t n k h => henc ⟨t, n, k, h⟩) s⟩)

theorem not_keyRegisterMissing {s : State} (hwf : decWellFormed s.dec = true) : ¬ keyRegisterMissing s := by
  rintro ⟨hp, hidx, -⟩
  obtain ⟨-, hlt, -⟩ := (decWellFormed_key_iff hp).mp hwf
  omega

theorem not_headerByteMissing {s : State} (hwf : encWellFormed s.enc = true) : ¬ headerByteMissing s := by
  rintro ⟨hp, -, hlen⟩
  exact absurd ((encWellFormed_hdr_iff hp).mp hwf) (Nat.not_lt_of_le hlen)

/-- Settles O18: each fault is its row's in its own missing case, and a well-formed state is in neither. -/
theorem faultsOnlyOutsideWellFormedStates : Obligations.FaultsOnlyOutsideWellFormedStates := by
  intro i s f
  obtain ⟨rfl, hmissing, h⟩ | ⟨⟨t, n, k, rfl⟩, hmissing, h⟩ | ⟨hdec, henc, t, h⟩ := exec_outcome i s
  · refine ⟨?_, fun _ hwf => not_keyRegisterMissing hwf.1 hmissing⟩
    rw [h]
    constructor
    · rintro ⟨rfl⟩
      exact .inl ⟨rfl, rfl, hmissing⟩
    · rintro (⟨-, rfl, -⟩ | ⟨t, n, k, hi, -⟩)
      · rfl
      · cases hi
  · refine ⟨?_, fun _ hwf => not_headerByteMissing hwf.2 hmissing⟩
    rw [h]
    constructor
    · rintro ⟨rfl⟩
      exact .inr ⟨t, n, k, rfl, rfl, hmissing⟩
    · rintro (⟨hi, -⟩ | ⟨t, n, k, -, rfl, -⟩)
      · cases hi
      · rfl
  · rw [h]
    refine ⟨⟨(nomatch ·), ?_⟩, (nomatch ·)⟩
    rintro (⟨hi, -, hmissing⟩ | ⟨t, n, k, hi, -, hmissing⟩)
    · exact absurd hmissing (hdec hi)
    · exact absurd hmissing (henc ⟨t, n, k, hi⟩)

end Sys2Proof.Machine
end

section
/-! The well-formed states: every step keeps them (R29, R32, R34, R38), each has a step, and in them the position in the
buffer advances byte by byte (R35). -/

namespace Sys2Proof.Machine

/-! ### The length DEC shifts in -/

theorem extTotal_cases {n : BitVec 7} (h : 125 < n.toNat) :
    (n = 126#7 ∧ extTotal n = 2) ∨ (n = 127#7 ∧ extTotal n = 8) := by
  obtain rfl | rfl := len7_eq_126_or_127 (Nat.not_le_of_lt h)
  · exact .inl ⟨rfl, rfl⟩
  · exact .inr ⟨rfl, rfl⟩

/-- A part of a length whose high word passed the guard has room for one more byte in 53 bits (R32). -/
theorem shiftInLength_toNat {r : DecRegs} (hpart : partialLengthFits r = true) (b : Byte) :
    (shiftInLength r.len b).toNat = r.len.toNat * 256 + b.toNat := by
  obtain ⟨hlt, hhigh⟩ := (partialLengthFits_iff r).mp hpart
  have hi := r.idx.isLt
  have hb := b.isLt
  have hfits : r.len.toNat * 256 + b.toNat < 2 ^ 53 := by
    interval_cases r.idx.toNat <;> omega
  simp only [shiftInLength, BitVec.toNat_add, BitVec.toNat_mul, BitVec.toNat_setWidth, BitVec.toNat_ofNat]
  omega

/-- One more byte of a length keeps it a part of one, if the high word passes the guard once it is whole. -/
theorem partialLengthFits_shiftIn {r : DecRegs} (hpart : partialLengthFits r = true) (b : Byte)
    (hroom : r.idx.toNat + 1 < 8) (hguard : r.idx = 3#3 → (shiftInLength r.len b).toNat ≤ 2 ^ 21 - 1) :
    partialLengthFits { r with len := shiftInLength r.len b, idx := r.idx + 1#3 } = true := by
  have hlen := shiftInLength_toNat hpart b
  obtain ⟨hlt, hhigh⟩ := (partialLengthFits_iff r).mp hpart
  have hb := b.isLt
  have hidx : (r.idx + 1#3).toNat = r.idx.toNat + 1 := by
    rw [BitVec.toNat_add_of_lt (by simpa using hroom)]
    rfl
  have hguard' : r.idx.toNat = 3 → r.len.toNat * 256 + b.toNat ≤ 2 ^ 21 - 1 := fun h3 =>
    hlen ▸ hguard (BitVec.eq_of_toNat_eq h3)
  rw [partialLengthFits_iff]
  simp only [hlen, hidx]
  have hi : r.idx.toNat < 7 := by omega
  interval_cases r.idx.toNat <;> omega

/-! ### The steps of DEC -/

theorem headerComplete_keeps_wellFormed {r : DecRegs} (hfits : lengthFits r = true) (l : Bool) :
    decWellFormed (headerComplete r l).regs = true := by
  obtain ⟨-, h⟩ | ⟨-, -, h⟩ | ⟨hlen, -, h⟩ := headerComplete_cases r l <;> rw [h]
  · exact decWellFormed_of_b0 rfl
  · exact decWellFormed_of_b0 rfl
  · refine (decWellFormed_pay_iff rfl).mpr ⟨?_, hfits⟩
    show 0 < r.len.toNat
    exact Nat.pos_of_ne_zero fun h0 => hlen (BitVec.eq_of_toNat_eq h0)

theorem lengthComplete_keeps_wellFormed {r : DecRegs} (hfits : lengthFits r = true) (l : Bool) :
    decWellFormed (lengthComplete r l).regs = true := by
  obtain ⟨-, -, h⟩ | ⟨hm, -, h⟩ | ⟨-, h⟩ := lengthComplete_cases r l <;> rw [h]
  · exact decWellFormed_of_b0 rfl
  · exact (decWellFormed_key_iff rfl).mpr ⟨hm, Nat.zero_lt_succ 3, hfits⟩
  · exact headerComplete_keeps_wellFormed hfits l

theorem byteOneStep_keeps_wellFormed (r : DecRegs) (m : Bool) (n : BitVec 7) (l : Bool) :
    decWellFormed (byteOneStep r m n l).regs = true := by
  obtain ⟨hn, h⟩ | ⟨-, -, h⟩ | ⟨hn, -, h⟩ := byteOneStep_cases r m n l <;> rw [h]
  · refine lengthComplete_keeps_wellFormed ((lengthFits_iff _).mpr ⟨fun _ => ?_, fun h6 => ?_⟩) l
    · exact BitVec.toNat_setWidth_of_le (by decide)
    · obtain rfl : n = 126#7 := h6
      exact absurd hn (by decide)
  · exact decWellFormed_of_b0 rfl
  · refine (decWellFormed_ext_iff rfl).mpr ⟨hn, ?_, (partialLengthFits_iff _).mpr ⟨Nat.zero_lt_one, .inl (Nat.zero_lt_succ 3)⟩⟩
    obtain ⟨-, he⟩ | ⟨-, he⟩ := extTotal_cases hn
    · exact he ▸ (by decide : 0 < 2)
    · exact he ▸ (by decide : 0 < 8)

theorem extStep_keeps_wellFormed {r : DecRegs} (hp : r.phase = .ext) (hwf : decWellFormed r = true) (b : Byte) (l : Bool) :
    decWellFormed (extStep r b l).regs = true := by
  obtain ⟨hn, hidx, hpart⟩ := (decWellFormed_ext_iff hp).mp hwf
  have hlen := shiftInLength_toNat hpart b
  have htotal := extTotal_cases hn
  obtain ⟨-, h⟩ | ⟨-, hend, h⟩ | ⟨-, -, -, h⟩ | ⟨hguard, hend, -, h⟩ := extStep_cases r b l <;> rw [h]
  · exact decWellFormed_of_b0 rfl
  · refine lengthComplete_keeps_wellFormed ((lengthFits_iff _).mpr ⟨?_, ?_⟩) l
    · exact fun hle => absurd hle (Nat.not_le_of_lt hn)
    intro (h6 : r.len7 = 126#7)
    have hone : r.idx.toNat = 1 := by
      obtain ⟨-, he⟩ | ⟨h7, -⟩ := htotal
      · omega
      · exact absurd (h6.symm.trans h7) (by decide)
    have hlt := ((partialLengthFits_iff r).mp hpart).1
    have hb := b.isLt
    rw [hone] at hlt
    show (shiftInLength r.len b).toNat < 65536
    omega
  · exact decWellFormed_of_b0 rfl
  · have hroom : r.idx.toNat + 1 < extTotal r.len7 := by omega
    have hroom8 : r.idx.toNat + 1 < 8 := by obtain ⟨-, he⟩ | ⟨-, he⟩ := htotal <;> omega
    refine (decWellFormed_ext_iff ?_).mpr ⟨hn, ?_, partialLengthFits_shiftIn hpart b hroom8 fun h3 => ?_⟩
    · exact hp
    · show (r.idx + 1#3).toNat < extTotal r.len7
      rw [BitVec.toNat_add_of_lt (by simpa using hroom8)]
      exact hroom
    · obtain ⟨-, he⟩ | ⟨h7, -⟩ := htotal
      · rw [h3, he] at hroom
        exact absurd hroom (by decide)
      · exact Nat.le_of_not_lt fun hbig => hguard ⟨h7, h3, hbig⟩

theorem keyStep_keeps_wellFormed {r : DecRegs} (hp : r.phase = .key) (hwf : decWellFormed r = true) (b : Byte) (l : Bool) :
    decWellFormed (keyStep r b l).regs = true := by
  obtain ⟨hm, hidx, hfits⟩ := (decWellFormed_key_iff hp).mp hwf
  obtain ⟨-, h⟩ | ⟨-, -, h⟩ | ⟨h3, -, h⟩ := keyStep_cases r b l <;> rw [h]
  · refine headerComplete_keeps_wellFormed ?_ l
    exact hfits
  · exact decWellFormed_of_b0 rfl
  · refine (decWellFormed_key_iff ?_).mpr ⟨hm, ?_, hfits⟩
    · exact hp
    show (r.idx + 1#3).toNat < 4
    bv_omega

theorem payStep_keeps_wellFormed {r : DecRegs} (hp : r.phase = .pay) (hwf : decWellFormed r = true) (b : Byte) (l : Bool) :
    decWellFormed (payStep r b l).regs = true := by
  obtain ⟨hcnt, hfits⟩ := (decWellFormed_pay_iff hp).mp hwf
  obtain ⟨-, h⟩ | ⟨-, -, h⟩ | ⟨hmore, -, h⟩ := payStep_cases r b l <;> rw [h]
  · exact decWellFormed_of_b0 rfl
  · exact decWellFormed_of_b0 rfl
  · refine (decWellFormed_pay_iff ?_).mpr ⟨?_, hfits⟩
    · exact hp
    show (r.cnt + 1#53).toNat < r.len.toNat
    bv_omega

theorem decStep_keeps_wellFormed {r : DecRegs} (hwf : decWellFormed r = true) (b : Beat) :
    decWellFormed (decStep r b).regs = true := by
  cases hp : r.phase with
  | b0 =>
    rw [decStep_of_b0 b hp]
    obtain ⟨-, h⟩ | ⟨-, h⟩ := byteZeroStep_cases r (flagsOf b.data) (opcodeOf b.data) b.last <;> rw [h]
    · exact decWellFormed_of_b0 rfl
    · exact decWellFormed_of_b1 rfl
  | b1 => exact decStep_of_b1 b hp ▸ byteOneStep_keeps_wellFormed r _ _ b.last
  | ext => exact decStep_of_ext b hp ▸ extStep_keeps_wellFormed hp hwf b.data b.last
  | key => exact decStep_of_key b hp ▸ keyStep_keeps_wellFormed hp hwf b.data b.last
  | pay => exact decStep_of_pay b hp ▸ payStep_keeps_wellFormed hp hwf b.data b.last

/-! ### The steps of ENC -/

theorem encodedHeaderLength_cases (n : BitVec 32) :
    encodedHeaderLength n = 6 ∨ encodedHeaderLength n = 8 ∨ encodedHeaderLength n = 14 := by
  unfold encodedHeaderLength
  obtain ⟨-, -, h⟩ | ⟨-, -, h⟩ | ⟨-, h⟩ := lengthStrategy_cases n <;> rw [h]
  · exact .inl rfl
  · exact .inr (.inl rfl)
  · exact .inr (.inr rfl)

/-- `hidx` does not wrap: no header is longer than 14 bytes (R38). -/
theorem hidx_succ_toNat {r : EncRegs} (hlt : r.hidx.toNat < encodedHeaderLength r.n) :
    (r.hidx + 1#4).toNat = r.hidx.toNat + 1 := by
  have hle : r.hidx.toNat + 1 < 2 ^ 4 := by
    obtain h | h | h := encodedHeaderLength_cases r.n <;> omega
  exact BitVec.toNat_add_of_lt hle

theorem hidx_lt_of_headerStep {r : EncRegs} {o : EncResult} (ho : headerStep r = some o) :
    r.hidx.toNat < encodedHeaderLength r.n := by
  by_contra hge
  rw [(headerStep_eq_none_iff r).mpr (Nat.le_of_not_lt hge)] at ho
  cases ho

theorem acceptCommand_wellFormed (r : EncRegs) (t : Byte) (n k : BitVec 32) :
    encWellFormed (acceptCommand r t n k) = true := by
  refine (encWellFormed_hdr_iff rfl).mpr ?_
  show 0 < encodedHeaderLength n
  obtain h | h | h := encodedHeaderLength_cases n <;> rw [h] <;> decide

theorem headerStep_keeps_wellFormed {r : EncRegs} (hp : r.phase = .hdr) {o : EncResult} (ho : headerStep r = some o) :
    encWellFormed o.regs = true := by
  have hlt := hidx_lt_of_headerStep ho
  obtain ⟨-, h⟩ | ⟨b, -, ⟨-, -, h⟩ | ⟨-, hn, h⟩ | ⟨hgoOn, h⟩⟩ := headerStep_cases r <;>
    rw [h] at ho <;> cases ho
  · exact encWellFormed_of_idle rfl
  · refine (encWellFormed_pay_iff rfl).mpr ?_
    show 0 < r.n.toNat
    exact Nat.pos_of_ne_zero fun h0 => hn (BitVec.eq_of_toNat_eq h0)
  · refine (encWellFormed_hdr_iff ?_).mpr ?_
    · exact hp
    show (r.hidx + 1#4).toNat < encodedHeaderLength r.n
    rw [hidx_succ_toNat hlt]
    omega

theorem encPayStep_keeps_wellFormed {r : EncRegs} (hp : r.phase = .pay) (hwf : encWellFormed r = true) (p : Byte) :
    encWellFormed (encPayStep r p).regs = true := by
  have hcnt := (encWellFormed_pay_iff hp).mp hwf
  obtain ⟨-, h⟩ | ⟨hmore, h⟩ := encPayStep_cases r p <;> rw [h]
  · exact encWellFormed_of_idle rfl
  · refine (encWellFormed_pay_iff ?_).mpr ?_
    · exact hp
    show (r.cnt + 1#32).toNat < r.n.toNat
    bv_omega

/-! ### Every step -/

/-- Of the environment's moves only a reset event touches the block, and none touches the traces. -/
theorem environmentMove_block (s : State) (m : Move) :
    (environmentMove s m).dTrace = s.dTrace ∧ (environmentMove s m).eTrace = s.eTrace ∧
      ((environmentMove s m).toBlock = s.toBlock ∨
        (m = .rst ∧ (environmentMove s m).toBlock = ⟨decAfterReset s.resets, encAfterReset s.resets⟩)) := by
  cases m with
  | withdraw ch =>
    refine ⟨withdraw_dTrace s ch, withdraw_eTrace s ch, .inl ?_⟩
    show Block.mk (s.withdraw ch).dec (s.withdraw ch).enc = _
    rw [withdraw_dec, withdraw_enc]
  | rst => exact ⟨rfl, rfl, .inr ⟨rfl, rfl⟩⟩
  | _ => exact ⟨rfl, rfl, .inl rfl⟩

theorem EncMoves.dec_eq {s t : State} (h : EncMoves s t) : t.dec = s.dec ∧ t.dTrace = s.dTrace := by
  obtain ⟨c, rest, -, -, rfl⟩ | ⟨o, -, -, -, rfl⟩ | ⟨p, rest, -, -, -, rfl⟩ := h <;> exact ⟨rfl, rfl⟩

theorem DecMoves.enc_eq {s t : State} (h : DecMoves s t) : t.enc = s.enc ∧ t.eTrace = s.eTrace := by
  obtain ⟨b, rest, -, -, -, rfl⟩ := h
  exact ⟨rfl, rfl⟩

/-- The block and its traces under one step: DEC's own step, ENC's own step, a reset event, or nothing. -/
theorem step_block_cases {s t : State} (h : step s = .next t) :
    (t.toBlock = s.toBlock ∧ t.dTrace = s.dTrace ∧ t.eTrace = s.eTrace) ∨ DecMoves s t ∨ EncMoves s t ∨
      (resetNext s = true ∧ t.toBlock = ⟨decAfterReset s.resets, encAfterReset s.resets⟩ ∧
        t.dTrace = s.dTrace ∧ t.eTrace = s.eTrace) := by
  obtain rfl | ⟨a, rfl⟩ | hd | he | hv | ⟨m, rest, hscript, -, rfl⟩ := step_cases s t h
  · exact .inl ⟨rfl, rfl, rfl⟩
  · exact .inl ⟨rfl, rfl, rfl⟩
  · exact .inr (.inl hd)
  · exact .inr (.inr (.inl he))
  · obtain ⟨hblock, hdTrace, heTrace, -⟩ := hv.takes_call
    exact .inl ⟨hblock, hdTrace, heTrace⟩
  · obtain ⟨hdTrace, heTrace, hblock | ⟨rfl, hblock⟩⟩ := environmentMove_block s.popMove m
    · exact .inl ⟨hblock, hdTrace, heTrace⟩
    · exact .inr (.inr (.inr ⟨by simp [resetNext, hscript], hblock, hdTrace, heTrace⟩))

/-- Only DEC's own step and a reset event change DEC; only the former extends its trace. -/
theorem step_dec_cases {s t : State} (h : step s = .next t) :
    (t.dec = s.dec ∧ t.dTrace = s.dTrace) ∨ DecMoves s t ∨
      (resetNext s = true ∧ t.dec = decAfterReset s.resets ∧ t.dTrace = s.dTrace) := by
  obtain ⟨hblock, hdTrace, -⟩ | hd | he | ⟨hreset, hblock, hdTrace, -⟩ := step_block_cases h
  · exact .inl ⟨congrArg Block.dec hblock, hdTrace⟩
  · exact .inr (.inl hd)
  · exact .inl he.dec_eq
  · exact .inr (.inr ⟨hreset, congrArg Block.dec hblock, hdTrace⟩)

/-- Only ENC's own step and a reset event change ENC; only the former extends its trace. -/
theorem step_enc_cases {s t : State} (h : step s = .next t) :
    (t.enc = s.enc ∧ t.eTrace = s.eTrace) ∨ EncMoves s t ∨
      (resetNext s = true ∧ t.enc = encAfterReset s.resets ∧ t.eTrace = s.eTrace) := by
  obtain ⟨hblock, -, heTrace⟩ | hd | he | ⟨hreset, hblock, -, heTrace⟩ := step_block_cases h
  · exact .inl ⟨congrArg Block.enc hblock, heTrace⟩
  · exact .inl hd.enc_eq
  · exact .inr (.inl he)
  · exact .inr (.inr ⟨hreset, congrArg Block.enc hblock, heTrace⟩)

theorem step_keeps_decWellFormed {s t : State} (hwf : decWellFormed s.dec = true) (h : step s = .next t) :
    decWellFormed t.dec = true := by
  obtain ⟨heq, -⟩ | ⟨b, rest, -, -, -, rfl⟩ | ⟨-, hreset, -⟩ := step_dec_cases h
  · exact heq ▸ hwf
  · exact decStep_keeps_wellFormed hwf b
  · exact hreset ▸ decWellFormed_of_b0 rfl

theorem EncMoves.keeps_wellFormed {s t : State} (hwf : encWellFormed s.enc = true) (h : EncMoves s t) :
    encWellFormed t.enc = true := by
  obtain ⟨c, rest, -, -, rfl⟩ | ⟨o, hp, -, ho, rfl⟩ | ⟨p, rest, hp, -, -, rfl⟩ := h
  · exact acceptCommand_wellFormed s.enc c.typ c.len c.key
  · exact headerStep_keeps_wellFormed hp ho
  · exact encPayStep_keeps_wellFormed hp hwf p

theorem step_keeps_encWellFormed {s t : State} (hwf : encWellFormed s.enc = true) (h : step s = .next t) :
    encWellFormed t.enc = true := by
  obtain ⟨heq, -⟩ | he | ⟨-, hreset, -⟩ := step_enc_cases h
  · exact heq ▸ hwf
  · exact he.keeps_wellFormed hwf
  · exact hreset ▸ encWellFormed_of_idle rfl

/-- Settles O31: unit by unit, the unit's own step keeps its registers in range; a reset event idles it. -/
theorem stepKeepsWellFormed : Obligations.StepKeepsWellFormed :=
  fun _ _ hwf h => ⟨step_keeps_decWellFormed hwf.1 h, step_keeps_encWellFormed hwf.2 h⟩

/-! ### Every well-formed state has a step -/

/-- Where every call is a builder's, the word an agent fetches is an instruction. -/
theorem selectAgent_run_or_wait {s : State} (hcalls : ∀ c ∈ s.calls, ∃ i, builderInstr c = .ok i) (a : Agent) :
    (∃ i, selectAgent s a = .run i) ∨ selectAgent s a = .wait a := by
  cases hword : fetchedWord s a with
  | none => exact .inr (selectAgent_waits s a hword)
  | some w =>
    left
    cases a with
    | dec =>
      have he : decEnabled s = true := by
        by_contra hn
        simp [(fetchedWord_dec_eq_none_iff s).mpr (by simpa using hn)] at hword
      cases hd : s.dIn with
      | nil => simp [decEnabled, hd] at he
      | cons b rest => exact (run_dec s b rest hd he).imp fun _ hi => hi.1
    | enc =>
      have he : encEnabled s = true := by
        by_contra hn
        simp [(fetchedWord_enc_eq_none_iff s).mpr (by simpa using hn)] at hword
      exact ⟨_, run_enc s he⟩
    | drv =>
      have he : drvEnabled s = true := by
        by_contra hn
        simp [(fetchedWord_drv s).mpr (by simpa using hn)] at hword
      cases hc : s.calls with
      | nil => simp [drvEnabled, hc] at he
      | cons c rest =>
        obtain ⟨i, hi⟩ := hcalls c (by simp [hc])
        exact ⟨i, by rw [run_drv s c rest hc he, hi]⟩

theorem select_cases (s : State) :
    (∃ a, select s = selectAgent s a) ∨ (∃ m, select s = .env m) ∨ select s = .idle := by
  unfold select
  cases s.script with
  | nil =>
    dsimp only
    split
    · exact .inl ⟨_, rfl⟩
    · split
      · exact .inl ⟨_, rfl⟩
      · split
        · exact .inl ⟨_, rfl⟩
        · exact .inr (.inr rfl)
  | cons m rest =>
    cases m with
    | turn a => exact .inl ⟨a, rfl⟩
    | _ => exact .inr (.inl ⟨_, rfl⟩)

theorem exec_answers_of_wellFormed {s : State} (hwf : s.WellFormed) (i : Instr) : ∃ t, exec i s = .next t := by
  obtain ⟨-, hmissing, -⟩ | ⟨-, hmissing, -⟩ | ⟨-, -, h⟩ := exec_outcome i s
  · exact absurd hmissing (not_keyRegisterMissing hwf.1)
  · exact absurd hmissing (not_headerByteMissing hwf.2)
  · exact h

/-- Settles O27: a selected instruction answers, since no fault is left, and nothing is selected for refusal. -/
theorem wellFormedStatesStep : Obligations.WellFormedStatesStep := by
  intro s hwf hcalls
  obtain ⟨a, hselect⟩ | ⟨m, hselect⟩ | hselect := select_cases s
  · obtain ⟨i, hi⟩ | hwait := selectAgent_run_or_wait hcalls a
    · rw [step_of_select_run (hselect.trans hi)]
      exact exec_answers_of_wellFormed hwf i
    · exact ⟨_, step_of_select_wait (hselect.trans hwait)⟩
  · exact ⟨environmentMove s.popMove m, by rw [step, hselect]⟩
  · exact ⟨s, by rw [step, hselect]⟩

/-! ### The position in the buffer -/

theorem headerComplete_pos {r : DecRegs} {l : Bool} (hgoOn : (headerComplete r l).regs.phase ≠ .b0) :
    decPos (headerComplete r l).regs = frameHeaderLength r.masked r.len7 := by
  obtain ⟨-, h⟩ | ⟨-, -, h⟩ | ⟨-, -, h⟩ := headerComplete_cases r l <;> rw [h] at hgoOn ⊢
  · exact absurd rfl hgoOn
  · exact absurd rfl hgoOn
  · rfl

theorem lengthComplete_pos {r : DecRegs} {l : Bool} (hgoOn : (lengthComplete r l).regs.phase ≠ .b0) :
    decPos (lengthComplete r l).regs = 2 + extCount r.len7 := by
  obtain ⟨-, -, h⟩ | ⟨-, -, h⟩ | ⟨hm, h⟩ := lengthComplete_cases r l <;> rw [h] at hgoOn ⊢
  · exact absurd rfl hgoOn
  · rfl
  · rw [headerComplete_pos hgoOn, frameHeaderLength, hm]
    rfl

theorem extCount_eq_extTotal {n : BitVec 7} (h : 125 < n.toNat) : extCount n = extTotal n :=
  if_neg (Nat.not_le_of_lt h)

theorem byteOneStep_pos {r : DecRegs} {m : Bool} {n : BitVec 7} {l : Bool}
    (hgoOn : (byteOneStep r m n l).regs.phase ≠ .b0) : decPos (byteOneStep r m n l).regs = 2 := by
  obtain ⟨hn, h⟩ | ⟨-, -, h⟩ | ⟨-, -, h⟩ := byteOneStep_cases r m n l <;> rw [h] at hgoOn ⊢
  · rw [lengthComplete_pos hgoOn]
    show 2 + extCount n = 2
    rw [extCount, if_pos (show n.toNat ≤ Config.len7InlineMax from hn)]
  · exact absurd rfl hgoOn
  · rfl

theorem extStep_pos {r : DecRegs} (hp : r.phase = .ext) (hwf : decWellFormed r = true) {b : Byte} {l : Bool}
    (hgoOn : (extStep r b l).regs.phase ≠ .b0) : decPos (extStep r b l).regs = 2 + r.idx.toNat + 1 := by
  obtain ⟨hn, hidx, -⟩ := (decWellFormed_ext_iff hp).mp hwf
  have htotal := extCount_eq_extTotal hn
  obtain ⟨-, h⟩ | ⟨-, hend, h⟩ | ⟨-, -, -, h⟩ | ⟨-, hend, -, h⟩ := extStep_cases r b l <;> rw [h] at hgoOn ⊢
  · exact absurd rfl hgoOn
  · rw [lengthComplete_pos hgoOn]
    show 2 + extCount r.len7 = _
    omega
  · exact absurd rfl hgoOn
  · have hroom : r.idx.toNat + 1 < 8 := by obtain ⟨-, he⟩ | ⟨-, he⟩ := extTotal_cases hn <;> omega
    have hsucc : (r.idx + 1#3).toNat = r.idx.toNat + 1 := BitVec.toNat_add_of_lt hroom
    simp only [decPos, hp, hsucc, Nat.add_assoc]

theorem keyStep_pos {r : DecRegs} (hp : r.phase = .key) (hwf : decWellFormed r = true) {b : Byte} {l : Bool}
    (hgoOn : (keyStep r b l).regs.phase ≠ .b0) :
    decPos (keyStep r b l).regs = 2 + extCount r.len7 + r.idx.toNat + 1 := by
  obtain ⟨hm, hidx, -⟩ := (decWellFormed_key_iff hp).mp hwf
  obtain ⟨h3, h⟩ | ⟨-, -, h⟩ | ⟨-, -, h⟩ := keyStep_cases r b l <;> rw [h] at hgoOn ⊢
  · rw [headerComplete_pos hgoOn, frameHeaderLength, hm, h3]
    rfl
  · exact absurd rfl hgoOn
  · have hsucc : (r.idx + 1#3).toNat = r.idx.toNat + 1 :=
      BitVec.toNat_add_of_lt (show r.idx.toNat + 1 < 2 ^ 3 by omega)
    simp only [decPos, hp, hsucc, Nat.add_assoc]

theorem payStep_pos {r : DecRegs} (hp : r.phase = .pay) (hwf : decWellFormed r = true) {b : Byte} {l : Bool}
    (hgoOn : (payStep r b l).regs.phase ≠ .b0) :
    decPos (payStep r b l).regs = frameHeaderLength r.masked r.len7 + r.cnt.toNat + 1 := by
  obtain ⟨hcnt, -⟩ := (decWellFormed_pay_iff hp).mp hwf
  have hlen := r.len.isLt
  obtain ⟨-, h⟩ | ⟨-, -, h⟩ | ⟨-, -, h⟩ := payStep_cases r b l <;> rw [h] at hgoOn ⊢
  · exact absurd rfl hgoOn
  · exact absurd rfl hgoOn
  · have hsucc : (r.cnt + 1#53).toNat = r.cnt.toNat + 1 :=
      BitVec.toNat_add_of_lt (show r.cnt.toNat + 1 < 2 ^ 53 by omega)
    simp only [decPos, hp, hsucc, Nat.add_assoc]

/-- R35: a step that does not end the call advances the position by 1. -/
theorem decStep_pos {r : DecRegs} (hwf : decWellFormed r = true) {b : Beat} (hgoOn : (decStep r b).regs.phase ≠ .b0) :
    decPos (decStep r b).regs = decPos r + 1 := by
  cases hp : r.phase with
  | b0 =>
    rw [decStep_of_b0 b hp] at hgoOn ⊢
    obtain ⟨-, h⟩ | ⟨-, h⟩ := byteZeroStep_cases r (flagsOf b.data) (opcodeOf b.data) b.last <;> rw [h] at hgoOn ⊢
    · exact absurd rfl hgoOn
    · simp only [decPos, hp]
  | b1 =>
    rw [decStep_of_b1 b hp] at hgoOn ⊢
    rw [byteOneStep_pos hgoOn]
    simp only [decPos, hp]
  | ext =>
    rw [decStep_of_ext b hp] at hgoOn ⊢
    rw [extStep_pos hp hwf hgoOn]
    simp only [decPos, hp]
  | key =>
    rw [decStep_of_key b hp] at hgoOn ⊢
    rw [keyStep_pos hp hwf hgoOn]
    simp only [decPos, hp]
  | pay =>
    rw [decStep_of_pay b hp] at hgoOn ⊢
    rw [payStep_pos hp hwf hgoOn]
    simp only [decPos, hp]

/-- Settles O37: the step emits a `Done` exactly when it goes to D_B0, where the position is 0. -/
theorem decStepAdvancesPosition : Obligations.DecStepAdvancesPosition := by
  intro s b rest hwf hd hready
  have hkey : ¬(s.dec.phase = .key ∧ 3 < s.dec.idx.toNat) := fun ⟨hp, hidx⟩ =>
    not_keyRegisterMissing hwf ⟨hp, hidx, by simp [hd]⟩
  refine ⟨_, (decStep s.dec b).events, exec_decode_of_byte hd hready hkey, rfl, rfl, ?_⟩
  rw [(decStep_emits s.dec b).any_isDone]
  by_cases hend : (decStep s.dec b).regs.phase = .b0
  · simp [hend, decPos]
  · simp [hend, decStep_pos hwf hend]

end Sys2Proof.Machine
end

section
/-! The traces and the channels under one step: order and records of DEC's events, growth, what each agent leaves alone,
and the block's inputs (R46, R74, R163, R240). -/

namespace Sys2Proof.Machine

/-! ### The traces -/

theorem readTrace_append (x y : List DecEvent) : readTrace (x ++ y) = (readTrace x).bind fun o => y.foldlM readEvent o := by
  simp only [readTrace, List.foldlM_append]
  rfl

/-- Settles O33: a trace in order for the old phase, then the step's events, is in order for the new phase. -/
theorem stepKeepsEventOrder : Obligations.StepKeepsEventOrder := by
  intro s t horder hreset h
  simp only [traceInOrder, beq_iff_eq] at horder ⊢
  obtain ⟨hdec, htrace⟩ | ⟨b, rest, -, -, -, rfl⟩ | ⟨hrst, -⟩ := step_dec_cases h
  · rw [hdec, htrace, horder]
  · show readTrace (s.dTrace ++ _) = _
    rw [readTrace_append, horder]
    exact (decStep_emits s.dec b).readEvents
  · rw [hreset] at hrst
    cases hrst

/-- Settles O35: every `Done` a step emits is the record of "end the call with S". -/
theorem stepKeepsDoneRecords : Obligations.StepKeepsDoneRecords := by
  intro s t hok h
  obtain ⟨-, htrace⟩ | ⟨b, rest, -, -, -, rfl⟩ | ⟨-, -, htrace⟩ := step_dec_cases h
  · rwa [htrace]
  · intro e he
    obtain he | he := List.mem_append.mp he
    · exact hok e he
    · exact (decStep_emits s.dec b).doneRecordOk e he
  · rwa [htrace]

theorem step_dTrace_grows {s t : State} (h : step s = .next t) :
    ∃ ds, t.dTrace = s.dTrace ++ ds ∧ (ds.filter isHdr).length ≤ 1 ∧ (ds.filter isPay).length ≤ 1 ∧
      (ds.filter isDone).length ≤ 1 := by
  obtain ⟨-, htrace⟩ | ⟨b, rest, -, -, -, rfl⟩ | ⟨-, -, htrace⟩ := step_dec_cases h
  · exact ⟨[], by simp [htrace], by simp⟩
  · exact ⟨_, rfl, (decStep_emits s.dec b).counts⟩
  · exact ⟨[], by simp [htrace], by simp⟩

/-- A step of ENC adds nothing to its trace when it accepts a command, and one event otherwise. -/
theorem EncMoves.eTrace_cases {s t : State} (h : EncMoves s t) :
    (s.enc.phase = .idle ∧ s.eCmd ≠ [] ∧ t.eTrace = s.eTrace) ∨
    (s.enc.phase ≠ .idle ∧ s.eOutReady = true ∧ (s.enc.phase = .pay → s.eIn ≠ []) ∧
      ∃ o, t.eTrace = s.eTrace ++ [o]) := by
  obtain ⟨c, rest, hp, hc, rfl⟩ | ⟨o, hp, hready, -, rfl⟩ | ⟨p, rest, hp, hready, hi, rfl⟩ := h
  · exact .inl ⟨hp, by simp [hc], rfl⟩
  · exact .inr ⟨by simp [hp], hready, by simp [hp], o.event, rfl⟩
  · exact .inr ⟨by simp [hp], hready, by simp [hi], _, rfl⟩

theorem step_eTrace_grows {s t : State} (h : step s = .next t) :
    ∃ es, t.eTrace = s.eTrace ++ es ∧ es.length ≤ 1 := by
  obtain ⟨-, htrace⟩ | he | ⟨-, -, htrace⟩ := step_enc_cases h
  · exact ⟨[], by simp [htrace], by simp⟩
  · obtain ⟨-, -, htrace⟩ | ⟨-, -, -, o, htrace⟩ := he.eTrace_cases
    · exact ⟨[], by simp [htrace], by simp⟩
    · exact ⟨[o], htrace, Nat.le_refl 1⟩
  · exact ⟨[], by simp [htrace], by simp⟩

/-- Settles O36: each unit's trace by the unit's own step. -/
theorem tracesOnlyGrow : Obligations.TracesOnlyGrow := by
  intro s t h
  obtain ⟨ds, hds, hcounts⟩ := step_dTrace_grows h
  obtain ⟨es, hes, hone⟩ := step_eTrace_grows h
  exact ⟨ds, es, hds, hes, hone, hcounts⟩

/-! ### The block's inputs -/

/-- Settles O57: each change of the block is its step on the byte, command, grant or payload byte taken, or on `rst`. -/
theorem blockStepsOnInputsAlone : Obligations.BlockStepsOnInputsAlone := by
  intro s t h
  obtain hsame | hd | he | ⟨hreset, hblock, hdTrace, heTrace⟩ := step_block_cases h
  · exact .inl hsame
  · obtain ⟨b, -, hsteps⟩ := hd.stepsOn_byte
    exact .inr ⟨_, hsteps⟩
  · obtain ⟨c, -, -, hsteps⟩ | ⟨-, -, hsteps⟩ | ⟨p, -, -, hsteps⟩ := he.stepsOn_input
    · exact .inr ⟨_, hsteps⟩
    · exact .inr ⟨_, hsteps⟩
    · exact .inr ⟨_, hsteps⟩
  · exact .inr ⟨.rst s.resets, ⟨hreset, rfl⟩, _, rfl, hblock, by simp [hdTrace], by simp [heTrace]⟩

/-! ### The turn of each agent -/

theorem step_dec_turn_cases {s t : State} {moves : List Move} (hscript : s.script = .turn .dec :: moves)
    (h : step s = .next t) :
    (decEnabled s = false ∧ t = { s with script := moves }) ∨ (decEnabled s = true ∧ DecMoves s t) := by
  cases he : decEnabled s with
  | false =>
    rw [step_of_turn_without_word hscript ((fetchedWord_dec_eq_none_iff s).mpr he)] at h
    exact .inl ⟨rfl, by simpa [eq_comm] using h⟩
  | true => exact .inr ⟨rfl, decode_moves s t (step_of_dec_turn hscript ▸ h) he⟩

theorem step_enc_turn_cases {s t : State} {moves : List Move} (hscript : s.script = .turn .enc :: moves)
    (h : step s = .next t) :
    (encEnabled s = false ∧ t = { s with script := moves }) ∨ (encEnabled s = true ∧ EncMoves s t) := by
  cases he : encEnabled s with
  | false =>
    rw [step_of_turn_without_word hscript ((fetchedWord_enc_eq_none_iff s).mpr he)] at h
    exact .inl ⟨rfl, by simpa [eq_comm] using h⟩
  | true =>
    rw [step_of_select_run ((select_of_turn hscript).trans (run_enc s he))] at h
    exact .inr ⟨rfl, encode_moves s t he h⟩

theorem step_drv_turn_cases {s t : State} {moves : List Move} (hscript : s.script = .turn .drv :: moves)
    (h : step s = .next t) : t = { s with script := moves } ∨ DrvMoves s t := by
  rw [step, select_of_turn hscript] at h
  obtain rfl | ⟨ha, -⟩ | ⟨ha, -⟩ | ⟨-, hv⟩ := selectAgent_cases s t .drv h
  · exact .inl (endTurn_of_turn hscript)
  · cases ha
  · cases ha
  · exact .inr hv

/-- Settles O26: each agent's step is written as an update of its own fields. -/
theorem agentsTouchTheirOwnState : Obligations.AgentsTouchTheirOwnState := by
  refine fun s t moves => ⟨fun hscript h => ?_, fun hscript h => ?_, fun hscript h => ?_⟩
  · obtain ⟨-, rfl⟩ | ⟨-, b, rest, -, -, -, rfl⟩ := step_dec_turn_cases hscript h
    · rfl
    · rw [endTurn_of_turn hscript]
  · obtain ⟨-, rfl⟩ | ⟨-, ⟨c, rest, -, -, rfl⟩ | ⟨o, -, -, -, rfl⟩ | ⟨p, rest, -, -, -, rfl⟩⟩ :=
      step_enc_turn_cases hscript h
    · rfl
    · rw [endTurn_of_turn hscript]
    · rw [endTurn_of_turn hscript, State.emitOut]
    · rw [endTurn_of_turn hscript, State.emitOut]
  · obtain rfl | ⟨c, rest, expand, -, hn, hcall⟩ := step_drv_turn_cases hscript h
    · rfl
    · obtain ⟨hlt, -⟩ | ⟨-, a, -, hout⟩ | ⟨-, -, hout⟩ := performCall_cases s c.len expand
      · omega
      · rw [hout, endTurn_of_turn hscript] at hcall
        cases hcall
        rfl
      · rw [hout, endTurn_of_turn hscript] at hcall
        cases hcall
        rfl

end Sys2Proof.Machine
end

section
/-! What is offered, what the ports show, and when a run is complete (R41, R42, R66, R73, R295). -/

namespace Sys2Proof.Machine

/-! ### Offered items -/

theorem heldInOrder_refl {α : Type} (p : α → Prop) (w : Prop) (x : List α) : heldInOrder p w x x :=
  .inr (.inl ⟨[], by simp⟩)

theorem heldInOrder_append {α : Type} (p : α → Prop) (w : Prop) (x more : List α) : heldInOrder p w x (x ++ more) :=
  .inr (.inl ⟨more, rfl⟩)

/-- What `OfferedItemsAreHeld` says of a step, channel by channel. -/
def OffersHeld (s t : State) : Prop :=
  heldInOrder (fun b => stepsOn s t (.byte b))
    (s.script.head? = some (.withdraw .dIn) ∧ s.mayWithdraw.dIn = true) s.dIn t.dIn ∧
  heldInOrder (fun c => stepsOn s t (.command c))
    (s.script.head? = some (.withdraw .eCmd) ∧ s.mayWithdraw.eCmd = true) s.eCmd t.eCmd ∧
  heldInOrder (fun p => stepsOn s t (.payload p))
    (s.script.head? = some (.withdraw .eIn) ∧ s.mayWithdraw.eIn = true) s.eIn t.eIn ∧
  heldInOrder (fun _ => ∃ r, t.callLog = s.callLog ++ [r])
    (s.script.head? = some (.withdraw .calls) ∧ s.mayWithdraw.calls = true) s.calls t.calls

/-- What `OfferedItemsAreHeld` says of the permissions after a step. -/
def PermissionsHeld (s t : State) : Prop :=
  (t.mayWithdraw.dIn = true → s.mayWithdraw.dIn = true ∨ resetNext s = true ∨
    t.dTrace = s.dTrace ++ [.done .tooBig 1009#16 false]) ∧
  (t.mayWithdraw.eCmd = true → s.mayWithdraw.eCmd = true ∨ resetNext s = true) ∧
  (t.mayWithdraw.eIn = true → s.mayWithdraw.eIn = true ∨ resetNext s = true) ∧
  (t.mayWithdraw.calls = true → s.mayWithdraw.calls = true ∨ resetNext s = true) ∧
  (withdrawalsIdle s → withdrawalsIdle t)

theorem offersHeld_of_same {s t : State} (hdIn : t.dIn = s.dIn) (heCmd : t.eCmd = s.eCmd) (heIn : t.eIn = s.eIn)
    (hcalls : t.calls = s.calls) : OffersHeld s t := by
  rw [OffersHeld, hdIn, heCmd, heIn, hcalls]
  exact ⟨heldInOrder_refl _ _ _, heldInOrder_refl _ _ _, heldInOrder_refl _ _ _, heldInOrder_refl _ _ _⟩

/-- Permissions that are only taken away, with no unit leaving its idle phase, are held. -/
theorem permissionsHeld_of_le {s t : State} (hdec : t.dec = s.dec) (henc : t.enc = s.enc)
    (hdIn : t.mayWithdraw.dIn = true → s.mayWithdraw.dIn = true)
    (heCmd : t.mayWithdraw.eCmd = true → s.mayWithdraw.eCmd = true)
    (heIn : t.mayWithdraw.eIn = true → s.mayWithdraw.eIn = true)
    (hcalls : t.mayWithdraw.calls = true → s.mayWithdraw.calls = true) : PermissionsHeld s t := by
  refine ⟨fun h => .inl (hdIn h), fun h => .inl (heCmd h), fun h => .inl (heIn h), fun h => .inl (hcalls h), ?_⟩
  rintro ⟨hidleDec, hidleEnc⟩
  exact ⟨fun h => hdec ▸ hidleDec (hdIn h), fun h => henc ▸ hidleEnc (h.imp heCmd heIn)⟩

theorem DecMoves.same_eCmd_eIn_calls {s t : State} (h : DecMoves s t) :
    t.eCmd = s.eCmd ∧ t.eIn = s.eIn ∧ t.calls = s.calls := by
  obtain ⟨b, rest, -, -, -, rfl⟩ := h
  exact ⟨rfl, rfl, rfl⟩

theorem DecMoves.offersHeld {s t : State} (h : DecMoves s t) : OffersHeld s t := by
  obtain ⟨b, hd, hsteps⟩ := h.stepsOn_byte
  obtain ⟨heCmd, heIn, hcalls⟩ := h.same_eCmd_eIn_calls
  rw [OffersHeld, heCmd, heIn, hcalls]
  exact ⟨.inl ⟨b, hd, hsteps⟩, heldInOrder_refl _ _ _, heldInOrder_refl _ _ _, heldInOrder_refl _ _ _⟩

theorem DecMoves.permissionsHeld {s t : State} (h : DecMoves s t) : PermissionsHeld s t := by
  obtain ⟨b, rest, -, -, -, rfl⟩ := h
  refine ⟨fun hbig => ?_, .inl, .inl, .inl, fun hidle => ⟨fun hbig => ?_, hidle.2⟩⟩
  · have hevents := ((decStep_emits s.dec b).eq_of_endsTooBig hbig).1
    exact .inr (.inr (congrArg (s.dTrace ++ ·) hevents))
  · exact ((decStep_emits s.dec b).eq_of_endsTooBig hbig).2.2

theorem EncMoves.same_dIn_calls {s t : State} (h : EncMoves s t) : t.dIn = s.dIn ∧ t.calls = s.calls := by
  obtain ⟨c, rest, -, -, rfl⟩ | ⟨o, -, -, -, rfl⟩ | ⟨p, rest, -, -, -, rfl⟩ := h <;> exact ⟨rfl, rfl⟩

theorem EncMoves.offersHeld {s t : State} (h : EncMoves s t) : OffersHeld s t := by
  obtain ⟨hdIn, hcalls⟩ := h.same_dIn_calls
  rw [OffersHeld, hdIn, hcalls]
  refine ⟨heldInOrder_refl _ _ _, ?_, ?_, heldInOrder_refl _ _ _⟩
  · obtain ⟨c, hc, -, hsteps⟩ | ⟨hc, -, -⟩ | ⟨p, hc, -, -⟩ := h.stepsOn_input
    · exact .inl ⟨c, hc, hsteps⟩
    · exact hc ▸ heldInOrder_refl _ _ _
    · exact hc ▸ heldInOrder_refl _ _ _
  · obtain ⟨c, -, hi, -⟩ | ⟨-, hi, -⟩ | ⟨p, -, hi, hsteps⟩ := h.stepsOn_input
    · exact hi ▸ heldInOrder_refl _ _ _
    · exact hi ▸ heldInOrder_refl _ _ _
    · exact .inl ⟨p, hi, hsteps⟩

/-- Outside E_IDLE, where ENC has no permission, its steps give none; from E_IDLE it takes both away. -/
theorem EncMoves.permissionsHeld {s t : State} (h : EncMoves s t) : PermissionsHeld s t := by
  obtain ⟨c, rest, -, -, rfl⟩ | ⟨o, hp, -, -, rfl⟩ | ⟨p, rest, hp, -, -, rfl⟩ := h
  · exact ⟨.inl, (nomatch ·), (nomatch ·), .inl, fun hidle => ⟨hidle.1, by rintro (h | h) <;> cases h⟩⟩
  · refine ⟨.inl, .inl, .inl, .inl, fun hidle => ⟨hidle.1, fun h => ?_⟩⟩
    exact absurd (hp.symm.trans (hidle.2 h)) (by decide)
  · refine ⟨.inl, .inl, (nomatch ·), .inl, fun hidle => ⟨hidle.1, fun h => ?_⟩⟩
    exact absurd (hp.symm.trans (hidle.2 (h.imp_right (nomatch ·)))) (by decide)

/-- The driver takes its call and offers its expansion, if any, behind what is offered. -/
theorem DrvMoves.cases {s t : State} (h : DrvMoves s t) : ∃ c r,
    s.calls = c :: t.calls ∧ t.callLog = s.callLog ++ [r] ∧ t.dIn = s.dIn ∧ (∃ cs, t.eCmd = s.eCmd ++ cs) ∧
      (∃ ps, t.eIn = s.eIn ++ ps) ∧ t.dec = s.dec ∧ t.enc = s.enc ∧ t.mayWithdraw.dIn = s.mayWithdraw.dIn ∧
      (t.mayWithdraw.eCmd = true → s.mayWithdraw.eCmd = true) ∧ (t.mayWithdraw.eIn = true → s.mayWithdraw.eIn = true) ∧
      t.mayWithdraw.calls = false := by
  obtain ⟨c, rest, expand, hc, hn, hcall⟩ := h
  obtain ⟨hlt, -⟩ | ⟨-, a, -, hout⟩ | ⟨-, -, hout⟩ := performCall_cases s c.len expand
  · omega
  · rw [hout] at hcall
    cases hcall
    exact ⟨c, .issued, by simp [hc], rfl, rfl, ⟨_, rfl⟩, ⟨_, rfl⟩, rfl, rfl, rfl, (nomatch ·), (nomatch ·), rfl⟩
  · rw [hout] at hcall
    cases hcall
    exact ⟨c, .refused, by simp [hc], rfl, rfl, ⟨[], by simp⟩, ⟨[], by simp⟩, rfl, rfl, rfl, id, id, rfl⟩

theorem DrvMoves.offersHeld {s t : State} (h : DrvMoves s t) : OffersHeld s t := by
  obtain ⟨c, r, hc, hlog, hdIn, ⟨cs, heCmd⟩, ⟨ps, heIn⟩, -⟩ := h.cases
  refine ⟨?_, ?_, ?_, .inl ⟨c, hc, r, hlog⟩⟩
  · exact hdIn ▸ heldInOrder_refl _ _ _
  · exact heCmd ▸ heldInOrder_append _ _ _ _
  · exact heIn ▸ heldInOrder_append _ _ _ _

theorem DrvMoves.permissionsHeld {s t : State} (h : DrvMoves s t) : PermissionsHeld s t := by
  obtain ⟨c, r, -, -, -, -, -, hdec, henc, hdIn, heCmd, heIn, hcalls⟩ := h.cases
  exact permissionsHeld_of_le hdec henc (fun h => hdIn ▸ h) heCmd heIn fun h => by simp [hcalls] at h

theorem offersHeld_of_withdraw {s : State} {rest : List Move} {ch : Inlet} (hscript : s.script = .withdraw ch :: rest) :
    OffersHeld s (s.popMove.withdraw ch) := by
  have hhead : s.script.head? = some (.withdraw ch) := by rw [hscript]; rfl
  obtain h | ⟨rfl, hmay, h⟩ | ⟨rfl, hmay, h⟩ | ⟨rfl, hmay, h⟩ | ⟨rfl, hmay, h⟩ := withdraw_cases s.popMove ch <;> rw [h]
  · exact offersHeld_of_same rfl rfl rfl rfl
  · exact ⟨.inr (.inr ⟨⟨hhead, hmay⟩, rfl⟩), heldInOrder_refl _ _ _, heldInOrder_refl _ _ _, heldInOrder_refl _ _ _⟩
  · exact ⟨heldInOrder_refl _ _ _, .inr (.inr ⟨⟨hhead, hmay⟩, rfl⟩), heldInOrder_refl _ _ _, heldInOrder_refl _ _ _⟩
  · exact ⟨heldInOrder_refl _ _ _, heldInOrder_refl _ _ _, .inr (.inr ⟨⟨hhead, hmay⟩, rfl⟩), heldInOrder_refl _ _ _⟩
  · exact ⟨heldInOrder_refl _ _ _, heldInOrder_refl _ _ _, heldInOrder_refl _ _ _, .inr (.inr ⟨⟨hhead, hmay⟩, rfl⟩)⟩

theorem environmentMove_offersHeld {s : State} {m : Move} {rest : List Move} (hscript : s.script = m :: rest) :
    OffersHeld s (environmentMove s.popMove m) := by
  cases m with
  | offerByte b =>
    exact ⟨heldInOrder_append _ _ _ [b], heldInOrder_refl _ _ _, heldInOrder_refl _ _ _, heldInOrder_refl _ _ _⟩
  | offerCommand c =>
    exact ⟨heldInOrder_refl _ _ _, heldInOrder_append _ _ _ [c], heldInOrder_refl _ _ _, heldInOrder_refl _ _ _⟩
  | offerPayload p =>
    exact ⟨heldInOrder_refl _ _ _, heldInOrder_refl _ _ _, heldInOrder_append _ _ _ [p], heldInOrder_refl _ _ _⟩
  | call c operands =>
    exact ⟨heldInOrder_refl _ _ _, heldInOrder_refl _ _ _, heldInOrder_refl _ _ _, heldInOrder_append _ _ _ [c]⟩
  | withdraw ch => exact offersHeld_of_withdraw hscript
  | _ => exact offersHeld_of_same rfl rfl rfl rfl

/-- Only a reset event gives permissions, and it idles both units. -/
theorem environmentMove_permissionsHeld {s : State} {m : Move} {rest : List Move} (hscript : s.script = m :: rest) :
    PermissionsHeld s (environmentMove s.popMove m) := by
  cases m with
  | rst =>
    have hreset : resetNext s = true := by simp [resetNext, hscript]
    exact ⟨fun _ => .inr (.inl hreset), fun _ => .inr hreset, fun _ => .inr hreset, fun _ => .inr hreset,
      fun _ => ⟨fun _ => rfl, fun _ => rfl⟩⟩
  | withdraw ch =>
    have hmay : (s.popMove.withdraw ch).mayWithdraw = s.mayWithdraw := withdraw_mayWithdraw s.popMove ch
    exact permissionsHeld_of_le (withdraw_dec s.popMove ch) (withdraw_enc s.popMove ch) (hmay ▸ id) (hmay ▸ id)
      (hmay ▸ id) (hmay ▸ id)
  | offerByte b => exact permissionsHeld_of_le rfl rfl (nomatch ·) id id id
  | offerCommand c => exact permissionsHeld_of_le rfl rfl id (nomatch ·) id id
  | offerPayload p => exact permissionsHeld_of_le rfl rfl id id (nomatch ·) id
  | call c operands => exact permissionsHeld_of_le rfl rfl id id id (nomatch ·)
  | _ => exact permissionsHeld_of_le rfl rfl id id id id

/-- Settles O55: kind of step by kind of step. -/
theorem offeredItemsAreHeld : Obligations.OfferedItemsAreHeld := by
  intro s t h
  have held : OffersHeld s t ∧ PermissionsHeld s t := by
    obtain rfl | ⟨a, rfl⟩ | hd | he | hv | ⟨m, rest, hscript, -, rfl⟩ := step_cases s t h
    · exact ⟨offersHeld_of_same rfl rfl rfl rfl, permissionsHeld_of_le rfl rfl id id id id⟩
    · exact ⟨offersHeld_of_same rfl rfl rfl rfl, permissionsHeld_of_le rfl rfl id id id id⟩
    · exact ⟨hd.offersHeld, hd.permissionsHeld⟩
    · exact ⟨he.offersHeld, he.permissionsHeld⟩
    · exact ⟨hv.offersHeld, hv.permissionsHeld⟩
    · exact ⟨environmentMove_offersHeld hscript, environmentMove_permissionsHeld hscript⟩
  obtain ⟨⟨hdIn, heCmd, heIn, hcalls⟩, hpermissions⟩ := held
  exact ⟨hdIn, heCmd, heIn, hcalls, hpermissions⟩

/-! ### The ports -/

theorem any_isHdr_iff (ev : List DecEvent) : ev.any isHdr = true ↔ ∃ h, .hdr h ∈ ev := by
  rw [List.any_eq_true]
  constructor
  · rintro ⟨e, he, hhdr⟩
    cases e with
    | hdr h => exact ⟨h, he⟩
    | pay _ _ => cases hhdr
    | done _ _ _ => cases hhdr
  · rintro ⟨h, he⟩
    exact ⟨_, he, rfl⟩

theorem any_isPay_iff (ev : List DecEvent) : ev.any isPay = true ↔ ∃ data last, .pay data last ∈ ev := by
  rw [List.any_eq_true]
  constructor
  · rintro ⟨e, he, hpay⟩
    cases e with
    | hdr _ => cases hpay
    | pay d l => exact ⟨d, l, he⟩
    | done _ _ _ => cases hpay
  · rintro ⟨d, l, he⟩
    exact ⟨_, he, rfl⟩

theorem any_isDone_iff (ev : List DecEvent) : ev.any isDone = true ↔ ∃ st code rem, .done st code rem ∈ ev := by
  rw [List.any_eq_true]
  constructor
  · rintro ⟨e, he, hdone⟩
    cases e with
    | hdr _ => cases hdone
    | pay _ _ => cases hdone
    | done st c m => exact ⟨st, c, m, he⟩
  · rintro ⟨st, c, m, he⟩
    exact ⟨_, he, rfl⟩

theorem presented_of_byte {s : State} {b : Beat} {rest : List Beat} (hd : s.dIn = b :: rest)
    (he : decEnabled s = true) : presented s = (decStep s.dec b).events := by
  simp only [presented, hd, he, if_true]

theorem presented_of_not_enabled {s : State} (he : decEnabled s = false) : presented s = [] := by
  cases hd : s.dIn <;> simp [presented, hd, he]

theorem decEnabled_iff (s : State) : decEnabled s = true ↔ s.dIn ≠ [] ∧ dInReady s = true := by
  rw [decEnabled, dInReady, Bool.and_eq_true]
  simp

theorem encEnabled_iff (s : State) : encEnabled s = true ↔
    (s.enc.phase = .idle ∧ s.eCmd ≠ []) ∨ (s.enc.phase = .hdr ∧ s.eOutReady = true) ∨
      (s.enc.phase = .pay ∧ s.eIn ≠ [] ∧ s.eOutReady = true) := by
  cases hp : s.enc.phase <;> simp [encEnabled, hp]

/-- A `Pay` is presented exactly in D_PAY on an offered byte, when `d_out` is ready. -/
theorem any_isPay_presented (s : State) :
    (presented s).any isPay = true ↔ dOutValid s = true ∧ s.dOutReady = true := by
  cases hd : s.dIn with
  | nil => simp [presented, dOutValid, hd]
  | cons b rest =>
    cases he : decEnabled s with
    | false =>
      rw [presented_of_not_enabled he]
      simp only [decEnabled, hd, List.isEmpty_cons, Bool.not_false, Bool.true_and, Bool.or_eq_false_iff] at he
      simp [he.2]
    | true =>
      rw [presented_of_byte hd he, (decStep_emits s.dec b).any_isPay]
      simp only [decEnabled, hd, List.isEmpty_cons, Bool.not_false, Bool.true_and] at he
      by_cases hp : s.dec.phase = .pay
      · simpa [dOutValid, hd, hp] using he
      · simp [dOutValid, hp]

/-- The turn of DEC emits what it presents. -/
theorem step_dec_turn_dTrace {s t : State} {moves : List Move} (hscript : s.script = .turn .dec :: moves)
    (h : step s = .next t) : t.dTrace = s.dTrace ++ presented s := by
  obtain ⟨he, rfl⟩ | ⟨he, b, rest, hd, -, -, rfl⟩ := step_dec_turn_cases hscript h
  · simp [presented_of_not_enabled he]
  · rw [presented_of_byte hd he]

theorem step_enc_turn_eTrace {s t : State} {moves : List Move} (hscript : s.script = .turn .enc :: moves)
    (h : step s = .next t) :
    ∃ es, t.eTrace = s.eTrace ++ es ∧ (eOutValid s = true ∧ s.eOutReady = true ↔ es ≠ []) := by
  obtain ⟨he, rfl⟩ | ⟨-, hmoves⟩ := step_enc_turn_cases hscript h
  · refine ⟨[], by simp, ?_⟩
    cases hp : s.enc.phase <;> simp_all [encEnabled, eOutValid]
  · obtain ⟨hp, -, htrace⟩ | ⟨hp, hready, hin, o, htrace⟩ := hmoves.eTrace_cases
    · exact ⟨[], by simp [htrace], by simp [eOutValid, hp]⟩
    · refine ⟨[o], htrace, ?_⟩
      cases hp' : s.enc.phase with
      | idle => exact absurd hp' hp
      | hdr => simp [eOutValid, hp', hready]
      | pay => simpa [eOutValid, hp', hready] using hin hp'

/-- Settles O56: the valid outputs are what is presented, and a turn emits exactly that. -/
theorem handshakeOutputsTellTheStep : Obligations.HandshakeOutputsTellTheStep := by
  intro s
  refine ⟨?dInReady, ?eCmdReady, ?eInReady, ?dec, ?enc, fun t moves hscript h => ?decTurn,
    fun t moves hscript h => step_enc_turn_eTrace hscript h⟩
  case dInReady => by_cases hp : s.dec.phase = .pay <;> simp [dInReady, hp]
  case eCmdReady => rfl
  case eInReady => by_cases hp : s.enc.phase = .pay <;> simp [eInReady, hp]
  case dec => rw [Ne, fetchedWord_dec_eq_none_iff, Bool.not_eq_false, decEnabled_iff]
  case enc => rw [Ne, fetchedWord_enc_eq_none_iff, Bool.not_eq_false, encEnabled_iff]
  case decTurn =>
    exact ⟨presented s, step_dec_turn_dTrace hscript h, any_isHdr_iff _, any_isDone_iff _,
      (any_isPay_presented s).symm.trans (any_isPay_iff _)⟩

end Sys2Proof.Machine
end

section
/-! When a run is complete (R295): the calls of a unit are counted by its step, and a quiescent state has none open. -/

namespace Sys2Proof.Machine

/-! ### The calls of DEC -/

/-- After a step of DEC its calls are those ended before and the one the step belongs to, ended or not. -/
theorem decCalls_of_decStep {s t : State} {b : Beat} (hdec : t.dec = (decStep s.dec b).regs)
    (htrace : t.dTrace = s.dTrace ++ (decStep s.dec b).events) : decCalls t = s.dTrace.countP isDone + 1 := by
  rw [decCalls, htrace, hdec, List.countP_append, (decStep_emits s.dec b).countP_isDone]
  by_cases hend : (decStep s.dec b).regs.phase = .b0
  · simp [hend]
  · simp [hend]

theorem decCalls_of_stepsOn_byte {s t : State} {b : Beat} (h : stepsOn s t (.byte b)) :
    decCalls t = s.dTrace.countP isDone + 1 := by
  obtain ⟨-, o, hstep, hblock, htrace, -⟩ := h
  by_cases hkey : s.dec.phase = .key ∧ 3 < s.dec.idx.toNat
  · rw [Block.step, if_pos hkey] at hstep
    cases hstep
  · rw [Block.step, if_neg hkey] at hstep
    cases hstep
    exact decCalls_of_decStep (congrArg Block.dec hblock) htrace

theorem decCalls_of_b0 {s : State} (hp : s.dec.phase = .b0) : decCalls s = s.dTrace.countP isDone := by
  simp [decCalls, hp]

theorem decCalls_of_ne_b0 {s : State} (hp : s.dec.phase ≠ .b0) : decCalls s = s.dTrace.countP isDone + 1 := by
  simp [decCalls, hp]

theorem decCalls_eq_of_step {s t : State} (hreset : resetNext s = false) (h : step s = .next t)
    (hbegins : ¬(s.dec.phase = .b0 ∧ ∃ b, stepsOn s t (.byte b))) : decCalls t = decCalls s := by
  obtain ⟨hdec, htrace⟩ | hmoves | ⟨hrst, -⟩ := step_dec_cases h
  · rw [decCalls, decCalls, hdec, htrace]
  · obtain ⟨b, -, hsteps⟩ := hmoves.stepsOn_byte
    rw [decCalls_of_stepsOn_byte hsteps, decCalls_of_ne_b0 fun hp => hbegins ⟨hp, b, hsteps⟩]
  · rw [hreset] at hrst
    cases hrst

/-! ### The calls of ENC -/

theorem headerStep_last {r : EncRegs} (hp : r.phase = .hdr) {o : EncResult} (ho : headerStep r = some o) :
    o.event.last = (o.regs.phase == .idle) := by
  obtain ⟨-, h⟩ | ⟨b, -, ⟨-, -, h⟩ | ⟨-, -, h⟩ | ⟨-, h⟩⟩ := headerStep_cases r <;> rw [h] at ho <;> cases ho
  · rfl
  · rfl
  · simp [hp]

theorem encPayStep_last {r : EncRegs} (hp : r.phase = .pay) (p : Byte) :
    (encPayStep r p).event.last = ((encPayStep r p).regs.phase == .idle) := by
  obtain ⟨-, h⟩ | ⟨-, h⟩ := encPayStep_cases r p <;> rw [h]
  · rfl
  · simp [hp]

/-- A step of ENC accepts a command, or emits an `Out` that is the last one exactly when it goes to E_IDLE. -/
theorem EncMoves.cases {s t : State} (h : EncMoves s t) :
    (s.enc.phase = .idle ∧ t.eTrace = s.eTrace ∧ t.enc.phase = .hdr ∧ t.enc.hidx = 0#4) ∨
    (s.enc.phase ≠ .idle ∧ (t.enc.phase = .hdr → t.enc.hidx ≠ 0#4) ∧
      ∃ o, t.eTrace = s.eTrace ++ [o] ∧ o.last = (t.enc.phase == .idle)) := by
  obtain ⟨c, rest, hp, -, rfl⟩ | ⟨o, hp, -, ho, rfl⟩ | ⟨p, rest, hp, -, -, rfl⟩ := h
  · exact .inl ⟨hp, rfl, rfl, rfl⟩
  · refine .inr ⟨by simp [hp], ?_, o.event, rfl, headerStep_last hp ho⟩
    have hsucc := hidx_succ_toNat (hidx_lt_of_headerStep ho)
    obtain ⟨-, h⟩ | ⟨b, -, ⟨-, -, h⟩ | ⟨-, -, h⟩ | ⟨-, h⟩⟩ := headerStep_cases s.enc <;> rw [h] at ho <;> cases ho
    · exact (nomatch ·)
    · exact (nomatch ·)
    · intro _ hzero
      rw [show s.enc.hidx + 1#4 = 0#4 from hzero] at hsucc
      cases hsucc
  · refine .inr ⟨by simp [hp], ?_, _, rfl, encPayStep_last hp p⟩
    obtain ⟨-, h⟩ | ⟨-, h⟩ := encPayStep_cases s.enc p
    · simp [h]
    · simp [h, hp]

theorem encCalls_of_idle {s : State} (hp : s.enc.phase = .idle) : encCalls s = s.eTrace.countP (fun o => o.last) := by
  simp [encCalls, hp]

theorem encCalls_of_ne_idle {s : State} (hp : s.enc.phase ≠ .idle) :
    encCalls s = s.eTrace.countP (fun o => o.last) + 1 := by
  simp [encCalls, hp]

/-- A step of ENC in a call leaves the count of its calls: the last `Out` ends the one in progress. -/
theorem EncMoves.encCalls_eq {s t : State} (h : EncMoves s t) (hp : s.enc.phase ≠ .idle) : encCalls t = encCalls s := by
  obtain ⟨hidle, -⟩ | ⟨-, -, o, htrace, hlast⟩ := h.cases
  · exact absurd hidle hp
  · rw [encCalls_of_ne_idle hp]
    by_cases hend : t.enc.phase = .idle
    · rw [encCalls_of_idle hend, htrace]
      simp [List.countP_append, hlast, hend]
    · rw [encCalls_of_ne_idle hend, htrace]
      simp [List.countP_append, hlast, hend]

theorem encCalls_of_stepsOn_command {s t : State} {c : Command} (hp : s.enc.phase = .idle)
    (h : stepsOn s t (.command c)) : encCalls t = encCalls s + 1 := by
  obtain ⟨-, o, hstep, hblock, -, htrace⟩ := h
  simp only [Block.step, hp, Option.some.injEq] at hstep
  subst hstep
  have hhdr : t.enc.phase = .hdr := congrArg (fun k => k.enc.phase) hblock
  rw [encCalls_of_idle hp, encCalls_of_ne_idle (by simp [hhdr]), htrace, List.append_nil]

theorem encCalls_eq_of_step {s t : State} (hreset : resetNext s = false) (h : step s = .next t)
    (hbegins : ¬(s.enc.phase = .idle ∧ ∃ c, stepsOn s t (.command c))) : encCalls t = encCalls s := by
  obtain ⟨henc, htrace⟩ | hmoves | ⟨hrst, -⟩ := step_enc_cases h
  · rw [encCalls, encCalls, henc, htrace]
  · refine hmoves.encCalls_eq fun hp => hbegins ⟨hp, ?_⟩
    obtain ⟨c, -, -, hsteps⟩ | ⟨-, -, -, o, hstep, -⟩ | ⟨p, -, -, -, o, hstep, -⟩ := hmoves.stepsOn_input
    · exact ⟨c, hsteps⟩
    · simp [Block.step, hp] at hstep
    · simp [Block.step, hp] at hstep
  · rw [hreset] at hrst
    cases hrst

/-! ### The order of ENC's trace -/

theorem outTraceInOrder_iff (s : State) : outTraceInOrder s = true ↔
    (outTraceClosed s = true ↔ s.enc.phase = .idle ∨ (s.enc.phase = .hdr ∧ s.enc.hidx = 0#4)) := by
  rw [outTraceInOrder, beq_iff_eq, Bool.eq_iff_iff]
  simp

theorem outTraceClosed_of_append {t : State} {tr : List OutEvent} {o : OutEvent} (h : t.eTrace = tr ++ [o]) :
    outTraceClosed t = o.last := by
  simp [outTraceClosed, h]

theorem EncMoves.keeps_outTraceInOrder {s t : State} (horder : outTraceInOrder s = true) (h : EncMoves s t) :
    outTraceInOrder t = true := by
  rw [outTraceInOrder_iff] at horder ⊢
  obtain ⟨hidle, htrace, hhdr, hidx⟩ | ⟨-, hidx, o, htrace, hlast⟩ := h.cases
  · have hclosed : outTraceClosed t = true := by
      rw [outTraceClosed, htrace]
      exact horder.mpr (.inl hidle)
    simp [hclosed, hhdr, hidx]
  · rw [outTraceClosed_of_append htrace, hlast, beq_iff_eq]
    exact ⟨.inl, fun h => h.resolve_right fun hhdr => hidx hhdr.1 hhdr.2⟩

theorem step_keeps_outTraceInOrder {s t : State} (hreset : resetNext s = false) (h : step s = .next t)
    (horder : outTraceInOrder s = true) : outTraceInOrder t = true := by
  obtain ⟨henc, htrace⟩ | hmoves | ⟨hrst, -⟩ := step_enc_cases h
  · rwa [outTraceInOrder, outTraceClosed, htrace, henc]
  · exact hmoves.keeps_outTraceInOrder horder
  · rw [hreset] at hrst
    cases hrst

theorem outTrace_ends_with_last {s : State} (hclosed : outTraceClosed s = true) :
    s.eTrace = [] ∨ ∃ d, s.eTrace.getLast? = some ⟨d, true⟩ := by
  cases hlast : s.eTrace.getLast? with
  | none => exact .inl (List.getLast?_eq_none_iff.mp hlast)
  | some o =>
    have hl : o.last = true := by simpa [outTraceClosed, hlast] using hclosed
    exact .inr ⟨o.data, by rw [← hl]⟩

/-! ### Quiescence -/

theorem quiescent_iff (s : State) : quiescent s = true ↔
    s.dec.phase = .b0 ∧ s.enc.phase = .idle ∧ s.dIn = [] ∧ s.eCmd = [] ∧ s.eIn = [] := by
  simp [quiescent, and_assoc]

/-- Settles O58: what each function answers on idle units and empty channels; then the two units' counts. -/
theorem quiescentRunsAreComplete : Obligations.QuiescentRunsAreComplete := by
  refine ⟨fun s => ⟨quiescent_iff s, fun hq => ?_⟩, fun s t hreset h => ⟨?_, ?_, ?_, ?_, ?_⟩⟩
  · obtain ⟨hdec, henc, hdIn, heCmd, -⟩ := (quiescent_iff s).mp hq
    have hdecWord : decEnabled s = false := by simp [decEnabled, hdIn]
    have hencWord : encEnabled s = false := by simp [encEnabled, henc, heCmd]
    have hpresented := presented_of_not_enabled hdecWord
    refine ⟨(fetchedWord_dec_eq_none_iff s).mpr hdecWord, (fetchedWord_enc_eq_none_iff s).mpr hencWord,
      by simp [dHdrValid, hpresented], by simp [dOutValid, hdec], by simp [dDoneValid, hpresented],
      by simp [eOutValid, henc], fun horder => ?_, fun horder => ?_, decCalls_of_b0 hdec, encCalls_of_idle henc⟩
    · simp only [traceInOrder, hdec, beq_iff_eq] at horder
      exact horder
    · exact outTrace_ends_with_last (((outTraceInOrder_iff s).mp horder).mpr (.inl henc))
  · exact step_keeps_outTraceInOrder hreset h
  · rintro ⟨hp, b, hsteps⟩
    rw [decCalls_of_stepsOn_byte hsteps, decCalls_of_b0 hp]
  · exact decCalls_eq_of_step hreset h
  · rintro ⟨hp, c, hsteps⟩
    exact encCalls_of_stepsOn_command hp hsteps
  · exact encCalls_eq_of_step hreset h

end Sys2Proof.Machine
end

section
/-! Turns of the two units as functions on states: they run one after another (log 4), commute (R76), and read only the
registers that are live (R37, R38). -/

namespace Sys2Proof.Machine

/-! ### A turn as a function -/

/-- What DEC's turn makes of a state, but for the script: the register step on the oldest byte, where DEC may take it. -/
def decTurn (s : State) : State :=
  match s.dIn with
  | [] => s
  | b :: rest =>
    if decEnabled s then
      { s with
        dIn := rest, dec := (decStep s.dec b).regs, dTrace := s.dTrace ++ (decStep s.dec b).events
        mayWithdraw := { s.mayWithdraw with dIn := endsTooBig (decStep s.dec b).events } }
    else s

/-- What ENC's turn makes of a state, but for the script; nothing where `hidx` is past the header. -/
def encTurn (s : State) : State :=
  match s.enc.phase with
  | .idle =>
    match s.eCmd with
    | [] => s
    | c :: rest =>
      { s with
        eCmd := rest, enc := acceptCommand s.enc c.typ c.len c.key
        mayWithdraw := { s.mayWithdraw with eCmd := false, eIn := false } }
  | .hdr =>
    if s.eOutReady then
      match headerStep s.enc with
      | none => s
      | some o => s.emitOut o
    else s
  | .pay =>
    if s.eOutReady then
      match s.eIn with
      | [] => s
      | p :: rest =>
        { s.emitOut (encPayStep s.enc p) with eIn := rest, mayWithdraw := { s.mayWithdraw with eIn := false } }
    else s

theorem decTurn_of_not_enabled {s : State} (he : decEnabled s = false) : decTurn s = s := by
  unfold decTurn
  split
  · rfl
  · exact if_neg (by simp [he])

theorem decTurn_of_byte {s : State} {b : Beat} {rest : List Beat} (hd : s.dIn = b :: rest) (he : decEnabled s = true) :
    decTurn s = { s with
      dIn := rest, dec := (decStep s.dec b).regs, dTrace := s.dTrace ++ (decStep s.dec b).events
      mayWithdraw := { s.mayWithdraw with dIn := endsTooBig (decStep s.dec b).events } } := by
  simp only [decTurn, hd, he, if_true]

theorem encTurn_of_not_enabled {s : State} (he : encEnabled s = false) : encTurn s = s := by
  unfold encTurn
  cases hp : s.enc.phase with
  | idle =>
    have hc : s.eCmd = [] := by simpa [encEnabled, hp] using he
    simp only [hc]
  | hdr =>
    have hready : s.eOutReady = false := by simpa [encEnabled, hp] using he
    simp [hready]
  | pay =>
    cases hready : s.eOutReady with
    | false => rfl
    | true =>
      have hi : s.eIn = [] := by simpa [encEnabled, hp, hready] using he
      simp only [hi, if_true]

theorem encTurn_accepts {s : State} {c : Command} {rest : List Command} (hp : s.enc.phase = .idle)
    (hc : s.eCmd = c :: rest) :
    encTurn s = { s with
      eCmd := rest, enc := acceptCommand s.enc c.typ c.len c.key
      mayWithdraw := { s.mayWithdraw with eCmd := false, eIn := false } } := by
  simp only [encTurn, hp, hc]

theorem encTurn_header {s : State} {o : EncResult} (hp : s.enc.phase = .hdr) (hready : s.eOutReady = true)
    (ho : headerStep s.enc = some o) : encTurn s = s.emitOut o := by
  simp only [encTurn, hp, hready, ho, if_true]

theorem encTurn_payload {s : State} {p : Byte} {rest : List Byte} (hp : s.enc.phase = .pay) (hready : s.eOutReady = true)
    (hi : s.eIn = p :: rest) :
    encTurn s =
      { s.emitOut (encPayStep s.enc p) with eIn := rest, mayWithdraw := { s.mayWithdraw with eIn := false } } := by
  simp only [encTurn, hp, hready, hi, if_true]

/-- In E_HDR a well-formed ENC has a header byte to emit. -/
theorem exists_headerStep {r : EncRegs} (hwf : encWellFormed r = true) (hp : r.phase = .hdr) :
    ∃ o, headerStep r = some o := by
  rw [← Option.ne_none_iff_exists', Ne, headerStep_eq_none_iff, Nat.not_le]
  exact (encWellFormed_hdr_iff hp).mp hwf

theorem step_eq_decTurn {s : State} {moves : List Move} (hwf : decWellFormed s.dec = true)
    (hscript : s.script = .turn .dec :: moves) : step s = .next { decTurn s with script := moves } := by
  cases he : decEnabled s with
  | false =>
    rw [step_of_turn_without_word hscript ((fetchedWord_dec_eq_none_iff s).mpr he), decTurn_of_not_enabled he]
  | true =>
    obtain ⟨hd, hready⟩ := (decEnabled_iff s).mp he
    obtain ⟨b, rest, hd⟩ := List.exists_cons_of_ne_nil hd
    have hpay : s.dec.phase = .pay → s.dOutReady = true := fun hp => by simpa [dInReady, hp] using hready
    have hkey : ¬(s.dec.phase = .key ∧ 3 < s.dec.idx.toNat) := fun ⟨hp, hidx⟩ =>
      not_keyRegisterMissing hwf ⟨hp, hidx, by simp [hd]⟩
    rw [step_of_dec_turn hscript, exec_decode_of_byte hd hpay hkey, endTurn_of_turn hscript, decTurn_of_byte hd he]

theorem step_eq_encTurn {s : State} {moves : List Move} (hwf : encWellFormed s.enc = true)
    (hscript : s.script = .turn .enc :: moves) : step s = .next { encTurn s with script := moves } := by
  cases he : encEnabled s with
  | false =>
    rw [step_of_turn_without_word hscript ((fetchedWord_enc_eq_none_iff s).mpr he), encTurn_of_not_enabled he]
  | true =>
    rw [step_of_select_run ((select_of_turn hscript).trans (run_enc s he))]
    obtain ⟨hp, hc⟩ | ⟨hp, hready⟩ | ⟨hp, hi, hready⟩ := (encEnabled_iff s).mp he
    · obtain ⟨c, rest, hc⟩ := List.exists_cons_of_ne_nil hc
      have hcurrent : currentCommand s = c := by simp [currentCommand, hp, hc]
      rw [hcurrent, encodeAcceptsCommand s c.typ c.len c.key rest hp hc, endTurn_of_turn hscript, encTurn_accepts hp hc]
      rfl
    · obtain ⟨o, ho⟩ := exists_headerStep hwf hp
      rw [exec_encode_of_headerStep hp hready ho, endTurn_of_turn hscript, encTurn_header hp hready ho]
      rfl
    · obtain ⟨p, rest, hi⟩ := List.exists_cons_of_ne_nil hi
      rw [exec_encode_of_payload hp hready hi, endTurn_of_turn hscript, encTurn_payload hp hready hi]
      rfl

/-- The two ways a turn of DEC goes. -/
theorem decTurn_cases (s : State) :
    (decEnabled s = false ∧ decTurn s = s) ∨
    (decEnabled s = true ∧ ∃ b rest, s.dIn = b :: rest ∧ decTurn s = { s with
      dIn := rest, dec := (decStep s.dec b).regs, dTrace := s.dTrace ++ (decStep s.dec b).events
      mayWithdraw := { s.mayWithdraw with dIn := endsTooBig (decStep s.dec b).events } }) := by
  cases he : decEnabled s with
  | false => exact .inl ⟨rfl, decTurn_of_not_enabled he⟩
  | true =>
    obtain ⟨b, rest, hd⟩ := List.exists_cons_of_ne_nil ((decEnabled_iff s).mp he).1
    exact .inr ⟨rfl, b, rest, hd, decTurn_of_byte hd he⟩

theorem decTurn_keeps_wellFormed {s : State} (hwf : decWellFormed s.dec = true) :
    decWellFormed (decTurn s).dec = true := by
  obtain ⟨-, h⟩ | ⟨-, b, rest, -, h⟩ := decTurn_cases s <;> rw [h]
  · exact hwf
  · exact decStep_keeps_wellFormed hwf b

/-- The four ways a turn of ENC goes, where ENC is well formed. -/
theorem encTurn_cases {s : State} (hwf : encWellFormed s.enc = true) :
    (encEnabled s = false ∧ encTurn s = s) ∨
    (∃ c rest, s.enc.phase = .idle ∧ s.eCmd = c :: rest ∧ encTurn s = { s with
      eCmd := rest, enc := acceptCommand s.enc c.typ c.len c.key
      mayWithdraw := { s.mayWithdraw with eCmd := false, eIn := false } }) ∨
    (∃ o, s.enc.phase = .hdr ∧ s.eOutReady = true ∧ headerStep s.enc = some o ∧ encTurn s = s.emitOut o) ∨
    (∃ p rest, s.enc.phase = .pay ∧ s.eOutReady = true ∧ s.eIn = p :: rest ∧ encTurn s =
      { s.emitOut (encPayStep s.enc p) with eIn := rest, mayWithdraw := { s.mayWithdraw with eIn := false } }) := by
  cases he : encEnabled s with
  | false => exact .inl ⟨rfl, encTurn_of_not_enabled he⟩
  | true =>
    right
    obtain ⟨hp, hc⟩ | ⟨hp, hready⟩ | ⟨hp, hi, hready⟩ := (encEnabled_iff s).mp he
    · obtain ⟨c, rest, hc⟩ := List.exists_cons_of_ne_nil hc
      exact .inl ⟨c, rest, hp, hc, encTurn_accepts hp hc⟩
    · obtain ⟨o, ho⟩ := exists_headerStep hwf hp
      exact .inr (.inl ⟨o, hp, hready, ho, encTurn_header hp hready ho⟩)
    · obtain ⟨p, rest, hi⟩ := List.exists_cons_of_ne_nil hi
      exact .inr (.inr ⟨p, rest, hp, hready, hi, encTurn_payload hp hready hi⟩)

theorem encTurn_keeps_wellFormed {s : State} (hwf : encWellFormed s.enc = true) :
    encWellFormed (encTurn s).enc = true := by
  obtain ⟨-, h⟩ | ⟨c, rest, -, -, h⟩ | ⟨o, hp, -, ho, h⟩ | ⟨p, rest, hp, -, -, h⟩ := encTurn_cases hwf <;> rw [h]
  · exact hwf
  · exact acceptCommand_wellFormed s.enc c.typ c.len c.key
  · exact headerStep_keeps_wellFormed hp ho
  · exact encPayStep_keeps_wellFormed hp hwf p

/-! ### Turns in a row -/

theorem run_succ {s t : State} (h : step s = .next t) (k : Nat) :
    Sys2Proof.core.run (k + 1) s = Sys2Proof.core.run k t := by
  have hstep : Sys2Proof.core.step s = .next t := h
  simp only [Host.Core.run, hstep]

theorem decTurn_script (s : State) (moves : List Move) :
    decTurn { s with script := moves } = { decTurn s with script := moves } := by
  obtain ⟨he, h⟩ | ⟨he, b, rest, hd, h⟩ := decTurn_cases s <;> rw [h]
  · exact decTurn_of_not_enabled he
  · exact decTurn_of_byte hd he

theorem encTurn_script {s : State} (hwf : encWellFormed s.enc = true) (moves : List Move) :
    encTurn { s with script := moves } = { encTurn s with script := moves } := by
  obtain ⟨he, h⟩ | ⟨c, rest, hp, hc, h⟩ | ⟨o, hp, hready, ho, h⟩ | ⟨p, rest, hp, hready, hi, h⟩ :=
    encTurn_cases hwf <;> rw [h]
  · exact encTurn_of_not_enabled he
  · exact encTurn_accepts hp hc
  · exact encTurn_header hp hready ho
  · exact encTurn_payload hp hready hi

theorem decTurn_iterate_script (k : Nat) (s : State) (moves : List Move) :
    decTurn^[k] { s with script := moves } = { decTurn^[k] s with script := moves } := by
  induction k generalizing s with
  | zero => rfl
  | succ k ih => rw [Function.iterate_succ_apply, Function.iterate_succ_apply, decTurn_script, ih]

theorem encTurn_iterate_script (k : Nat) {s : State} (hwf : encWellFormed s.enc = true) (moves : List Move) :
    encTurn^[k] { s with script := moves } = { encTurn^[k] s with script := moves } := by
  induction k generalizing s with
  | zero => rfl
  | succ k ih =>
    rw [Function.iterate_succ_apply, Function.iterate_succ_apply, encTurn_script hwf, ih (encTurn_keeps_wellFormed hwf)]

/-- Turns of DEC in a row are its turn function iterated. -/
theorem run_dec_turns {k : Nat} {s : State} {moves : List Move} (hwf : decWellFormed s.dec = true)
    (hscript : s.script = List.replicate k (.turn .dec) ++ moves) :
    Sys2Proof.core.run k s = .next { decTurn^[k] s with script := moves } := by
  induction k generalizing s with
  | zero =>
    obtain rfl : s.script = moves := hscript
    rfl
  | succ k ih =>
    calc Sys2Proof.core.run (k + 1) s
        = Sys2Proof.core.run k { decTurn s with script := List.replicate k (.turn .dec) ++ moves } :=
          run_succ (step_eq_decTurn hwf hscript) k
      _ = .next { decTurn^[k] { decTurn s with script := List.replicate k (.turn .dec) ++ moves } with
            script := moves } := ih (decTurn_keeps_wellFormed hwf) rfl
      _ = .next { decTurn^[k + 1] s with script := moves } := by
          rw [decTurn_iterate_script, Function.iterate_succ_apply]

/-- Turns of ENC in a row are its turn function iterated. -/
theorem run_enc_turns {k : Nat} {s : State} {moves : List Move} (hwf : encWellFormed s.enc = true)
    (hscript : s.script = List.replicate k (.turn .enc) ++ moves) :
    Sys2Proof.core.run k s = .next { encTurn^[k] s with script := moves } := by
  induction k generalizing s with
  | zero =>
    obtain rfl : s.script = moves := hscript
    rfl
  | succ k ih =>
    calc Sys2Proof.core.run (k + 1) s
        = Sys2Proof.core.run k { encTurn s with script := List.replicate k (.turn .enc) ++ moves } :=
          run_succ (step_eq_encTurn hwf hscript) k
      _ = .next { encTurn^[k] { encTurn s with script := List.replicate k (.turn .enc) ++ moves } with
            script := moves } := ih (encTurn_keeps_wellFormed hwf) rfl
      _ = .next { encTurn^[k + 1] s with script := moves } := by
          rw [encTurn_iterate_script k (encTurn_keeps_wellFormed hwf), Function.iterate_succ_apply]

end Sys2Proof.Machine
end

section
/-! The turns of the units commute (R76), and each unit reads only its live registers and its inputs (R37, R38, R77). -/

namespace Sys2Proof.Machine

/-! ### The turns commute -/

theorem decTurn_enc (s : State) : (decTurn s).enc = s.enc := by
  obtain ⟨-, h⟩ | ⟨-, b, rest, -, h⟩ := decTurn_cases s <;> rw [h]

theorem encTurn_frame {s : State} (hwf : encWellFormed s.enc = true) :
    (encTurn s).dec = s.dec ∧ (encTurn s).dIn = s.dIn ∧ (encTurn s).dOutReady = s.dOutReady ∧
      (encTurn s).dTrace = s.dTrace := by
  obtain ⟨-, h⟩ | ⟨c, rest, -, -, h⟩ | ⟨o, -, -, -, h⟩ | ⟨p, rest, -, -, -, h⟩ := encTurn_cases hwf <;> rw [h]
  · exact ⟨rfl, rfl, rfl, rfl⟩
  · exact ⟨rfl, rfl, rfl, rfl⟩
  · exact ⟨rfl, rfl, rfl, rfl⟩
  · exact ⟨rfl, rfl, rfl, rfl⟩

/-- ENC's turn neither reads nor writes what DEC's turn does. -/
theorem encTurn_update_dec {s : State} (hwf : encWellFormed s.enc = true) (dIn : List Beat) (dec : DecRegs)
    (dTrace : List DecEvent) (may : Bool) :
    encTurn { s with dIn := dIn, dec := dec, dTrace := dTrace, mayWithdraw := { s.mayWithdraw with dIn := may } } =
      { encTurn s with
        dIn := dIn, dec := dec, dTrace := dTrace, mayWithdraw := { (encTurn s).mayWithdraw with dIn := may } } := by
  obtain ⟨he, h⟩ | ⟨c, rest, hp, hc, h⟩ | ⟨o, hp, hready, ho, h⟩ | ⟨p, rest, hp, hready, hi, h⟩ :=
    encTurn_cases hwf <;> rw [h]
  · exact encTurn_of_not_enabled he
  · exact encTurn_accepts hp hc
  · exact encTurn_header hp hready ho
  · exact encTurn_payload hp hready hi

theorem decTurn_encTurn {s : State} (hwf : encWellFormed s.enc = true) : decTurn (encTurn s) = encTurn (decTurn s) := by
  obtain ⟨hdec, hdIn, hready, htrace⟩ := encTurn_frame hwf
  have henabled : decEnabled (encTurn s) = decEnabled s := by rw [decEnabled, decEnabled, hdec, hdIn, hready]
  obtain ⟨he, h⟩ | ⟨he, b, rest, hd, h⟩ := decTurn_cases s
  · rw [h, decTurn_of_not_enabled (henabled.trans he)]
  · rw [decTurn_of_byte (hdIn.trans hd) (henabled.trans he), hdec, htrace, h]
    exact (encTurn_update_dec hwf _ _ _ _).symm

theorem step_given_dec_turn {s : State} (hwf : decWellFormed s.dec = true) (moves : List Move) :
    step { s with script := .turn .dec :: moves } = .next { decTurn s with script := moves } := by
  rw [step_eq_decTurn (s := { s with script := .turn .dec :: moves }) hwf rfl, decTurn_script]

theorem step_given_enc_turn {s : State} (hwf : encWellFormed s.enc = true) (moves : List Move) :
    step { s with script := .turn .enc :: moves } = .next { encTurn s with script := moves } := by
  rw [step_eq_encTurn (s := { s with script := .turn .enc :: moves }) hwf rfl, encTurn_script hwf]

theorem run_two {s t u : State} (hst : step s = .next t) (htu : step t = .next u) :
    Sys2Proof.core.run 2 s = .next u :=
  (run_succ hst 1).trans (run_succ htu 0)

/-- Settles O42: each order runs both turn functions, and these commute. -/
theorem turnsOfUnitsCommute : Obligations.TurnsOfUnitsCommute := by
  intro s moves hwf
  have henc : encWellFormed (decTurn s).enc = true := (decTurn_enc s).symm ▸ hwf.2
  have hdec : decWellFormed (encTurn s).dec = true := (encTurn_frame hwf.2).1.symm ▸ hwf.1
  refine ⟨{ encTurn (decTurn s) with script := moves }, ?_, ?_⟩
  · exact run_two (step_given_dec_turn hwf.1 _) (step_given_enc_turn henc moves)
  · rw [← decTurn_encTurn hwf.2]
    exact run_two (step_given_enc_turn hwf.2 _) (step_given_dec_turn hdec moves)

/-! ### The live registers of DEC -/

theorem sameLiveRegs_phase {r q : DecRegs} (h : sameLiveRegs r q = true) : r.phase = q.phase := by
  rw [sameLiveRegs, Bool.and_eq_true, beq_iff_eq] at h
  exact h.1

theorem sameLiveRegs_of_b0 {r q : DecRegs} (hr : r.phase = .b0) (hq : q.phase = .b0) : sameLiveRegs r q = true := by
  simp [sameLiveRegs, hr, hq]

theorem sameLiveRegs_b1_iff {r q : DecRegs} (hr : r.phase = .b1) (hq : q.phase = .b1) :
    sameLiveRegs r q = true ↔ decFlags r = decFlags q ∧ r.opcode = q.opcode := by
  simp [sameLiveRegs, hr, hq]

/-- In D_EXT only the key and the count are dead. -/
theorem sameLiveRegs_ext_iff {r q : DecRegs} (hr : r.phase = .ext) :
    sameLiveRegs r q = true ↔ ∃ k c, q = { r with key := k, cnt := c } := by
  obtain ⟨rp, ri, r1, r2, r3, r4, rop, rm, r7, rl, rk, rc⟩ := r
  obtain ⟨qp, qi, q1, q2, q3, q4, qop, qm, q7, ql, qk, qc⟩ := q
  obtain rfl : rp = .ext := hr
  simp [sameLiveRegs, decFlags]
  grind

/-- In D_KEY only the key bytes still to come and the count are dead. -/
theorem sameLiveRegs_key_iff {r q : DecRegs} (hr : r.phase = .key) :
    sameLiveRegs r q = true ↔ ∃ k c, q = { r with key := k, cnt := c } ∧
      ∀ j < 4, r.idx.toNat ≤ j ∨ keyLane r.key j = keyLane k j := by
  obtain ⟨rp, ri, r1, r2, r3, r4, rop, rm, r7, rl, rk, rc⟩ := r
  obtain ⟨qp, qi, q1, q2, q3, q4, qop, qm, q7, ql, qk, qc⟩ := q
  obtain rfl : rp = .key := hr
  simp [sameLiveRegs, decFlags]
  grind

theorem sameLiveRegs_pay_iff {r q : DecRegs} (hr : r.phase = .pay) (hq : q.phase = .pay) :
    sameLiveRegs r q = true ↔
      r.masked = q.masked ∧ r.len = q.len ∧ r.cnt = q.cnt ∧ (r.masked = false ∨ r.key = q.key) := by
  simp [sameLiveRegs, hr, hq]
  tauto

/-- Two DEC results that show the same events and leave the same to read. -/
def SameLive (o p : DecResult) : Prop := o.events = p.events ∧ sameLiveRegs o.regs p.regs = true

theorem endCall_sameLive (r q : DecRegs) (st : Status) (l : Bool) (ev : List DecEvent) :
    SameLive (endCall r st l ev) (endCall q st l ev) := ⟨rfl, rfl⟩

theorem headerComplete_sameLive {r q : DecRegs} (hhdr : hdrOf r = hdrOf q) (hkey : r.masked = false ∨ r.key = q.key)
    (l : Bool) : SameLive (headerComplete r l) (headerComplete q l) := by
  have hlen : r.len = q.len := congrArg Hdr.len hhdr
  have hm : r.masked = q.masked := congrArg Hdr.masked hhdr
  unfold headerComplete
  rw [← hhdr]
  by_cases hzero : r.len = 0#53
  · rw [if_pos hzero, if_pos (show q.len = 0#53 from hlen ▸ hzero)]
    exact endCall_sameLive r q .ok l _
  rw [if_neg hzero, if_neg (show ¬ q.len = 0#53 from hlen ▸ hzero)]
  split_ifs
  · exact endCall_sameLive r q .short l _
  · exact ⟨rfl, (sameLiveRegs_pay_iff rfl rfl).mpr ⟨hm, hlen, rfl, hkey⟩⟩

theorem lengthComplete_sameLive {r : DecRegs} (k : Key) (c : BitVec 53) (l : Bool) :
    SameLive (lengthComplete r l) (lengthComplete { r with key := k, cnt := c } l) := by
  unfold lengthComplete
  dsimp only
  split_ifs with hmask
  · exact endCall_sameLive _ _ .short l []
  · exact ⟨rfl, (sameLiveRegs_key_iff rfl).mpr ⟨k, c, rfl, fun j _ => .inl (Nat.zero_le j)⟩⟩
  · refine headerComplete_sameLive ?_ (.inl (by simpa using hmask)) l
    rfl

theorem byteZeroStep_sameLive (r q : DecRegs) (f : HeadFlags) (op : BitVec 4) (l : Bool) :
    SameLive (byteZeroStep r f op l) (byteZeroStep q f op l) := by
  cases l
  · exact ⟨rfl, (sameLiveRegs_b1_iff rfl rfl).mpr ⟨rfl, rfl⟩⟩
  · exact endCall_sameLive _ _ .short true []

/-- In D_B1 the length, the mask flag and `idx` are dead too: the step writes what is read of them later. -/
theorem byteOneStep_sameLive {r q : DecRegs} (hflags : decFlags r = decFlags q) (hop : r.opcode = q.opcode) (m : Bool)
    (n : BitVec 7) (l : Bool) : SameLive (byteOneStep r m n l) (byteOneStep q m n l) := by
  obtain ⟨hfin, hrsv1, hrsv2, hrsv3⟩ := HeadFlags.mk.inj hflags
  unfold byteOneStep lengthComplete
  dsimp only
  split_ifs with hn hmask
  · exact endCall_sameLive _ _ .short _ []
  · refine ⟨rfl, (sameLiveRegs_key_iff rfl).mpr ⟨q.key, q.cnt, ?_, fun j _ => .inl (Nat.zero_le j)⟩⟩
    simp only [hfin, hrsv1, hrsv2, hrsv3, hop]
  · refine headerComplete_sameLive ?_ (.inl (by simpa using hmask)) l
    simp only [hdrOf, hfin, hrsv1, hrsv2, hrsv3, hop]
  · exact endCall_sameLive _ _ .short _ []
  · refine ⟨rfl, (sameLiveRegs_ext_iff rfl).mpr ⟨q.key, q.cnt, ?_⟩⟩
    simp only [hfin, hrsv1, hrsv2, hrsv3, hop]

theorem extStep_sameLive {r q : DecRegs} (hr : r.phase = .ext) (h : sameLiveRegs r q = true)
    (b : Byte) (l : Bool) : SameLive (extStep r b l) (extStep q b l) := by
  obtain ⟨k, c, rfl⟩ := (sameLiveRegs_ext_iff hr).mp h
  unfold extStep
  dsimp only
  split_ifs
  · exact endCall_sameLive _ _ .tooBig _ []
  · exact lengthComplete_sameLive k c l
  · exact endCall_sameLive _ _ .short _ []
  · refine ⟨rfl, (sameLiveRegs_ext_iff ?_).mpr ⟨k, c, rfl⟩⟩
    exact hr

theorem keyLane_keySet (k : Key) {i j : Nat} (hi : i < 4) (hj : j < 4) (b : Byte) :
    keyLane (keySet k i b) j = if j = i then b else keyLane k j := by
  interval_cases i <;> interval_cases j <;> rfl

theorem key_eq_of_keyLane {k m : Key} (h : ∀ j < 4, keyLane k j = keyLane m j) : k = m := by
  obtain ⟨k0, k1, k2, k3⟩ := k
  obtain ⟨m0, m1, m2, m3⟩ := m
  exact (Key.mk.injEq ..).mpr ⟨h 0 (by decide), h 1 (by decide), h 2 (by decide), h 3 (by decide)⟩

/-- The key byte of `idx` is written from the input, so agreement below `idx` becomes agreement up to it. -/
theorem keySet_agrees {k m : Key} {i : Nat} (hi : i < 4) (h : ∀ j < 4, i ≤ j ∨ keyLane k j = keyLane m j) (b : Byte) :
    ∀ j < 4, i + 1 ≤ j ∨ keyLane (keySet k i b) j = keyLane (keySet m i b) j := by
  intro j hj
  rw [keyLane_keySet k hi hj, keyLane_keySet m hi hj]
  obtain hlt | rfl | hgt := Nat.lt_trichotomy j i
  · right
    rw [if_neg hlt.ne, if_neg hlt.ne]
    exact (h j hj).resolve_left (Nat.not_le_of_lt hlt)
  · exact .inr (by rw [if_pos rfl, if_pos rfl])
  · exact .inl hgt

theorem keyStep_sameLive {r q : DecRegs} (hr : r.phase = .key) (hidx : r.idx.toNat < 4)
    (h : sameLiveRegs r q = true) (b : Byte) (l : Bool) : SameLive (keyStep r b l) (keyStep q b l) := by
  obtain ⟨k, c, rfl, hlanes⟩ := (sameLiveRegs_key_iff hr).mp h
  have hlanes' := keySet_agrees hidx hlanes b
  unfold keyStep
  dsimp only
  split_ifs with h3
  · have hkey : keySet r.key r.idx.toNat b = keySet k r.idx.toNat b :=
      key_eq_of_keyLane fun j hj => (hlanes' j hj).resolve_left (by rw [h3]; exact Nat.not_le_of_lt hj)
    refine headerComplete_sameLive ?_ (.inr ?_) l
    · rfl
    · exact hkey
  · exact endCall_sameLive _ _ .short _ []
  · have hsucc : (r.idx + 1#3).toNat = r.idx.toNat + 1 :=
      BitVec.toNat_add_of_lt (show r.idx.toNat + 1 < 2 ^ 3 by omega)
    refine ⟨rfl, (sameLiveRegs_key_iff ?_).mpr ⟨_, c, rfl, ?_⟩⟩
    · exact hr
    · show ∀ j < 4, (r.idx + 1#3).toNat ≤ j ∨ _
      rwa [hsucc]

theorem payStep_sameLive {r q : DecRegs} (hr : r.phase = .pay) (hq : q.phase = .pay) (h : sameLiveRegs r q = true)
    (b : Byte) (l : Bool) : SameLive (payStep r b l) (payStep q b l) := by
  obtain ⟨hm, hlen, hcnt, hkey⟩ := (sameLiveRegs_pay_iff hr hq).mp h
  have hmask : payMask r = payMask q := by
    unfold payMask
    rw [← hm, ← hcnt]
    obtain hoff | hkey := hkey
    · rw [hoff]; rfl
    · rw [hkey]
  have hlast : payLast r = payLast q := by rw [payLast, payLast, hcnt, hlen]
  unfold payStep
  rw [← hmask, ← hlast]
  split_ifs
  · exact endCall_sameLive _ _ .ok _ _
  · exact endCall_sameLive _ _ .short _ _
  · refine ⟨rfl, (sameLiveRegs_pay_iff ?_ ?_).mpr ⟨hm, hlen, congrArg (· + 1#53) hcnt, hkey⟩⟩
    · exact hr
    · exact hq

/-- A DEC step reads its live registers and its byte alone. -/
theorem decStep_sameLive {r q : DecRegs} (hwf : decWellFormed r = true) (h : sameLiveRegs r q = true) (b : Beat) :
    SameLive (decStep r b) (decStep q b) := by
  have hphase := sameLiveRegs_phase h
  cases hr : r.phase with
  | b0 =>
    rw [decStep_of_b0 b hr, decStep_of_b0 b (hphase ▸ hr)]
    exact byteZeroStep_sameLive r q _ _ b.last
  | b1 =>
    obtain ⟨hflags, hop⟩ := (sameLiveRegs_b1_iff hr (hphase ▸ hr)).mp h
    rw [decStep_of_b1 b hr, decStep_of_b1 b (hphase ▸ hr)]
    exact byteOneStep_sameLive hflags hop _ _ b.last
  | ext =>
    rw [decStep_of_ext b hr, decStep_of_ext b (hphase ▸ hr)]
    exact extStep_sameLive hr h b.data b.last
  | key =>
    obtain ⟨-, hidx, -⟩ := (decWellFormed_key_iff hr).mp hwf
    rw [decStep_of_key b hr, decStep_of_key b (hphase ▸ hr)]
    exact keyStep_sameLive hr hidx h b.data b.last
  | pay =>
    rw [decStep_of_pay b hr, decStep_of_pay b (hphase ▸ hr)]
    exact payStep_sameLive hr (hphase ▸ hr) h b.data b.last

/-- Two states between which no turn of DEC tells a difference. -/
def DecAgree (s u : State) : Prop := sameDecInputs s u ∧ sameLiveRegs s.dec u.dec = true

theorem decTurn_agrees {s u : State} (hwf : decWellFormed s.dec = true) (h : DecAgree s u) :
    DecAgree (decTurn s) (decTurn u) := by
  obtain ⟨⟨hdIn, hready, htrace⟩, hlive⟩ := h
  have henabled : decEnabled s = decEnabled u := by
    rw [decEnabled, decEnabled, hdIn, hready, sameLiveRegs_phase hlive]
  obtain ⟨he, hs⟩ | ⟨he, b, rest, hd, hs⟩ := decTurn_cases s
  · rw [hs, decTurn_of_not_enabled (henabled ▸ he)]
    exact ⟨⟨hdIn, hready, htrace⟩, hlive⟩
  · obtain ⟨hevents, hregs⟩ := decStep_sameLive hwf hlive b
    rw [hs, decTurn_of_byte (hdIn ▸ hd) (henabled ▸ he)]
    refine ⟨⟨rfl, hready, ?_⟩, hregs⟩
    show s.dTrace ++ (decStep s.dec b).events = u.dTrace ++ (decStep u.dec b).events
    rw [htrace, hevents]

/-- Settles O59: DEC's turn function keeps the agreement, and no well-formed DEC faults. -/
theorem decTurnKeepsLiveRegisters : Obligations.DecTurnKeepsLiveRegisters := by
  intro s u p q hs hu hinputs hlive hscripts hscriptu
  obtain ⟨hinputs', hlive'⟩ := decTurn_agrees hs ⟨hinputs, hlive⟩
  exact ⟨_, _, step_eq_decTurn hs hscripts, step_eq_decTurn hu hscriptu, hinputs', hlive'⟩

theorem decTurn_iterate_agrees (k : Nat) {s u : State} (hwf : decWellFormed s.dec = true) (h : DecAgree s u) :
    DecAgree (decTurn^[k] s) (decTurn^[k] u) := by
  induction k generalizing s u with
  | zero => exact h
  | succ k ih =>
    rw [Function.iterate_succ_apply, Function.iterate_succ_apply]
    exact ih (decTurn_keeps_wellFormed hwf) (decTurn_agrees hwf h)

/-- Settles O40: in D_B0 every register but the phase is dead, so the two states agree to begin with. -/
theorem decoderReadsNothingStale : Obligations.DecoderReadsNothingStale := by
  intro k s u hs hu hinputs hscripts hscriptu
  obtain ⟨hinputs', hlive'⟩ :=
    decTurn_iterate_agrees k (decWellFormed_of_b0 hs) ⟨hinputs, sameLiveRegs_of_b0 hs hu⟩
  exact ⟨_, _, run_dec_turns (moves := []) (decWellFormed_of_b0 hs) (by simpa using hscripts),
    run_dec_turns (moves := []) (decWellFormed_of_b0 hu) (by simpa using hscriptu), hinputs', hlive'⟩

/-! ### The live registers of ENC -/

theorem sameLiveEncRegs_phase {r q : EncRegs} (h : sameLiveEncRegs r q = true) : r.phase = q.phase := by
  rw [sameLiveEncRegs, Bool.and_eq_true, beq_iff_eq] at h
  exact h.1

theorem sameLiveEncRegs_of_idle {r q : EncRegs} (hr : r.phase = .idle) (hq : q.phase = .idle) :
    sameLiveEncRegs r q = true := by
  simp [sameLiveEncRegs, hr, hq]

/-- In E_HDR only the count is dead. -/
theorem sameLiveEncRegs_hdr_iff {r q : EncRegs} (hr : r.phase = .hdr) :
    sameLiveEncRegs r q = true ↔ ∃ c, q = { r with cnt := c } := by
  obtain ⟨rp, rt, rn, rk, rh, rc⟩ := r
  obtain ⟨qp, qt, qn, qk, qh, qc⟩ := q
  obtain rfl : rp = .hdr := hr
  simp [sameLiveEncRegs]
  grind

theorem sameLiveEncRegs_pay_iff {r q : EncRegs} (hr : r.phase = .pay) (hq : q.phase = .pay) :
    sameLiveEncRegs r q = true ↔ r.n = q.n ∧ r.key = q.key ∧ r.cnt = q.cnt := by
  simp [sameLiveEncRegs, hr, hq, and_assoc]

/-- Two ENC results that show the same event and leave the same to read. -/
def SameEncLive (o p : EncResult) : Prop := o.event = p.event ∧ sameLiveEncRegs o.regs p.regs = true

/-- A header step reads its live registers alone; the count is written when the payload begins. -/
theorem headerStep_sameLive {r q : EncRegs} (hr : r.phase = .hdr) (h : sameLiveEncRegs r q = true) {o : EncResult}
    (ho : headerStep r = some o) : ∃ p, headerStep q = some p ∧ SameEncLive o p := by
  obtain ⟨c, rfl⟩ := (sameLiveEncRegs_hdr_iff hr).mp h
  unfold headerStep at ho ⊢
  dsimp only
  split at ho
  case h_1 => cases ho
  case h_2 b hb =>
    rw [show headerLast { r with cnt := c } = headerLast r from rfl]
    split_ifs at ho ⊢ with hlast hempty <;> cases ho
    · exact ⟨_, rfl, rfl, sameLiveEncRegs_of_idle rfl rfl⟩
    · exact ⟨_, rfl, rfl, (sameLiveEncRegs_pay_iff rfl rfl).mpr ⟨rfl, rfl, rfl⟩⟩
    · refine ⟨_, rfl, rfl, (sameLiveEncRegs_hdr_iff ?_).mpr ⟨c, rfl⟩⟩
      exact hr

theorem encPayStep_sameLive {r q : EncRegs} (hr : r.phase = .pay) (hq : q.phase = .pay)
    (h : sameLiveEncRegs r q = true) (p : Byte) : SameEncLive (encPayStep r p) (encPayStep q p) := by
  obtain ⟨hn, hkey, hcnt⟩ := (sameLiveEncRegs_pay_iff hr hq).mp h
  have hlast : encPayLast r = encPayLast q := by rw [encPayLast, encPayLast, hcnt, hn]
  have hlane : keyLane r.key (r.cnt.extractLsb' 0 2).toNat = keyLane q.key (q.cnt.extractLsb' 0 2).toNat := by
    rw [hkey, hcnt]
  unfold encPayStep
  rw [← hlane, ← hlast]
  split_ifs
  · exact ⟨rfl, sameLiveEncRegs_of_idle rfl rfl⟩
  · refine ⟨rfl, (sameLiveEncRegs_pay_iff ?_ ?_).mpr ⟨hn, hkey, congrArg (· + 1#32) hcnt⟩⟩
    · exact hr
    · exact hq

/-- Two states between which no turn of ENC tells a difference. -/
def EncAgree (s u : State) : Prop := sameEncInputs s u ∧ sameLiveEncRegs s.enc u.enc = true

theorem encTurn_agrees {s u : State} (hwf : encWellFormed s.enc = true) (h : EncAgree s u) :
    EncAgree (encTurn s) (encTurn u) := by
  obtain ⟨⟨heCmd, heIn, hready, htrace⟩, hlive⟩ := h
  have hphase := sameLiveEncRegs_phase hlive
  have henabled : encEnabled s = encEnabled u := by rw [encEnabled, encEnabled, heCmd, heIn, hready, hphase]
  obtain ⟨he, hs⟩ | ⟨c, rest, hp, hc, hs⟩ | ⟨o, hp, hr, ho, hs⟩ | ⟨p, rest, hp, hr, hi, hs⟩ := encTurn_cases hwf
  · rw [hs, encTurn_of_not_enabled (henabled ▸ he)]
    exact ⟨⟨heCmd, heIn, hready, htrace⟩, hlive⟩
  · rw [hs, encTurn_accepts (hphase ▸ hp) (heCmd ▸ hc)]
    exact ⟨⟨rfl, heIn, hready, htrace⟩, (sameLiveEncRegs_hdr_iff rfl).mpr ⟨u.enc.cnt, rfl⟩⟩
  · obtain ⟨o', ho', hevent, hregs⟩ := headerStep_sameLive hp hlive ho
    rw [hs, encTurn_header (hphase ▸ hp) (hready ▸ hr) ho']
    exact ⟨⟨heCmd, heIn, hready, by simp [htrace, hevent]⟩, hregs⟩
  · obtain ⟨hevent, hregs⟩ := encPayStep_sameLive hp (hphase ▸ hp) hlive p
    rw [hs, encTurn_payload (hphase ▸ hp) (hready ▸ hr) (heIn ▸ hi)]
    exact ⟨⟨heCmd, rfl, hready, by simp [htrace, hevent]⟩, hregs⟩

/-- Settles O60: ENC's turn function keeps the agreement, and no well-formed ENC faults. -/
theorem encTurnKeepsLiveRegisters : Obligations.EncTurnKeepsLiveRegisters := by
  intro s u p q hs hu hinputs hlive hscripts hscriptu
  obtain ⟨hinputs', hlive'⟩ := encTurn_agrees hs ⟨hinputs, hlive⟩
  exact ⟨_, _, step_eq_encTurn hs hscripts, step_eq_encTurn hu hscriptu, hinputs', hlive'⟩

theorem encTurn_iterate_agrees (k : Nat) {s u : State} (hwf : encWellFormed s.enc = true) (h : EncAgree s u) :
    EncAgree (encTurn^[k] s) (encTurn^[k] u) := by
  induction k generalizing s u with
  | zero => exact h
  | succ k ih =>
    rw [Function.iterate_succ_apply, Function.iterate_succ_apply]
    exact ih (encTurn_keeps_wellFormed hwf) (encTurn_agrees hwf h)

/-- Settles O41: in E_IDLE every register but the phase is dead, so the two states agree to begin with. -/
theorem encoderReadsNothingStale : Obligations.EncoderReadsNothingStale := by
  intro k s u hs hu heCmd heIn hready htrace hscripts hscriptu
  obtain ⟨⟨heCmd', heIn', -, htrace'⟩, hlive'⟩ := encTurn_iterate_agrees k (encWellFormed_of_idle hs)
    ⟨⟨heCmd, heIn, hready, htrace⟩, sameLiveEncRegs_of_idle hs hu⟩
  exact ⟨_, _, run_enc_turns (moves := []) (encWellFormed_of_idle hs) (by simpa using hscripts),
    run_enc_turns (moves := []) (encWellFormed_of_idle hu) (by simpa using hscriptu), heCmd', heIn', htrace',
    sameLiveEncRegs_phase hlive'⟩

end Sys2Proof.Machine
end

section
/-! Laws of the transaction level: masking (R98), the guard (R95, R154), header byte 0 (R130, R160), and the shape of an
encoded frame (R192, R193, R211). -/

namespace Sys2Proof.Machine

/-! ### Masking -/

theorem maskFrom_getElem? (k : Key) (i j : Nat) (x : List Byte) :
    (maskFrom k i x)[j]? = x[j]?.map fun b => b ^^^ keyLane k (i + j) := by
  induction x generalizing i j with
  | nil => rfl
  | cons b x ih =>
    cases j with
    | zero => rfl
    | succ j =>
      rw [maskFrom, List.getElem?_cons_succ, List.getElem?_cons_succ, ih, show i + 1 + j = i + (j + 1) by omega]

theorem keyBytes_getElem? (k : Key) (i : Nat) : [k.k0, k.k1, k.k2, k.k3][i % 4]? = some (keyLane k i) := by
  rw [← keyLane_mod]
  have hi := Nat.mod_lt i (show 0 < 4 by decide)
  interval_cases i % 4 <;> rfl

/-- Settles O46: byte `i` meets the lane of `i mod 4`, by induction on the bytes before it. -/
theorem maskingUsesKeyCyclically : Obligations.MaskingUsesKeyCyclically := by
  refine fun X K => ⟨maskXor_length X K, fun i x hx => ⟨_, keyBytes_getElem? K i, ?_⟩⟩
  rw [maskXor, maskFrom_getElem?, hx, Nat.zero_add]
  rfl

/-! ### The guard -/

theorem readKey_ne_tooBig (B : List Byte) (off len : Nat) : readKey B off len ≠ .tooBig := by
  unfold readKey
  split_ifs <;> simp

theorem decodeBuffer_eq_tooBig_iff (B : List Byte) : decodeBuffer B = .tooBig ↔ readHeader B = .tooBig := by
  unfold decodeBuffer
  cases readHeader B with
  | short => simp
  | tooBig => simp
  | found h =>
    dsimp only
    split_ifs <;> simp

/-- Only the 64-bit form has the guard, once its high word is there (R154). -/
theorem readHeader_eq_tooBig_iff (B : List Byte) :
    readHeader B = .tooBig ↔ 6 ≤ B.length ∧ len7Of (byteAt B 1) = 127#7 ∧ Config.high32Max < memRead B 2 4 := by
  unfold readHeader
  by_cases htwo : B.length < 2
  · rw [if_pos htwo]
    exact ⟨(nomatch ·), fun h => by omega⟩
  rw [if_neg htwo]
  by_cases hinline : (len7Of (byteAt B 1)).toNat ≤ Config.len7InlineMax
  · rw [if_pos hinline]
    refine ⟨fun h => absurd h (readKey_ne_tooBig _ _ _), fun ⟨_, h127, _⟩ => ?_⟩
    rw [h127] at hinline
    exact absurd hinline (by decide)
  rw [if_neg hinline]
  obtain h126 | h127 := len7_eq_126_or_127 hinline
  · rw [if_pos (show len7Of (byteAt B 1) = Config.len7Ext16 from h126)]
    refine ⟨fun h => ?_, fun ⟨_, h127, _⟩ => absurd (h126.symm.trans h127) (by decide)⟩
    split_ifs at h
    exact absurd h (readKey_ne_tooBig _ _ _)
  · rw [if_neg (by rw [h127]; decide)]
    by_cases hsix : B.length < 6
    · rw [if_pos hsix]
      exact ⟨(nomatch ·), fun h => by omega⟩
    rw [if_neg hsix]
    by_cases hbig : Config.high32Max < memRead B 2 4
    · rw [if_pos hbig]
      exact ⟨fun _ => ⟨Nat.le_of_not_lt hsix, h127, hbig⟩, fun _ => rfl⟩
    · rw [if_neg hbig]
      refine ⟨fun h => ?_, fun h => absurd h.2.2 hbig⟩
      split_ifs at h
      exact absurd h (readKey_ne_tooBig _ _ _)

/-- Settles O49: DECODE is TooBig where its header is. -/
theorem tooBigExactlyByGuard : Obligations.TooBigExactlyByGuard :=
  fun B => (decodeBuffer_eq_tooBig_iff B).trans (readHeader_eq_tooBig_iff B)

/-- Four bytes of the buffer, read as one word (R17). -/
theorem memRead_highWord {B : List Byte} (hsix : 6 ≤ B.length) :
    memRead B 2 4 = (((byteAt B 2).toNat * 256 + (byteAt B 3).toNat) * 256 + (byteAt B 4).toNat) * 256 +
      (byteAt B 5).toNat := by
  match B with
  | _ :: _ :: b2 :: b3 :: b4 :: b5 :: _ => simp [memRead, byteAt]
  | [] | [_] | [_, _] | [_, _, _] | [_, _, _, _] | [_, _, _, _, _] => simp at hsix

theorem highWord_le_iff {B : List Byte} (hsix : 6 ≤ B.length) :
    memRead B 2 4 ≤ 2 ^ 21 - 1 ↔ byteAt B 2 = 0#8 ∧ (byteAt B 3).toNat ≤ 0x1F := by
  have h2 := (byteAt B 2).isLt
  have h3 := (byteAt B 3).isLt
  have h4 := (byteAt B 4).isLt
  have h5 := (byteAt B 5).isLt
  rw [memRead_highWord hsix, ← BitVec.toNat_inj, BitVec.toNat_ofNat]
  omega

/-- Settles O50: the guard on the word is the guard on its two most significant bytes. -/
theorem guardReadsTopElevenBits : Obligations.GuardReadsTopElevenBits := by
  refine fun B hsix => ⟨fun h127 => ?_, highWord_le_iff hsix⟩
  rw [Ne, tooBigExactlyByGuard B, ← highWord_le_iff hsix]
  exact ⟨fun hpass => Nat.le_of_not_lt fun hbig => hpass ⟨hsix, h127, hbig⟩,
    fun hle ⟨_, _, hbig⟩ => Nat.not_lt_of_le hle hbig⟩

/-! ### Header byte 0 -/

/-- A header outcome with the fields of another byte 0. -/
def withByteZero (c : Byte) : HeaderOutcome → HeaderOutcome
  | .found h => .found { h with flags := flagsOf c, opcode := opcodeOf c }
  | .tooBig => .tooBig
  | .short => .short

/-- Behind byte 0 two buffers that differ only in it hold the same numbers. -/
theorem memRead_cons (b c : Byte) (rest : List Byte) (off n : Nat) :
    memRead (c :: rest) (off + 1) n = memRead (b :: rest) (off + 1) n := rfl

theorem readKey_cons (b c : Byte) (rest : List Byte) (off len : Nat) :
    readKey (c :: rest) (off + 1) len = withByteZero c (readKey (b :: rest) (off + 1) len) := by
  unfold readKey
  rw [show byteAt (b :: rest) 1 = byteAt (c :: rest) 1 from rfl, List.length_cons, List.length_cons]
  split_ifs <;> rfl

theorem readHeader_cons (b c : Byte) (rest : List Byte) :
    readHeader (c :: rest) = withByteZero c (readHeader (b :: rest)) := by
  unfold readHeader
  rw [show byteAt (b :: rest) 1 = byteAt (c :: rest) 1 from rfl, List.length_cons, List.length_cons,
    memRead_cons b c rest 1 2, memRead_cons b c rest 1 4, memRead_cons b c rest 5 4]
  split_ifs
  · rfl
  · exact readKey_cons b c rest 1 _
  · rfl
  · exact readKey_cons b c rest 3 _
  · rfl
  · rfl
  · rfl
  · exact readKey_cons b c rest 9 _

/-- Every header has at least the bytes 0 and 1. -/
theorem two_le_hlen_of_readKey {B : List Byte} {off len : Nat} (hoff : 2 ≤ off) {h : HeaderInfo}
    (hread : readKey B off len = .found h) : 2 ≤ h.hlen := by
  unfold readKey at hread
  split_ifs at hread <;> cases hread
  · exact Nat.le_add_right_of_le hoff
  · exact hoff

theorem two_le_hlen {B : List Byte} {h : HeaderInfo} (hread : readHeader B = .found h) : 2 ≤ h.hlen := by
  unfold readHeader at hread
  split_ifs at hread
  · exact two_le_hlen_of_readKey (by decide) hread
  · exact two_le_hlen_of_readKey (by decide) hread
  · exact two_le_hlen_of_readKey (by decide) hread

/-- Settles O51: the header keeps all but the fields of byte 0, and the payload and the rest lie behind that byte. -/
theorem byteZeroIsOnlyReported : Obligations.ByteZeroIsOnlyReported := by
  intro b c rest
  simp only [decodeBuffer, readHeader_cons b c rest]
  cases hread : readHeader (b :: rest) with
  | short => rfl
  | tooBig => rfl
  | found h =>
    obtain ⟨n, hn⟩ : ∃ n, h.hlen = n + 1 := ⟨h.hlen - 1, by have := two_le_hlen hread; omega⟩
    simp only [withByteZero, List.length_cons, hn, Nat.add_right_comm n 1, List.drop_succ_cons]
    by_cases hcut : rest.length + 1 < n + h.len + 1
    · simp only [if_pos hcut]
    · simp only [if_neg hcut]
      rfl

/-! ### Encoded frames -/

theorem length_lengthExtension (n : BitVec 32) :
    (lengthExtension n).length = if n.toNat ≤ 125 then 0 else if n.toNat ≤ 65535 then 2 else 8 := by
  unfold lengthExtension Config.len7InlineMax Config.encExt16Max
  split_ifs <;> rfl

theorem length_encodedFrame (t : Byte) (n : BitVec 32) (k : Key) (P : List Byte) :
    (encodedHeader t n k ++ maskXor P k).length = 6 + (lengthExtension n).length + P.length := by
  rw [List.length_append, encodedHeader_length, maskXor_length, encodedHeaderLength, Config.keyBytes]
  omega

/-- Settles O52: the frame is its header, whose first two bytes are written, and the masked payload. -/
theorem encodedFrameShape : Obligations.EncodedFrameShape := by
  intro P t K W hencode
  rw [encodeFrame] at hencode
  split_ifs at hencode with hP
  cases hencode
  have hn : (BitVec.ofNat 32 P.length).toNat = P.length := by
    rw [BitVec.toNat_ofNat, Nat.mod_eq_of_lt (hP.trans_lt (by decide))]
  refine ⟨rfl, ⟨_, rfl, (byteOne_fields (lengthField (BitVec.ofNat 32 P.length))).1⟩, ?_⟩
  rw [length_encodedFrame, length_lengthExtension, hn]

/-- Settles O53: each length is a constant, and type byte and key stand where they stand. -/
theorem lengthStrategyBoundaries : Obligations.LengthStrategyBoundaries := by
  intro t K
  exact ⟨rfl, rfl, rfl, rfl, rfl, rfl, rfl, rfl, rfl, rfl, rfl⟩

end Sys2Proof.Machine
end

section
/-! ENC refines Encode (R208): from a command on, its turns emit the bytes of the frame, header byte by header byte and
then payload byte by payload byte. -/

namespace Sys2Proof.Machine

theorem outEvents_cons {X : List Byte} (hX : X ≠ []) (b : Byte) : outEvents (b :: X) = ⟨b, false⟩ :: outEvents X := by
  cases X with
  | nil => exact absurd rfl hX
  | cons c rest => rfl

theorem withdrawals_eIn_false {w : Withdrawals} (h : w.eIn = false) : { w with eIn := false } = w := by
  cases w
  cases h
  rfl

/-- `X` is what ENC has left to emit of its frame, one byte a turn; `more` is then still offered on `e_in`. -/
def EmitsRest (s : State) (X more : List Byte) : Prop :=
  ∃ e : EncRegs, e.phase = .idle ∧ encTurn^[X.length] s =
    { s with enc := e, eIn := more, eTrace := s.eTrace ++ outEvents X }

/-- One turn that emits `b`, not the last byte, leaves the rest of the frame to be emitted. -/
theorem EmitsRest.cons {s : State} {r : EncRegs} {b : Byte} {X offered more : List Byte} (hX : X ≠ [])
    (hturn : encTurn s = { s with enc := r, eIn := offered, eTrace := s.eTrace ++ [⟨b, false⟩] })
    (hrest : EmitsRest (encTurn s) X more) : EmitsRest s (b :: X) more := by
  obtain ⟨e, he, h⟩ := hrest
  refine ⟨e, he, ?_⟩
  rw [List.length_cons, Function.iterate_succ_apply, h, hturn, outEvents_cons hX]
  simp

/-- In E_PAY the rest of the frame is the payload still to come, masked from `cnt` on. -/
theorem emitsRest_pay {P : List Byte} (hP : P ≠ []) {s : State} {more : List Byte} (hp : s.enc.phase = .pay)
    (hready : s.eOutReady = true) (hi : s.eIn = P ++ more) (hn : s.enc.cnt.toNat + P.length = s.enc.n.toNat)
    (hw : s.mayWithdraw.eIn = false) : EmitsRest s (maskFrom s.enc.key s.enc.cnt.toNat P) more := by
  induction P generalizing s with
  | nil => exact absurd rfl hP
  | cons p P ih =>
    have hturn := encTurn_payload hp hready hi
    rw [withdrawals_eIn_false hw] at hturn
    rw [List.length_cons] at hn
    have hlt := s.enc.n.isLt
    have hsucc : (s.enc.cnt + 1#32).toNat = s.enc.cnt.toNat + 1 :=
      BitVec.toNat_add_of_lt (show s.enc.cnt.toNat + 1 < 2 ^ 32 by omega)
    rw [maskFrom, ← keyLane_lowBits]
    obtain ⟨hlast, hstep⟩ | ⟨hmore, hstep⟩ := encPayStep_cases s.enc p
    · obtain rfl : P = [] := by
        rw [← hlast, hsucc] at hn
        exact List.length_eq_zero_iff.mp (by omega)
      exact ⟨_, rfl, hturn.trans (by rw [hstep]; rfl)⟩
    · have hP' : P ≠ [] := by
        rintro rfl
        exact hmore (BitVec.eq_of_toNat_eq (by rw [hsucc, ← hn]; rfl))
      have hne : maskFrom s.enc.key (s.enc.cnt.toNat + 1) P ≠ [] := fun h =>
        hP' (List.length_eq_zero_iff.mp (by rw [← maskFrom_length s.enc.key (s.enc.cnt.toNat + 1) P, h]; rfl))
      rw [hstep] at hturn
      refine EmitsRest.cons hne hturn ?_
      rw [hturn, ← hsucc]
      exact ih hP' (s := { s with
        enc := { s.enc with cnt := s.enc.cnt + 1#32 }, eIn := P ++ more, eTrace := _ }) hp hready rfl
        (by show (s.enc.cnt + 1#32).toNat + P.length = s.enc.n.toNat; omega) hw

theorem maskFrom_ne_nil {P : List Byte} (hP : P ≠ []) (k : Key) (i : Nat) : maskFrom k i P ≠ [] := fun h =>
  hP (List.length_eq_zero_iff.mp (by rw [← maskFrom_length k i P, h]; rfl))

/-- In E_HDR the rest of the frame is the header from `hidx` on, then the whole payload, masked. -/
theorem emitsRest_hdr {X : List Byte} (hX : X ≠ []) {s : State} {P more : List Byte} (hp : s.enc.phase = .hdr)
    (hready : s.eOutReady = true) (hi : s.eIn = P ++ more) (hn : P.length = s.enc.n.toNat)
    (hw : s.mayWithdraw.eIn = false)
    (hdrop : (encodedHeader s.enc.typ s.enc.n s.enc.key).drop s.enc.hidx.toNat = X) :
    EmitsRest s (X ++ maskXor P s.enc.key) more := by
  induction X generalizing s with
  | nil => exact absurd rfl hX
  | cons b X ih =>
    have hbyte : (encodedHeader s.enc.typ s.enc.n s.enc.key)[s.enc.hidx.toNat]? = some b := by
      rw [← Nat.add_zero s.enc.hidx.toNat, ← List.getElem?_drop, hdrop]
      rfl
    have hlength : s.enc.hidx.toNat + (X.length + 1) = encodedHeaderLength s.enc.n := by
      have hdropLength := congrArg List.length hdrop
      rw [List.length_drop, encodedHeader_length, List.length_cons] at hdropLength
      omega
    obtain ⟨hnone, -⟩ | ⟨b', hb', hexit⟩ := headerStep_cases s.enc
    · rw [hbyte] at hnone
      cases hnone
    obtain rfl : b = b' := Option.some.inj (hbyte.symm.trans hb')
    obtain ⟨hfin, hzero, hstep⟩ | ⟨hfin, hmore, hstep⟩ | ⟨hgoOn, hstep⟩ := hexit
    · obtain rfl : X = [] := List.length_eq_zero_iff.mp (by omega)
      obtain rfl : P = [] := List.length_eq_zero_iff.mp (by rw [hn, hzero]; rfl)
      refine ⟨{ s.enc with phase := .idle }, rfl, (encTurn_header hp hready hstep).trans ?_⟩
      rw [← show s.eIn = more from hi]
      rfl
    · obtain rfl : X = [] := List.length_eq_zero_iff.mp (by omega)
      have hP : P ≠ [] := by
        rintro rfl
        exact hmore (BitVec.eq_of_toNat_eq hn.symm)
      have hturn : encTurn s = { s with
          enc := { s.enc with cnt := 0#32, phase := .pay }, eIn := P ++ more, eTrace := s.eTrace ++ [⟨b, false⟩] } := by
        rw [encTurn_header hp hready hstep, ← hi]
        rfl
      refine EmitsRest.cons (maskFrom_ne_nil hP s.enc.key 0) hturn ?_
      rw [hturn]
      exact emitsRest_pay hP (s := { s with
        enc := { s.enc with cnt := 0#32, phase := .pay }, eIn := P ++ more, eTrace := _ }) rfl hready rfl
        ((Nat.zero_add _).trans hn) hw
    · have hX' : X ≠ [] := by
        rintro rfl
        exact hgoOn hlength
      have hturn : encTurn s = { s with
          enc := { s.enc with hidx := s.enc.hidx + 1#4 }, eIn := P ++ more, eTrace := s.eTrace ++ [⟨b, false⟩] } := by
        rw [encTurn_header hp hready hstep, ← hi]
        rfl
      have hsucc := hidx_succ_toNat (hidx_lt_of_headerStep hstep)
      refine EmitsRest.cons (by simp [hX']) hturn ?_
      rw [hturn]
      refine ih hX' (s := { s with
        enc := { s.enc with hidx := s.enc.hidx + 1#4 }, eIn := P ++ more, eTrace := _ }) hp hready rfl hn hw ?_
      show (encodedHeader s.enc.typ s.enc.n s.enc.key).drop (s.enc.hidx + 1#4).toNat = X
      rw [hsucc, ← List.drop_drop, hdrop]
      rfl

/-- Settles O39: the command is accepted in the first turn, and the rest of the frame is then the whole frame. -/
theorem encoderRefinesEncode : Obligations.EncoderRefinesEncode := by
  intro s t n k cmds P more W moves hp hready hc hi hn hencode hscript
  have hn' : BitVec.ofNat 32 P.length = n := by rw [hn, BitVec.ofNat_toNat, BitVec.setWidth_eq]
  obtain rfl : encodedHeader t n (keyOfWord k) ++ maskXor P (keyOfWord k) = W := by
    rw [encodeFrame, hn'] at hencode
    split_ifs at hencode
    exact Option.some.inj hencode
  refine ⟨by rw [length_encodedFrame, hn], ?_⟩
  have hheader : encodedHeader t n (keyOfWord k) ≠ [] := List.cons_ne_nil _ _
  obtain ⟨e, he, hrest⟩ := emitsRest_hdr hheader (P := P) (more := more) (s := { s with
      eCmd := cmds, enc := acceptCommand s.enc t n k
      mayWithdraw := { s.mayWithdraw with eCmd := false, eIn := false } }) rfl hready hi hn rfl rfl
  refine ⟨e, he, ?_⟩
  rw [run_enc_turns (encWellFormed_of_idle hp) hscript, Nat.add_comm, Function.iterate_succ_apply, encTurn_accepts hp hc]
  exact congrArg (fun u : State => Host.Outcome.next { u with script := moves }) hrest

end Sys2Proof.Machine
end

section
/-! DEC against Decode, one byte at a time (R171): what DEC's registers hold of the bytes consumed so far, in terms of how
Decode reads them, and how the next byte takes it on or ends the call. -/

namespace Sys2Proof.Machine

/-! ### Reading numbers and headers -/

theorem foldl_bytes (x : List Byte) (v : Nat) :
    x.foldl (fun v b => v * 256 + b.toNat) v = v * 256 ^ x.length + x.foldl (fun v b => v * 256 + b.toNat) 0 := by
  induction x generalizing v with
  | nil => simp
  | cons b x ih =>
    rw [List.foldl_cons, ih, List.foldl_cons, ih (0 * 256 + b.toNat), List.length_cons, Nat.pow_succ]
    ring

/-- A number in two parts, the more significant first (R17). -/
theorem memRead_add {B : List Byte} {off m n : Nat} (hfit : off + m + n ≤ B.length) :
    memRead B off (m + n) = memRead B off m * 256 ^ n + memRead B (off + m) n := by
  have hlen : ((B.drop (off + m)).take n).length = n := by
    rw [List.length_take, List.length_drop]
    omega
  rw [memRead, List.take_add, List.foldl_append, foldl_bytes, List.drop_drop, hlen]
  rfl

/-- Reading one byte more than there was. -/
theorem memRead_snoc {X : List Byte} {off n : Nat} (hlen : X.length = off + n) (b : Byte) :
    memRead (X ++ [b]) off (n + 1) = memRead X off n * 256 + b.toNat := by
  have hlast : memRead (X ++ [b]) (off + n) 1 = b.toNat := by
    rw [memRead, ← hlen, List.drop_left]
    simp
  rw [memRead_add (by simp [hlen]), memRead_append hlen.ge, hlast, Nat.pow_one]

theorem byteAt_snoc {X : List Byte} {i : Nat} (hi : X.length = i) (b : Byte) : byteAt (X ++ [b]) i = b := by
  subst hi
  simp [byteAt]

theorem readHeader_of_length_lt_two {B : List Byte} (h : B.length < 2) : readHeader B = .short := if_pos h

theorem readHeader_inline {B : List Byte} (htwo : 2 ≤ B.length) (hn : (len7Of (byteAt B 1)).toNat ≤ 125) :
    readHeader B = readKey B 2 (len7Of (byteAt B 1)).toNat := by
  rw [readHeader, if_neg (Nat.not_lt_of_le htwo)]
  exact if_pos hn

theorem readHeader_ext16 {B : List Byte} (htwo : 2 ≤ B.length) (hn : len7Of (byteAt B 1) = 126#7) :
    readHeader B = if B.length < 4 then .short else readKey B 4 (memRead B 2 2) := by
  rw [readHeader, if_neg (Nat.not_lt_of_le htwo), hn]
  rfl

theorem readHeader_ext64 {B : List Byte} (htwo : 2 ≤ B.length) (hn : len7Of (byteAt B 1) = 127#7) :
    readHeader B =
      if B.length < 6 then .short
      else if Config.high32Max < memRead B 2 4 then .tooBig
      else if B.length < 10 then .short else readKey B 10 (memRead B 2 4 * 2 ^ 32 + memRead B 6 4) := by
  rw [readHeader, if_neg (Nat.not_lt_of_le htwo), hn]
  rfl

theorem readKey_unmasked {B : List Byte} (hm : maskedOf (byteAt B 1) = false) (off len : Nat) :
    readKey B off len =
      .found ⟨flagsOf (byteAt B 0), opcodeOf (byteAt B 0), false, ⟨0, 0, 0, 0⟩, off, len⟩ :=
  if_neg (by simp [hm])

theorem readKey_masked {B : List Byte} (hm : maskedOf (byteAt B 1) = true) (off len : Nat) :
    readKey B off len = if B.length < off + 4 then .short else
      .found ⟨flagsOf (byteAt B 0), opcodeOf (byteAt B 0), true,
        ⟨byteAt B off, byteAt B (off + 1), byteAt B (off + 2), byteAt B (off + 3)⟩, off + 4, len⟩ :=
  if_pos hm

/-- Whatever follows these bytes, Decode goes on with the key at `off`, for the length `len`. -/
def LengthRead (X : List Byte) (off len : Nat) : Prop := ∀ Y, readHeader (X ++ Y) = readKey (X ++ Y) off len

/-! ### What the registers hold of the bytes consumed -/

/-- DEC holds the fields of header bytes 0 and 1. -/
def FieldsRead (X : List Byte) (r : DecRegs) : Prop :=
  2 ≤ X.length ∧ decFlags r = flagsOf (byteAt X 0) ∧ r.opcode = opcodeOf (byteAt X 0) ∧
    r.masked = maskedOf (byteAt X 1) ∧ r.len7 = len7Of (byteAt X 1)

theorem FieldsRead.append {X : List Byte} {r : DecRegs} (h : FieldsRead X r) (Y : List Byte) : FieldsRead (X ++ Y) r := by
  obtain ⟨htwo, hfields⟩ := h
  refine ⟨by rw [List.length_append]; omega, ?_⟩
  rwa [byteAt_append (by omega), byteAt_append (by omega)]

/-- DEC in the middle of a call: `X` are the bytes it has consumed and `ev` the events it has emitted for them. -/
inductive DecReads : List Byte → DecRegs → List DecEvent → Prop where
  | b0 {r : DecRegs} (hp : r.phase = .b0) : DecReads [] r []
  | b1 {r : DecRegs} {b : Byte} (hp : r.phase = .b1) (hflags : decFlags r = flagsOf b) (hop : r.opcode = opcodeOf b) :
      DecReads [b] r []
  | ext {X : List Byte} {r : DecRegs} (hp : r.phase = .ext) (hfields : FieldsRead X r)
      (hpos : X.length = 2 + r.idx.toNat) (hlen : r.len.toNat = memRead X 2 r.idx.toNat)
      (hguard : 6 ≤ X.length → memRead X 2 4 ≤ Config.high32Max) : DecReads X r []
  | key {X : List Byte} {r : DecRegs} {off : Nat} (hp : r.phase = .key) (hfields : FieldsRead X r)
      (hlen : LengthRead X off r.len.toNat) (hpos : X.length = off + r.idx.toNat)
      (hkey : ∀ j < r.idx.toNat, keyLane r.key j = byteAt X (off + j)) : DecReads X r []
  | pay {X : List Byte} {r : DecRegs} {h : HeaderInfo} (hp : r.phase = .pay) (hread : readHeader X = .found h)
      (hpos : X.length = h.hlen + r.cnt.toNat) (hlen : r.len.toNat = h.len) (hm : r.masked = h.masked)
      (hkey : r.masked = true → r.key = h.key) :
      DecReads X r (.hdr (hdrOfInfo h) :: openPays (unmask h (X.drop h.hlen)))

/-- The ways of R171 in which a call ends with the bytes `W` consumed, the last of them marked or not. -/
inductive CallEnds (W : List Byte) (last : Bool) : List DecEvent → Prop where
  | ok {h : HeaderInfo} (hread : readHeader W = .found h) (hend : W.length = h.hlen + h.len) :
      CallEnds W last (.hdr (hdrOfInfo h) :: closedPays (unmask h (W.drop h.hlen)) ++ [.done .ok 0#16 (!last)])
  | tooBig (hread : readHeader W = .tooBig) (hend : W.length = 6) : CallEnds W last [.done .tooBig 1009#16 false]
  | cutHeader (hl : last = true) (hread : readHeader W = .short) : CallEnds W last [.done .short 1002#16 false]
  | cutPayload {h : HeaderInfo} (hl : last = true) (hread : readHeader W = .found h) (hcut : W.length < h.hlen + h.len) :
      CallEnds W last
        (.hdr (hdrOfInfo h) :: openPays (unmask h (W.drop h.hlen)) ++ [.done .short 1002#16 false])

/-- What a step makes of the call once it has consumed `W`: the call goes on, or it ends. -/
inductive Consumed (W : List Byte) (last : Bool) (r : DecRegs) : List DecEvent → Prop where
  | more {ev : List DecEvent} (hl : last = false) (h : DecReads W r ev) : Consumed W last r ev
  | ended {ev : List DecEvent} (hp : r.phase = .b0) (h : CallEnds W last ev) : Consumed W last r ev

/-! ### The steps, phase by phase -/

@[simp] theorem unmask_nil (h : HeaderInfo) : unmask h [] = [] := by
  cases hm : h.masked <;> simp [unmask, hm, maskXor, maskFrom]

theorem headerComplete_consumed {W : List Byte} {r : DecRegs} {h : HeaderInfo} (hread : readHeader W = .found h)
    (hpos : W.length = h.hlen) (hhdr : hdrOf r = hdrOfInfo h) (hlen : r.len.toNat = h.len)
    (hkey : r.masked = true → r.key = h.key) (l : Bool) :
    Consumed W l (headerComplete r l).regs (headerComplete r l).events := by
  have hnone : unmask h (W.drop h.hlen) = [] := by rw [← hpos, List.drop_length, unmask_nil]
  obtain ⟨hzero, hexit⟩ | ⟨hmore, rfl, hexit⟩ | ⟨hmore, rfl, hexit⟩ := headerComplete_cases r l <;> rw [hexit, hhdr]
  · have hend : W.length = h.hlen + h.len := by rw [hpos, ← hlen, hzero]; rfl
    have hok := CallEnds.ok (last := l) hread hend
    rw [hnone] at hok
    exact .ended rfl hok
  · have hcut : W.length < h.hlen + h.len := by
      have hpos' : 0 < r.len.toNat := Nat.pos_of_ne_zero fun h0 => hmore (BitVec.eq_of_toNat_eq h0)
      omega
    have hshort := CallEnds.cutPayload (last := true) rfl hread hcut
    rw [hnone] at hshort
    exact .ended rfl hshort
  · have hpay := DecReads.pay (X := W) (r := { r with cnt := 0#53, phase := .pay }) rfl hread hpos hlen
      (congrArg Hdr.masked hhdr) hkey
    rw [hnone] at hpay
    exact .more rfl hpay

theorem hdrOf_eq_hdrOfInfo {W : List Byte} {r : DecRegs} (hfields : FieldsRead W r) {h : HeaderInfo}
    (hflags : h.flags = flagsOf (byteAt W 0)) (hop : h.opcode = opcodeOf (byteAt W 0))
    (hm : h.masked = maskedOf (byteAt W 1)) (hlen : h.len = r.len.toNat) : hdrOf r = hdrOfInfo h := by
  obtain ⟨-, hf, ho, hmask, -⟩ := hfields
  rw [hdrOfInfo, hflags, ← hf, hop, ← ho, hm, ← hmask, hlen, BitVec.ofNat_toNat, BitVec.setWidth_eq]
  rfl

theorem lengthComplete_consumed {W : List Byte} {r : DecRegs} {off : Nat} (hfields : FieldsRead W r)
    (hlen : LengthRead W off r.len.toNat) (hpos : W.length = off) (l : Bool) :
    Consumed W l (lengthComplete r l).regs (lengthComplete r l).events := by
  have hread : readHeader W = readKey W off r.len.toNat := by simpa using hlen []
  obtain ⟨htwo, hflags, hop, hm, hlen7⟩ := hfields
  cases hmask : r.masked with
  | false =>
    rw [readKey_unmasked (hm ▸ hmask)] at hread
    rw [lengthComplete_unmasked r l hmask]
    refine headerComplete_consumed hread hpos ?_ rfl (by simp [hmask]) l
    exact hdrOf_eq_hdrOfInfo ⟨htwo, hflags, hop, hm, hlen7⟩ rfl rfl (hm ▸ hmask).symm rfl
  | true =>
    rw [readKey_masked (hm ▸ hmask), if_pos (by omega)] at hread
    obtain ⟨-, rfl, hexit⟩ | ⟨-, rfl, hexit⟩ | ⟨hoff, -⟩ := lengthComplete_cases r l
    · rw [hexit]
      exact .ended rfl (.cutHeader rfl hread)
    · rw [hexit]
      exact .more rfl (.key rfl ⟨htwo, hflags, hop, hm, hlen7⟩ hlen hpos fun j hj => absurd hj (Nat.not_lt_zero j))
    · rw [hmask] at hoff
      cases hoff

theorem byteZeroStep_consumed (r : DecRegs) (b : Byte) (l : Bool) :
    Consumed [b] l (byteZeroStep r (flagsOf b) (opcodeOf b) l).regs
      (byteZeroStep r (flagsOf b) (opcodeOf b) l).events := by
  have hread : readHeader [b] = .short := readHeader_of_length_lt_two (Nat.lt_succ_self 1)
  obtain ⟨rfl, h⟩ | ⟨rfl, h⟩ := byteZeroStep_cases r (flagsOf b) (opcodeOf b) l <;> rw [h]
  · exact .ended rfl (.cutHeader rfl hread)
  · exact .more rfl (.b1 rfl rfl rfl)

theorem byteOneStep_consumed {r : DecRegs} {a : Byte} (hflags : decFlags r = flagsOf a) (hop : r.opcode = opcodeOf a)
    (b : Byte) (l : Bool) :
    Consumed [a, b] l (byteOneStep r (maskedOf b) (len7Of b) l).regs
      (byteOneStep r (maskedOf b) (len7Of b) l).events := by
  have htwo : 2 ≤ [a, b].length := Nat.le_refl 2
  obtain ⟨hn, h⟩ | ⟨hn, hl, h⟩ | ⟨hn, hl, h⟩ := byteOneStep_cases r (maskedOf b) (len7Of b) l <;> rw [h]
  · refine lengthComplete_consumed (W := [a, b]) (off := 2)
      (r := { r with masked := maskedOf b, len7 := len7Of b, len := (len7Of b).setWidth 53 })
      ⟨htwo, hflags, hop, rfl, rfl⟩ (fun Y => ?_) rfl l
    have hlen : ((len7Of b).setWidth 53).toNat = (len7Of b).toNat := BitVec.toNat_setWidth_of_le (by decide)
    show readHeader ([a, b] ++ Y) = readKey ([a, b] ++ Y) 2 ((len7Of b).setWidth 53).toNat
    rw [hlen]
    exact readHeader_inline (B := [a, b] ++ Y) (by simp) hn
  all_goals
    have hread : readHeader [a, b] = .short := by
      obtain h126 | h127 := len7_eq_126_or_127 (Nat.not_le_of_lt hn)
      · exact readHeader_ext16 htwo h126
      · exact readHeader_ext64 htwo h127
  · exact .ended rfl (.cutHeader hl hread)
  · exact .more hl (.ext (r := { r with masked := maskedOf b, len7 := len7Of b, len := 0#53, idx := 0#3, phase := .ext })
      rfl ⟨htwo, hflags, hop, rfl, rfl⟩ rfl rfl fun hsix => absurd hsix (by simp))

/-- An extended length that is not whole, its high word not above the guard (R152 to R154). -/
theorem readHeader_of_ext_cut {W : List Byte} {r : DecRegs} (hfields : FieldsRead W r) (hn : 125 < r.len7.toNat)
    (hcut : W.length < 2 + extTotal r.len7) (hguard : 6 ≤ W.length → memRead W 2 4 ≤ Config.high32Max) :
    readHeader W = .short := by
  obtain ⟨htwo, -, -, -, hlen7⟩ := hfields
  obtain ⟨h126, he⟩ | ⟨h127, he⟩ := extTotal_cases hn
  · rw [readHeader_ext16 htwo (hlen7 ▸ h126), if_pos (by omega)]
  · rw [readHeader_ext64 htwo (hlen7 ▸ h127)]
    by_cases hsix : W.length < 6
    · rw [if_pos hsix]
    · rw [if_neg hsix, if_neg (Nat.not_lt_of_le (hguard (Nat.le_of_not_lt hsix))), if_pos (by omega)]

/-- An extended length that is whole, its high word not above the guard (R152 to R154). -/
theorem lengthRead_of_ext {W : List Byte} {r : DecRegs} (hfields : FieldsRead W r) (hn : 125 < r.len7.toNat)
    (hwhole : W.length = 2 + extTotal r.len7) (hguard : 6 ≤ W.length → memRead W 2 4 ≤ Config.high32Max) :
    LengthRead W W.length (memRead W 2 (extTotal r.len7)) := by
  intro Y
  obtain ⟨htwo, -, -, -, hlen7⟩ := hfields.append Y
  have hlen : (W ++ Y).length = W.length + Y.length := List.length_append
  obtain ⟨h126, he⟩ | ⟨h127, he⟩ := extTotal_cases hn
  · rw [readHeader_ext16 htwo (hlen7 ▸ h126), if_neg (by omega), hwhole, he, memRead_append (by omega)]
  · have hhigh : memRead (W ++ Y) 2 4 ≤ Config.high32Max := by
      rw [memRead_append (by omega)]
      exact hguard (by omega)
    rw [readHeader_ext64 htwo (hlen7 ▸ h127), if_neg (by omega), if_neg (Nat.not_lt_of_le hhigh), if_neg (by omega),
      hwhole, he, memRead_add (m := 4) (n := 4) (by omega), memRead_append (by omega), memRead_append (by omega)]
    rfl

theorem extStep_consumed {X : List Byte} {r : DecRegs} (hp : r.phase = .ext) (hwf : decWellFormed r = true)
    (hfields : FieldsRead X r) (hpos : X.length = 2 + r.idx.toNat) (hlen : r.len.toNat = memRead X 2 r.idx.toNat)
    (hguard : 6 ≤ X.length → memRead X 2 4 ≤ Config.high32Max) (b : Byte) (l : Bool) :
    Consumed (X ++ [b]) l (extStep r b l).regs (extStep r b l).events := by
  obtain ⟨hn, hidx, hpart⟩ := (decWellFormed_ext_iff hp).mp hwf
  have hfields' := hfields.append [b]
  have hpos' : (X ++ [b]).length = 2 + (r.idx.toNat + 1) := by rw [List.length_append, hpos]; rfl
  have hnew : (shiftInLength r.len b).toNat = memRead (X ++ [b]) 2 (r.idx.toNat + 1) := by
    rw [shiftInLength_toNat hpart, memRead_snoc hpos, hlen]
  have hguard' (hpass : ¬(r.len7 = 127#7 ∧ r.idx = 3#3 ∧ 2 ^ 21 - 1 < (shiftInLength r.len b).toNat)) :
      6 ≤ (X ++ [b]).length → memRead (X ++ [b]) 2 4 ≤ Config.high32Max := by
    intro hsix
    by_cases h3 : r.idx = 3#3
    · have h127 : r.len7 = 127#7 := by
        obtain ⟨-, he⟩ | ⟨h127, -⟩ := extTotal_cases hn
        · rw [h3, he] at hidx
          exact absurd hidx (by decide)
        · exact h127
      rw [h3] at hnew
      exact Nat.le_of_not_lt fun hbig => hpass ⟨h127, h3, hnew ▸ hbig⟩
    · have h3' : r.idx.toNat ≠ 3 := fun h => h3 (BitVec.eq_of_toNat_eq h)
      rw [memRead_append (by omega)]
      exact hguard (by omega)
  obtain ⟨⟨h127, h3, hbig⟩, h⟩ | ⟨hpass, hend, h⟩ | ⟨hpass, hend, rfl, h⟩ | ⟨hpass, hend, rfl, h⟩ :=
    extStep_cases r b l <;> rw [h]
  · rw [h3] at hnew hpos'
    obtain ⟨-, -, -, -, hlen7⟩ := hfields'
    exact .ended rfl (.tooBig ((readHeader_eq_tooBig_iff _).mpr ⟨hpos'.ge, hlen7 ▸ h127, hnew ▸ hbig⟩) hpos')
  · have hread := lengthRead_of_ext hfields' hn (by rw [hpos', hend]) (hguard' hpass)
    rw [← hend, ← hnew] at hread
    exact lengthComplete_consumed (r := { r with len := shiftInLength r.len b }) hfields' hread rfl l
  · exact .ended rfl (.cutHeader rfl (readHeader_of_ext_cut hfields' hn (by omega) (hguard' hpass)))
  · have hsucc : (r.idx + 1#3).toNat = r.idx.toNat + 1 := by
      have hmax : extTotal r.len7 ≤ 8 := by obtain ⟨-, he⟩ | ⟨-, he⟩ := extTotal_cases hn <;> omega
      exact BitVec.toNat_add_of_lt (show r.idx.toNat + 1 < 2 ^ 3 by omega)
    refine .more rfl (.ext ?_ hfields' ?_ ?_ (hguard' hpass))
    · exact hp
    · rw [hpos', ← hsucc]
    · rw [hnew, ← hsucc]

theorem keyLane_bytes (W : List Byte) (off : Nat) {j : Nat} (hj : j < 4) :
    keyLane ⟨byteAt W off, byteAt W (off + 1), byteAt W (off + 2), byteAt W (off + 3)⟩ j = byteAt W (off + j) := by
  interval_cases j <;> rfl

theorem keyStep_consumed {X : List Byte} {r : DecRegs} {off : Nat} (hp : r.phase = .key) (hwf : decWellFormed r = true)
    (hfields : FieldsRead X r) (hlen : LengthRead X off r.len.toNat) (hpos : X.length = off + r.idx.toNat)
    (hkey : ∀ j < r.idx.toNat, keyLane r.key j = byteAt X (off + j)) (b : Byte) (l : Bool) :
    Consumed (X ++ [b]) l (keyStep r b l).regs (keyStep r b l).events := by
  obtain ⟨hm, hidx, -⟩ := (decWellFormed_key_iff hp).mp hwf
  have hfields' := hfields.append [b]
  have hpos' : (X ++ [b]).length = off + (r.idx.toNat + 1) := by rw [List.length_append, hpos]; rfl
  have hkey' : ∀ j < r.idx.toNat + 1, keyLane (keySet r.key r.idx.toNat b) j = byteAt (X ++ [b]) (off + j) := by
    intro j hj
    rw [keyLane_keySet r.key hidx (by omega)]
    obtain hlt | rfl := Nat.lt_succ_iff_lt_or_eq.mp hj
    · rw [if_neg hlt.ne, hkey j hlt, byteAt_append (by omega)]
    · rw [if_pos rfl, byteAt_snoc hpos]
  have hread : readHeader (X ++ [b]) = readKey (X ++ [b]) off r.len.toNat := hlen [b]
  have ⟨_, _, _, hmask, _⟩ := hfields'
  rw [readKey_masked (hmask ▸ hm)] at hread
  have hcut (h3 : r.idx ≠ 3#3) : readHeader (X ++ [b]) = .short := by
    have h3' : r.idx.toNat ≠ 3 := fun h => h3 (BitVec.eq_of_toNat_eq h)
    rw [hread, if_pos (by omega)]
  obtain ⟨h3, h⟩ | ⟨h3, rfl, h⟩ | ⟨h3, rfl, h⟩ := keyStep_cases r b l <;> rw [h]
  · have hwhole : (X ++ [b]).length = off + 4 := by rw [hpos', h3]; rfl
    rw [if_neg (Nat.not_lt_of_le hwhole.ge)] at hread
    refine headerComplete_consumed (r := { r with key := keySet r.key r.idx.toNat b }) hread hwhole ?_ rfl (fun _ => ?_) l
    · exact hdrOf_eq_hdrOfInfo (r := { r with key := keySet r.key r.idx.toNat b }) hfields' rfl rfl (hmask ▸ hm).symm rfl
    · refine key_eq_of_keyLane fun j hj => ?_
      rw [keyLane_bytes _ off hj]
      exact hkey' j (by rwa [h3])
  · exact .ended rfl (.cutHeader rfl (hcut h3))
  · have hsucc : (r.idx + 1#3).toNat = r.idx.toNat + 1 := BitVec.toNat_add_of_lt (show r.idx.toNat + 1 < 2 ^ 3 by
      have h3' : r.idx.toNat ≠ 3 := fun h => h3 (BitVec.eq_of_toNat_eq h)
      omega)
    refine .more rfl (.key (off := off) ?_ hfields' (fun Y => ?_) ?_ ?_)
    · exact hp
    · rw [List.append_assoc]
      exact hlen ([b] ++ Y)
    · rw [hpos', ← hsucc]
    · rwa [← hsucc] at hkey'

/-! ### Payload bytes -/

theorem maskFrom_append (k : Key) (i : Nat) (x y : List Byte) :
    maskFrom k i (x ++ y) = maskFrom k i x ++ maskFrom k (i + x.length) y := by
  induction x generalizing i with
  | nil => rfl
  | cons b x ih => rw [List.cons_append, maskFrom, ih, maskFrom, List.cons_append, List.length_cons, Nat.add_right_comm]; rfl

/-- The byte behind `Y` meets the key lane of `Y.length`, in a masked frame (R98). -/
theorem unmask_snoc (h : HeaderInfo) (Y : List Byte) (b : Byte) :
    unmask h (Y ++ [b]) = unmask h Y ++ [b ^^^ if h.masked then keyLane h.key Y.length else 0#8] := by
  cases hm : h.masked with
  | false => simp [unmask, hm]
  | true => simp [unmask, hm, maskXor, maskFrom_append, maskFrom]

theorem closedPays_snoc (x : List Byte) (b : Byte) : closedPays (x ++ [b]) = openPays x ++ [.pay b true] := by
  induction x with
  | nil => rfl
  | cons c x ih =>
    cases x with
    | nil => rfl
    | cons d y => exact congrArg (.pay c false :: ·) ih

theorem openPays_snoc (x : List Byte) (b : Byte) : openPays (x ++ [b]) = openPays x ++ [.pay b false] :=
  List.map_append

theorem payStep_consumed {X : List Byte} {r : DecRegs} {h : HeaderInfo} (hp : r.phase = .pay)
    (hwf : decWellFormed r = true) (hread : readHeader X = .found h) (hpos : X.length = h.hlen + r.cnt.toNat)
    (hlen : r.len.toNat = h.len) (hm : r.masked = h.masked) (hkey : r.masked = true → r.key = h.key) (b : Byte)
    (l : Bool) :
    Consumed (X ++ [b]) l (payStep r b l).regs
      (.hdr (hdrOfInfo h) :: openPays (unmask h (X.drop h.hlen)) ++ (payStep r b l).events) := by
  obtain ⟨hcnt, -⟩ := (decWellFormed_pay_iff hp).mp hwf
  have hread' : readHeader (X ++ [b]) = .found h := by rw [readHeader_append (by simp [hread]), hread]
  have hpos' : (X ++ [b]).length = h.hlen + (r.cnt.toNat + 1) := by rw [List.length_append, hpos]; rfl
  have hsucc : (r.cnt + 1#53).toNat = r.cnt.toNat + 1 :=
    BitVec.toNat_add_of_lt (show r.cnt.toNat + 1 < 2 ^ 53 by omega)
  have hpay : unmask h ((X ++ [b]).drop h.hlen) = unmask h (X.drop h.hlen) ++ [b ^^^ payMask r] := by
    have hdropped : (X.drop h.hlen).length = r.cnt.toNat := by rw [List.length_drop]; omega
    rw [List.drop_append_of_le_length (by omega), unmask_snoc, hdropped, payMask, keyLane_lowBits, ← hm]
    cases hmask : r.masked with
    | false => rfl
    | true => rw [hkey hmask]
  obtain ⟨hend, e⟩ | ⟨hend, rfl, e⟩ | ⟨hend, rfl, e⟩ := payStep_cases r b l <;> rw [e]
  · have hok := CallEnds.ok (last := l) hread' (by rw [hpos', ← hsucc, hend, hlen])
    rw [hpay, closedPays_snoc] at hok
    rw [List.cons_append, List.append_assoc] at hok
    exact .ended rfl hok
  · have hmore : r.cnt.toNat + 1 ≠ r.len.toNat := hsucc ▸ fun heq => hend (BitVec.eq_of_toNat_eq heq)
    have hcut := CallEnds.cutPayload (last := true) rfl hread' (by omega)
    rw [hpay, openPays_snoc] at hcut
    rw [List.cons_append, List.append_assoc] at hcut
    exact .ended rfl hcut
  · have hmore := DecReads.pay (r := { r with cnt := r.cnt + 1#53 }) hp hread' (by rw [hpos', hsucc]) hlen hm hkey
    rw [hpay, openPays_snoc] at hmore
    exact .more rfl hmore

/-- Every byte takes the call on or ends it. -/
theorem decStep_consumed {X : List Byte} {r : DecRegs} {ev : List DecEvent} (h : DecReads X r ev)
    (hwf : decWellFormed r = true) (b : Byte) (l : Bool) :
    Consumed (X ++ [b]) l (decStep r ⟨b, l⟩).regs (ev ++ (decStep r ⟨b, l⟩).events) := by
  cases h with
  | b0 hp =>
    rw [decStep_of_b0 _ hp]
    exact byteZeroStep_consumed r b l
  | b1 hp hflags hop =>
    rw [decStep_of_b1 _ hp]
    exact byteOneStep_consumed hflags hop b l
  | ext hp hfields hpos hlen hguard =>
    rw [decStep_of_ext _ hp]
    exact extStep_consumed hp hwf hfields hpos hlen hguard b l
  | key hp hfields hlen hpos hkey =>
    rw [decStep_of_key _ hp]
    exact keyStep_consumed hp hwf hfields hlen hpos hkey b l
  | pay hp hread hpos hlen hm hkey =>
    rw [decStep_of_pay _ hp]
    exact payStep_consumed hp hwf hread hpos hlen hm hkey b l

end Sys2Proof.Machine
end

section
/-! DEC refines Decode (R171): turns in a row consume a buffer byte by byte until the call ends. -/

namespace Sys2Proof.Machine

theorem offerBuffer_cons (b : Byte) (Z : List Byte) : offerBuffer (b :: Z) = ⟨b, Z.isEmpty⟩ :: offerBuffer Z := by
  cases Z <;> rfl

theorem offerBuffer_length (Z : List Byte) : (offerBuffer Z).length = Z.length := by
  induction Z with
  | nil => rfl
  | cons b Z ih => rw [offerBuffer_cons, List.length_cons, ih, List.length_cons]

theorem offerBuffer_drop_length (Z : List Byte) : (offerBuffer Z).drop Z.length = [] :=
  List.drop_eq_nil_of_le (offerBuffer_length Z).le

@[simp] theorem ok_beq_tooBig : (Status.ok == Status.tooBig) = false := rfl

@[simp] theorem short_beq_tooBig : (Status.short == Status.tooBig) = false := rfl

@[simp] theorem endsTooBig_openPays (x : List Byte) : endsTooBig (openPays x) = false := by
  induction x with
  | nil => rfl
  | cons b x ih => exact ih

@[simp] theorem endsTooBig_closedPays (x : List Byte) : endsTooBig (closedPays x) = false := by
  induction x with
  | nil => rfl
  | cons b x ih =>
    cases x with
    | nil => rfl
    | cons c y => exact ih

theorem DecReads.endsTooBig_eq_false {X : List Byte} {r : DecRegs} {ev : List DecEvent} (h : DecReads X r ev) :
    endsTooBig ev = false := by
  cases h <;> simp

/-- A call in progress ends within the buffer, on its last byte at the latest. -/
theorem decTurn_iterate_ends {Z : List Byte} (hZ : Z ≠ []) {X : List Byte} {s : State} {ev tr : List DecEvent}
    {more : List Beat} (hreads : DecReads X s.dec ev) (hwf : decWellFormed s.dec = true) (hready : s.dOutReady = true)
    (hd : s.dIn = offerBuffer Z ++ more) (htr : s.dTrace = tr ++ ev) :
    ∃ n events d, n ≤ Z.length ∧ CallEnds (X ++ Z.take n) (decide (n = Z.length)) events ∧ d.phase = .b0 ∧
      decTurn^[n] s = { s with
        dec := d, dIn := (offerBuffer Z).drop n ++ more, dTrace := tr ++ events
        mayWithdraw := { s.mayWithdraw with dIn := endsTooBig events } } := by
  induction Z generalizing X s ev with
  | nil => exact absurd rfl hZ
  | cons b Z ih =>
    have hbyte : s.dIn = ⟨b, Z.isEmpty⟩ :: (offerBuffer Z ++ more) := by rw [hd, offerBuffer_cons, List.cons_append]
    have hturn := decTurn_of_byte hbyte (decEnabled_of_byte hbyte fun _ => hready)
    rw [htr, List.append_assoc] at hturn
    cases decStep_consumed hreads hwf b Z.isEmpty with
    | ended hp hends =>
      refine ⟨1, ev ++ (decStep s.dec ⟨b, Z.isEmpty⟩).events, (decStep s.dec ⟨b, Z.isEmpty⟩).regs,
        Nat.le_add_left 1 Z.length, ?_, hp, hturn.trans ?_⟩
      · have hlast : decide (1 = (b :: Z).length) = Z.isEmpty := by cases Z <;> simp
        rw [hlast]
        exact hends
      · rw [offerBuffer_cons, endsTooBig_append, hreads.endsTooBig_eq_false]
        rfl
    | more hl hreads' =>
      have hZ' : Z ≠ [] := by
        rintro rfl
        cases hl
      obtain ⟨n, events, d, hn, hends, hp, hrun⟩ := ih hZ' (s := decTurn s) (by rw [hturn]; exact hreads')
        (decTurn_keeps_wellFormed hwf) (by rw [hturn]; exact hready) (by rw [hturn]) (by rw [hturn])
      refine ⟨n + 1, events, d, Nat.succ_le_succ hn, ?_, hp, ?_⟩
      · have hlast : decide (n + 1 = (b :: Z).length) = decide (n = Z.length) := by simp
        rw [hlast, List.take_succ_cons]
        simpa using hends
      · rw [Function.iterate_succ_apply, hrun, hturn, offerBuffer_cons]
        rfl

/-! ### What the outcome of Decode says of the bytes consumed -/

theorem readHeader_of_take {B : List Byte} {n : Nat} (h : readHeader (B.take n) ≠ .short) :
    readHeader B = readHeader (B.take n) := by
  rw [← readHeader_append h (B.drop n), List.take_append_drop]

theorem hlen_of_readKey {B : List Byte} {off len : Nat} {h : HeaderInfo} (hread : readKey B off len = .found h) :
    h.hlen = off + if h.masked then Config.keyBytes else 0 := by
  unfold readKey at hread
  split_ifs at hread <;> cases hread <;> rfl

/-- The header's length is that of its form (R97). -/
theorem hlen_of_readHeader {B : List Byte} {h : HeaderInfo} (hread : readHeader B = .found h) :
    h.hlen = frameHeaderLength h.masked (len7Of (byteAt B 1)) := by
  unfold readHeader at hread
  unfold frameHeaderLength extCount
  split_ifs at hread with _ hinline hext16
  all_goals rw [hlen_of_readKey hread]
  · rw [if_pos hinline]
  · rw [if_neg hinline, if_pos hext16]
  · rw [if_neg hinline, if_neg hext16]

@[simp] theorem bytesOf_optBytes (x : List Byte) : bytesOf (optBytes x) = x := by
  cases x <;> rfl

theorem optBytes_drop_isSome (B : List Byte) {n : Nat} (hn : n ≤ B.length) :
    (optBytes (B.drop n)).isSome = !decide (n = B.length) := by
  rw [Bool.eq_iff_iff, Option.isSome_iff_ne_none, Ne, optBytes_eq_none_iff, List.drop_eq_nil_iff]
  simp
  omega

theorem decodeBuffer_eq_short_of_header {B : List Byte} (hread : readHeader B = .short) : decodeBuffer B = .short := by
  rw [decodeBuffer, hread]

/-- Settles O38: the way in which the call ends fixes the outcome of Decode, and with it the number of turns. -/
theorem decoderRefinesDecode : Obligations.DecoderRefinesDecode := by
  intro s B more moves hB hp hready hd
  have hwf := decWellFormed_of_b0 hp
  obtain ⟨n, events, d, hn, hends, hd0, hrun⟩ :=
    decTurn_iterate_ends hB (.b0 hp) hwf hready hd (List.append_nil s.dTrace).symm
  rw [List.nil_append] at hends
  have htake : (B.take n).length = n := List.length_take_of_le hn
  cases hends with
  | @ok h hread hend =>
    have hread' : readHeader B = .found h := by rw [readHeader_of_take (n := n) (by simp [hread]), hread]
    obtain rfl : n = h.hlen + h.len := htake.symm.trans hend
    rw [(decodeBuffer_eq_ok_iff B _).mpr ⟨h, hread', hn, rfl⟩]
    refine ⟨h, hread', hlen_of_readHeader hread', bytesOf_optBytes _, fun hscript => ⟨d, hd0, ?_⟩⟩
    rw [run_dec_turns hwf hscript, hrun]
    have hpayload : bytesOf (frameOf h B).payload = unmask h ((B.take (h.hlen + h.len)).drop h.hlen) := by
      rw [frameOf, bytesOf_optBytes, List.drop_take, Nat.add_sub_cancel_left]
    rw [hpayload, frameOf, optBytes_drop_isSome B hn]
    simp [hdrOfInfo]
  | tooBig hread hend =>
    have hread' : readHeader B = .tooBig := by rw [readHeader_of_take (n := n) (by simp [hread]), hread]
    obtain rfl : n = 6 := htake.symm.trans hend
    rw [(decodeBuffer_eq_tooBig_iff B).mpr hread']
    refine fun hscript => ⟨d, hd0, ?_⟩
    rw [run_dec_turns hwf hscript, hrun]
    rfl
  | cutHeader hl hread =>
    obtain rfl : n = B.length := of_decide_eq_true hl
    rw [List.take_length] at hread
    rw [decodeBuffer_eq_short_of_header hread, hread]
    refine fun hscript => ⟨d, hd0, ?_⟩
    rw [run_dec_turns hwf hscript, hrun]
    rw [offerBuffer_drop_length]
    simp
  | @cutPayload h hl hread hcut =>
    obtain rfl : n = B.length := of_decide_eq_true hl
    rw [List.take_length] at hread hcut
    rw [List.take_length] at hrun
    rw [decodeBuffer_eq_short_of_lt hread hcut, hread]
    refine fun hscript => ⟨d, hd0, ?_⟩
    rw [run_dec_turns hwf hscript, hrun]
    rw [offerBuffer_drop_length]
    simp

end Sys2Proof.Machine
end
